-- ==== Sys2Proof/Word.lean ====
section
/-! DEFINITION. The word types of PQC-CORE and the two readings of a word as a number (rule R8 of 00_scope.md). -/

namespace Sys2Proof

/-- One element of BYTES: 8 bits, unsigned (rule R34). -/
abbrev Byte := BitVec 8

/-- A 32-bit element or register: a command word, a descriptor word, a zeta value, a coefficient (rules R22 to R29, R32, R33, R35). -/
abbrev Word := BitVec 32

/-- A 64-bit register: x[0] to x[3] and RES (rules R30, R31). -/
abbrev Long := BitVec 64

/-- `uval w` is `zext(w)` of rule R8: the unsigned value of the bits, as an integer. -/
abbrev uval {n : Nat} (w : BitVec n) : Int := (w.toNat : Int)

end Sys2Proof
end

