-- ==== Sys2Proof/Config.lean ====
section
/-! DEFINITION. The parameters of PQC-CORE (rules R5 and R44): sizes and legal ranges that are not state.
The spec leaves no value open for a command (93_implementation_defined.md, Part 1), so this file holds no free value. -/

namespace Sys2Proof

/-- NDEG, the ring degree (rules R5, R26). -/
@[simp] abbrev ndeg : Nat := 256

/-- NPOLY, the number of banks of POLY (rules R5, R33). -/
@[simp] abbrev npolyMax : Nat := 32

/-- BYTES_SZ, the size of BYTES (rules R5, R34). -/
@[simp] abbrev bytesSz : Nat := 8192

/-- NCODER, the number of coder descriptors (rules R5, R35). -/
@[simp] abbrev ncoder : Nat := 16

/-- NENT, the most entries of one SplitCoder descriptor (rules R5, R35). -/
@[simp] abbrev nentMax : Nat := 8

/-- The words of one descriptor: a header and NENT entries (rule R35). -/
@[simp] abbrev descWords : Nat := 9

/-- DMAX, the largest bit width of a BitsCoder (rules R5, R94). -/
@[simp] abbrev dMax : Nat := 31

/-- The largest legal modulus Q (rules R5, R22). -/
@[simp] abbrev qMax : Nat := 2147483647

end Sys2Proof
end

