-- ==== Sys2Proof/Syntax.lean ====
section
/-! DEFINITION. The commands of PQC-CORE: one constructor for each row of spec/opcode_table.json (rule R88 of 30_encoding.md). -/

namespace Sys2Proof

/-- A command with its fields (rules R80, R81). A field is the plain unsigned value of its bits. `pb` is PB, a bank number,
`h` is H, a coder handle, `vlen` is VLEN, the length of the sequence given to a VecCoder. -/
inductive Instr where
  | nop
  | clrerr
  | mod
  | modM
  | smod
  | smodM
  | zgen
  | nttFwd (pb : Nat)
  | nttInv (pb : Nat)
  | clen (h : Nat)
  | enc (h : Nat) (pb : Nat) (vlen : Nat)
  | dec (h : Nat) (pb : Nat)
  | cmpb
  deriving DecidableEq, Repr

end Sys2Proof
end

