-- ==== Sys2Proof/WellFormed.lean ====
section
/-! DEFINITION. Which terms of Instr are commands: every field fits its bits (rule R81 of 30_encoding.md). -/

namespace Sys2Proof

/-- PB has 5 bits, H has 4, VLEN has 8 (rule R81). -/
def Instr.wellFormed : Instr → Bool
  | .nop | .clrerr | .mod | .modM | .smod | .smodM | .zgen | .cmpb => true
  | .nttFwd pb => decide (pb < 32)
  | .nttInv pb => decide (pb < 32)
  | .clen h => decide (h < 16)
  | .enc h pb vlen => decide (h < 16) && decide (pb < 32) && decide (vlen < 256)
  | .dec h pb => decide (h < 16) && decide (pb < 32)

end Sys2Proof
end

