-- ==== Sys2Proof/Decode.lean ====
section
/-! DEFINITION. The decoder of command words, total on 32-bit words and rejecting by name (rules R80 to R89 of 30_encoding.md), and
after it the encoder, written from the same table. -/

namespace Sys2Proof

/-- `bits w hi lo` is `w[hi:lo]` of rule R8. -/
def bits (w : Word) (hi lo : Nat) : Nat := (w.toNat >>> lo) % 2 ^ (hi - lo + 1)

/-- Why a word is illegal (rules R82, R89). Both make the word a faulting command with code BAD_CMD. -/
inductive DecodeError where
  /-- w[31:24] is none of the thirteen opcodes. -/
  | unassignedOpcode
  /-- A bit the format gives to no field is 1 (for DEC this covers VLEN). -/
  | reservedBit
  deriving DecidableEq, Repr

/-- Format Z: no field, w[23:0] reserved. -/
def formatZ (w : Word) (i : Instr) : Except DecodeError Instr :=
  if bits w 23 0 = 0 then .ok i else .error .reservedBit

/-- Format P: PB = w[4:0], w[23:5] reserved. -/
def formatP (w : Word) (mk : Nat → Instr) : Except DecodeError Instr :=
  if bits w 23 5 = 0 then .ok (mk (bits w 4 0)) else .error .reservedBit

/-- Format H: H = w[3:0], w[23:4] reserved. -/
def formatH (w : Word) (mk : Nat → Instr) : Except DecodeError Instr :=
  if bits w 23 4 = 0 then .ok (mk (bits w 3 0)) else .error .reservedBit

/-- Format C of ENC: H = w[3:0], PB = w[8:4], VLEN = w[16:9], w[23:17] reserved. -/
def formatC (w : Word) (mk : Nat → Nat → Nat → Instr) : Except DecodeError Instr :=
  if bits w 23 17 = 0 then .ok (mk (bits w 3 0) (bits w 8 4) (bits w 16 9)) else .error .reservedBit

/-- Format C of DEC: as for ENC, but w[16:9] counts as reserved too (rules R81, R82). -/
def formatD (w : Word) (mk : Nat → Nat → Instr) : Except DecodeError Instr :=
  if bits w 23 9 = 0 then .ok (mk (bits w 3 0) (bits w 8 4)) else .error .reservedBit

/-- Steps (2) and (3) of rule R82 for a word whose opcode is `opc`: the reserved bits of its format, then the fields. -/
def decodeAs (opc : Nat) (w : Word) : Except DecodeError Instr :=
  if opc = 0x00 then formatZ w .nop
  else if opc = 0x01 then formatZ w .clrerr
  else if opc = 0x10 then formatZ w .mod
  else if opc = 0x11 then formatZ w .modM
  else if opc = 0x12 then formatZ w .smod
  else if opc = 0x13 then formatZ w .smodM
  else if opc = 0x20 then formatZ w .zgen
  else if opc = 0x30 then formatP w .nttFwd
  else if opc = 0x31 then formatP w .nttInv
  else if opc = 0x40 then formatH w .clen
  else if opc = 0x41 then formatC w .enc
  else if opc = 0x42 then formatD w .dec
  else if opc = 0x50 then formatZ w .cmpb
  else .error .unassignedOpcode

/-- Rule R82: the opcode w[31:24] decides. -/
def decode (w : Word) : Except DecodeError Instr := decodeAs (bits w 31 24) w

/-- The opcode OPC of a command, the value of w[31:24] (rule R88). -/
def Instr.opcode : Instr → Nat
  | .nop => 0x00
  | .clrerr => 0x01
  | .mod => 0x10
  | .modM => 0x11
  | .smod => 0x12
  | .smodM => 0x13
  | .zgen => 0x20
  | .nttFwd _ => 0x30
  | .nttInv _ => 0x31
  | .clen _ => 0x40
  | .enc _ _ _ => 0x41
  | .dec _ _ => 0x42
  | .cmpb => 0x50

/-- The value of the low 24 bits of a command's word: the fields at their places (rule R80). -/
def Instr.fields : Instr → Nat
  | .nop | .clrerr | .mod | .modM | .smod | .smodM | .zgen | .cmpb => 0
  | .nttFwd pb => pb
  | .nttInv pb => pb
  | .clen h => h
  | .enc h pb vlen => 512 * vlen + 16 * pb + h
  | .dec h pb => 16 * pb + h

/-- The command word of a command (rules R88, R96). -/
def encode (i : Instr) : Word := BitVec.ofNat 32 (16777216 * i.opcode + i.fields)

/-- The name of a command in the table of rule R88. -/
def Instr.mnemonic : Instr → String
  | .nop => "NOP"
  | .clrerr => "CLRERR"
  | .mod => "MOD"
  | .modM => "MOD.M"
  | .smod => "SMOD"
  | .smodM => "SMOD.M"
  | .zgen => "ZGEN"
  | .nttFwd _ => "NTT.FWD"
  | .nttInv _ => "NTT.INV"
  | .clen _ => "CLEN"
  | .enc _ _ _ => "ENC"
  | .dec _ _ => "DEC"
  | .cmpb => "CMPB"

/-- A row of the table of rule R88. -/
structure OpcodeRow where
  mnemonic : String
  matchWord : Word
  mask : Word
  deriving DecidableEq, Repr

/-- The table of rule R88: the exact match and mask of each command. -/
def opcodeTable : List OpcodeRow :=
  [⟨"NOP", 0x00000000, 0xFFFFFFFF⟩, ⟨"CLRERR", 0x01000000, 0xFFFFFFFF⟩,
   ⟨"MOD", 0x10000000, 0xFFFFFFFF⟩, ⟨"MOD.M", 0x11000000, 0xFFFFFFFF⟩,
   ⟨"SMOD", 0x12000000, 0xFFFFFFFF⟩, ⟨"SMOD.M", 0x13000000, 0xFFFFFFFF⟩,
   ⟨"ZGEN", 0x20000000, 0xFFFFFFFF⟩, ⟨"NTT.FWD", 0x30000000, 0xFFFFFFE0⟩,
   ⟨"NTT.INV", 0x31000000, 0xFFFFFFE0⟩, ⟨"CLEN", 0x40000000, 0xFFFFFFF0⟩,
   ⟨"ENC", 0x41000000, 0xFFFE0000⟩, ⟨"DEC", 0x42000000, 0xFFFFFE00⟩,
   ⟨"CMPB", 0x50000000, 0xFFFFFFFF⟩]

/-- The command the decoder reads from a table word of `nbits` bits: the word's bits above `nbits` are 0, and a command word is
one 32-bit value, so that no byte order enters (rules R65, R80). -/
def decodeTableWord (nbits w : Nat) : Option Instr :=
  if w % 2 ^ nbits < 2 ^ 32 then
    match decode (BitVec.ofNat 32 (w % 2 ^ nbits)) with
    | .ok i => some i
    | .error _ => none
  else none

end Sys2Proof
end

