-- ==== Sys2Proof/Machine/State.lean ====
section
/-! DEFINITION. The state of PQC-CORE (rules R20 to R41 of 10_state.md) as plain data, the environment's pending events, the reasons
a step can stop, and the state after reset. -/

namespace Sys2Proof.Machine

/-- A memory of `w`-bit elements in one canonical form: pairs of an element index and a value, indices strictly rising, no pair whose
value is 0. An unlisted element reads as 0, the reset content of every memory (rules R32 to R35, R41). `Memory 8` is a list of
`Host.Cell`. -/
abbrev Memory (w : Nat) := List (Nat × BitVec w)

/-- BITACC, the bit accumulator of the BitsCoder (rule R37): `bufLen` pending bits in `buf`. -/
structure BitAcc where
  buf : Nat
  bufLen : Nat
  deriving DecidableEq, Repr

/-- The transients of the NTT engine that rule R37 names: the zeta index k, the layer width len, the temporary t. -/
structure NttTmp where
  k : Nat
  len : Nat
  t : Int
  deriving DecidableEq, Repr

/-- The fault codes a command can raise (rule R222 of 60_exceptions.md). Codes 2 and 3 are reserved for the host's software and are
never raised (rule R223), so they have no constructor. -/
inductive FaultCode where
  | lenMismatch
  | badCmd
  | badParam
  | badDesc
  | badRange
  | notReady
  deriving DecidableEq, Repr

/-- One element of one of the five spaces (rule R60 of 20_memory.md), as the host names it. An index outside its space is expressible
here and refused at the access (rule R64). -/
inductive Target where
  | reg (number : Nat)
  | zeta (index : Nat)
  | poly (bank index : Nat)
  | bytes (offset : Nat)
  | desc (handle word : Nat)
  deriving DecidableEq, Repr

/-- One event of the environment: the host's primitives of rule R61 (a write to register CMD is the command issue) and the platform's
reset (rule R251). -/
inductive HostEvent where
  | read (target : Target)
  | write (target : Target) (value : Int)
  | reset
  deriving DecidableEq, Repr

/-- The complete state (rule R20). NDEG is a constant and CMD holds nothing (rules R26, R29), so neither is a field; CTRL and STATUS
are held by their fields, their other bits read as 0 (rules R25, R27). The last two fields are the model's own, not the spec's: what
the environment is still going to do, in the one total order of rule R70, and what the latest host read returned. -/
structure State where
  q : Word
  f : Word
  root : Word
  inc : Bool
  brv : BitVec 4
  err : BitVec 8
  sticky : Bool
  zvalid : Bool
  ecmd : Word
  x0 : Long
  x1 : Long
  x2 : Long
  x3 : Long
  res : Long
  zeta : Memory 32
  poly : Memory 32
  bytes : Memory 8
  desc : Memory 32
  scratch : Memory 8
  bitAcc : BitAcc
  nttTmp : NttTmp
  pending : List HostEvent
  readValue : Option Int
  deriving DecidableEq, Repr

/-- The machine never stops with a fault: a faulting command ends in a next state (rules R220, R226, R230), and nothing in PQC-CORE is
stuck (93_implementation_defined.md, Part 1). The type has no constructor. Safe: no behaviour of the hardware is lost. -/
inductive Fault where
  deriving DecidableEq, Repr

/-- Why a step is refused. -/
inductive Refusal where
  /-- Raised by exec alone, for a command without a meaning (none at present). Safe. -/
  | notModelled (mnemonic : String)
  /-- Raised by a host read or write whose index lies outside its space, or whose register number is in no row of rule R40:
  outside the interface, refused as rule R64 says. Safe. -/
  | outsideSpace
  /-- Raised by a host write of a value that does not fit the element, refused as rule R64 says. Safe. -/
  | valueDoesNotFit
  deriving DecidableEq, Repr

/-- The state after reset: every piece of state is zero (rules R41, R250). The environment's fields are empty. -/
def State.reset : State where
  q := 0
  f := 0
  root := 0
  inc := false
  brv := 0
  err := 0
  sticky := false
  zvalid := false
  ecmd := 0
  x0 := 0
  x1 := 0
  x2 := 0
  x3 := 0
  res := 0
  zeta := []
  poly := []
  bytes := []
  desc := []
  scratch := []
  bitAcc := ⟨0, 0⟩
  nttTmp := ⟨0, 0, 0⟩
  pending := []
  readValue := none

end Sys2Proof.Machine
end

