-- ==== Sys2Proof/Machine/Flags.lean ====
section
/-! DEFINITION. The flags of PQC-CORE: the numbers of the fault codes, and the words CTRL and STATUS that the host reads and writes whole
(rules R25, R27, R222). No command computes a condition code from its data (rule R27). -/

namespace Sys2Proof.Machine

/-- The value of STATUS.ERR for a fault code (rule R222). -/
def FaultCode.code : FaultCode → BitVec 8
  | .lenMismatch => 1
  | .badCmd => 4
  | .badParam => 5
  | .badDesc => 6
  | .badRange => 7
  | .notReady => 8

/-- The bit a flag stands for. -/
def flagBit (b : Bool) : Nat := if b then 1 else 0

/-- STATUS as the host reads it: ERR in bits 7:0, STICKY in bit 8, ZVALID in bit 9, the rest 0 (rule R27). -/
def State.status (s : State) : Word :=
  BitVec.ofNat 32 (s.err.toNat + 256 * flagBit s.sticky + 512 * flagBit s.zvalid)

/-- CTRL as the host reads it: INC in bit 0, BRV in bits 7:4, the rest 0 (rule R25). -/
def State.ctrl (s : State) : Word :=
  BitVec.ofNat 32 (flagBit s.inc + 16 * s.brv.toNat)

/-- The INC field of a word written to CTRL, v[0] (rule R25). -/
def ctrlInc (v : Nat) : Bool := decide (v % 2 = 1)

/-- The BRV field of a word written to CTRL, v[7:4] (rule R25). -/
def ctrlBrv (v : Nat) : BitVec 4 := BitVec.ofNat 4 (v / 16)

end Sys2Proof.Machine
end

