-- ==== Sys2Proof/Machine/Ops.lean ====
section
/-! DEFINITION. The named operations over memories and registers (rules R9, R60 to R62), the end of a command: successful completion
(rule R225) and fault entry (rule R226), and the wrapper that ends every command in one of the two. There is no return from a fault
to model: nothing was entered (rule R229). -/

namespace Sys2Proof.Machine

/-- The value of element `a` of a memory: an unlisted element reads as 0. -/
def Memory.read {w : Nat} : Memory w → Nat → BitVec w
  | [], _ => 0
  | (k, v) :: rest, a => if k = a then v else Memory.read rest a

/-- `MemRead(S, base, n)` of rule R9: the elements base .. base+n−1, lowest index first. -/
def Memory.readRange {w : Nat} (m : Memory w) (base n : Nat) : List (BitVec w) :=
  (List.range' base n).map (Memory.read m)

/-- The listed pairs for the values `vs` from element `base` on: a value 0 is not listed. -/
def Memory.cells {w : Nat} (base : Nat) : List (BitVec w) → Memory w
  | [] => []
  | v :: vs => if v = 0 then Memory.cells (base + 1) vs else (base, v) :: Memory.cells (base + 1) vs

/-- `MemWrite(S, base, n, vs)` of rule R9, with n the length of `vs`. It keeps the canonical form. -/
def Memory.writeRange {w : Nat} (m : Memory w) (base : Nat) (vs : List (BitVec w)) : Memory w :=
  m.filter (fun c => decide (c.1 < base)) ++ Memory.cells base vs
    ++ m.filter (fun c => decide (base + vs.length ≤ c.1))

/-- The write of one element. -/
def Memory.write {w : Nat} (m : Memory w) (a : Nat) (v : BitVec w) : Memory w :=
  Memory.writeRange m a [v]

/-- The canonical form: the indices strictly rise, each lies below the size of the memory, and no listed value is 0. -/
abbrev Memory.wf {w : Nat} (size : Nat) (m : Memory w) : Prop :=
  m.Pairwise (fun a b => a.1 < b.1) ∧ ∀ c ∈ m, c.1 < size ∧ c.2 ≠ 0

/-- The element of POLY that is coefficient `i` of bank `b` (rule R33). -/
def polyIndex (b i : Nat) : Nat := ndeg * b + i

/-- The element of DESC that is word `k` of the descriptor of handle `h` (rule R35). -/
def descIndex (h k : Nat) : Nat := descWords * h + k

/-- The 256 coefficients of a bank, as signed values (rule R33). -/
def readBank (poly : Memory 32) (b : Nat) : List Int :=
  (Memory.readRange poly (polyIndex b 0) ndeg).map BitVec.toInt

/-- The write of a whole bank. -/
def writeBank (poly : Memory 32) (b : Nat) (r : List Int) : Memory 32 :=
  Memory.writeRange poly (polyIndex b 0) (r.map (BitVec.ofInt 32))

/-- The banks b, b+1, ..., b+n−1 (rule R153). -/
def readBanks (poly : Memory 32) (b : Nat) : Nat → List (List Int)
  | 0 => []
  | n + 1 => readBank poly b :: readBanks poly (b + 1) n

/-- The write of consecutive banks from b on, one after the other (rule R162). -/
def writeBanks (poly : Memory 32) (b : Nat) : List (List Int) → Memory 32
  | [] => poly
  | p :: ps => writeBanks (writeBank poly b p) (b + 1) ps

def State.setQ (s : State) (v : Word) : State := { s with q := v }
def State.setF (s : State) (v : Word) : State := { s with f := v }
def State.setRoot (s : State) (v : Word) : State := { s with root := v }
def State.setCtrl (s : State) (inc : Bool) (brv : BitVec 4) : State := { s with inc := inc, brv := brv }
def State.setSticky (s : State) (b : Bool) : State := { s with sticky := b }
def State.setZvalid (s : State) (b : Bool) : State := { s with zvalid := b }
def State.setX0 (s : State) (v : Long) : State := { s with x0 := v }
def State.setX1 (s : State) (v : Long) : State := { s with x1 := v }
def State.setX2 (s : State) (v : Long) : State := { s with x2 := v }
def State.setX3 (s : State) (v : Long) : State := { s with x3 := v }

/-- `RES <- v` of rule R9: the value of every rule fits in signed 64 bits (rule R38). -/
def State.setRes (s : State) (v : Int) : State := { s with res := BitVec.ofInt 64 v }

def State.setZeta (s : State) (m : Memory 32) : State := { s with zeta := m }
def State.setPoly (s : State) (m : Memory 32) : State := { s with poly := m }
def State.setBytes (s : State) (m : Memory 8) : State := { s with bytes := m }
def State.setDesc (s : State) (m : Memory 32) : State := { s with desc := m }
def State.setPending (s : State) (es : List HostEvent) : State := { s with pending := es }
def State.setReadValue (s : State) (v : Option Int) : State := { s with readValue := v }

/-- SCRATCH, BITACC and the NTT engine's transients are cleared before any command ends, on every path (rules R36, R37, R184, R261). -/
def State.clearTransients (s : State) : State :=
  { s with scratch := [], bitAcc := ⟨0, 0⟩, nttTmp := ⟨0, 0, 0⟩ }

/-- Successful completion (rule R225): after the writes of the command's own rule, STATUS.ERR <- 0. -/
def State.complete (s : State) : State := { s.clearTransients with err := 0 }

/-- Fault entry (rule R226): STATUS.ERR <- code, STATUS.STICKY <- 1, ECMD <- the command word, and nothing else. -/
def State.raiseFault (s : State) (code : FaultCode) (w : Word) : State :=
  { s.clearTransients with err := code.code, sticky := true, ecmd := w }

/-- How every command ends (rules R10, R225, R226). `r` is what the command's rule gives: the state with its own writes, or the fault
code. A fault starts from the state `s` before the command, so none of its writes lands. -/
def finish (i : Instr) (s : State) (r : Except FaultCode State) : Host.Outcome State Fault Refusal :=
  match r with
  | .ok t => .next t.complete
  | .error code => .next (s.raiseFault code (encode i))

end Sys2Proof.Machine
end

