-- ==== Sys2Proof/Machine/Operands.lean ====
section
/-! DEFINITION. The operand forms and the checks on them: the modulus Q, the bit-reversal width, byte ranges, bank ranges, and the zeta
values and descriptor words a command reads (rules R22, R25, R32, R35, R68). -/

namespace Sys2Proof.Machine

/-- Q is legal (rule R22). -/
abbrev QLegal (s : State) : Prop := 1 ≤ s.q.toNat ∧ s.q.toNat ≤ qMax

/-- CTRL.BRV is legal (rule R25). -/
abbrev BrvLegal (s : State) : Prop := s.brv.toNat = 7 ∨ s.brv.toNat = 8

/-- `range_ok(base, n)` of rule R68. -/
abbrev RangeOk (base n : Int) : Prop := 0 ≤ n ∧ 0 ≤ base ∧ base + n ≤ bytesSz

/-- `overlap((b1, n1), (b2, n2))` of rule R68. -/
abbrev Overlap (b1 n1 b2 n2 : Int) : Prop := 0 < n1 ∧ 0 < n2 ∧ b1 < b2 + n2 ∧ b2 < b1 + n1

/-- `banks_ok(pb, n)` of rule R68, for the count n of banks a coder needs. -/
abbrev BanksOk (pb n : Nat) : Prop := pb + n ≤ npolyMax

/-- The modulus Q as the integer the rules compute with. -/
abbrev State.modulus (s : State) : Int := uval s.q

/-- ZETA[k] as an unsigned value (rule R32). -/
def zetaAt (zeta : Memory 32) (k : Nat) : Int := uval (Memory.read zeta k)

/-- The word DESC[h][k] as an unsigned value (rule R35). -/
def descWord (desc : Memory 32) (h k : Nat) : Word := Memory.read desc (descIndex h k)

/-- The bytes BYTES[base .. base+n−1] for a range whose base is a register value known to be in range. -/
def readBytes (bytes : Memory 8) (base : Int) (n : Nat) : List Byte := Memory.readRange bytes base.toNat n

end Sys2Proof.Machine
end

