-- ==== Sys2Proof/Machine/ModArith.lean ====
section
/-! DEFINITION. The modular arithmetic unit: `mod`, `smod` and the commands MOD, MOD.M, SMOD, SMOD.M (41_modular_arithmetic.md). -/

namespace Sys2Proof.Machine

/-- `mod(a, m)` of rule R110: the r with 0 ≤ r < m and r ≡ a (mod m), for m ≥ 1. Lean's `%` on integers is that remainder. -/
def mod (a m : Int) : Int := a % m

/-- `smod(a, m)` of rule R111. -/
def smod (a m : Int) : Int :=
  if 2 * mod a m > m then mod a m - m else mod a m

/-- Rule R112. -/
def modResult (s : State) : Except FaultCode State :=
  if QLegal s then .ok (s.setRes (mod s.x0.toInt s.modulus)) else .error .badParam

/-- Rule R113. -/
def modMResult (s : State) : Except FaultCode State :=
  if s.x1.toInt ≤ 0 then .error .badParam else .ok (s.setRes (mod s.x0.toInt s.x1.toInt))

/-- Rule R114. -/
def smodResult (s : State) : Except FaultCode State :=
  if QLegal s then .ok (s.setRes (smod s.x0.toInt s.modulus)) else .error .badParam

/-- Rule R115. -/
def smodMResult (s : State) : Except FaultCode State :=
  if s.x1.toInt ≤ 0 then .error .badParam else .ok (s.setRes (smod s.x0.toInt s.x1.toInt))

/-- MOD. -/
def execMod (s : State) : Host.Outcome State Fault Refusal := finish .mod s (modResult s)

/-- MOD.M. -/
def execModM (s : State) : Host.Outcome State Fault Refusal := finish .modM s (modMResult s)

/-- SMOD. -/
def execSmod (s : State) : Host.Outcome State Fault Refusal := finish .smod s (smodResult s)

/-- SMOD.M. -/
def execSmodM (s : State) : Host.Outcome State Fault Refusal := finish .smodM s (smodMResult s)

end Sys2Proof.Machine
end

