-- ==== Sys2Proof/Machine/BitsCoder.lean ====
section
/-! DEFINITION. The BitsCoder leaf: the coefficient maps and the bit packer (rules R154, R158, R160 of 44_bitscoder.md). -/

namespace Sys2Proof.Machine

/-- The coefficient map of a BitsCoder (rule R154): IDENT or CENTERED. -/
inductive CMode where
  | ident
  | centered
  deriving DecidableEq, Repr

/-- `cenc(x)` of rule R154, before truncation. -/
def cenc (cm : CMode) (q x : Int) : Int :=
  match cm with
  | .ident => x
  | .centered => mod x q

/-- `cdec(u)` of rule R154. -/
def cdec (cm : CMode) (q : Int) (u : Nat) : Int :=
  match cm with
  | .ident => u
  | .centered => smod u q

/-- `low_d(v)` of rule R8: the u in [0, 2^d) with u ≡ v (mod 2^d). -/
def lowBits (d : Nat) (v : Int) : Nat := (v % 2 ^ d).toNat

/-- The d-bit form of a coefficient that enters the string (rule R154). -/
def groupOf (d : Nat) (cm : CMode) (q x : Int) : Nat := lowBits d (cenc cm q x)

/-- Bits enter the accumulator above the pending ones: buf <- buf | (u << bufLen), bufLen <- bufLen + n (rules R158, R160). -/
def BitAcc.push (acc : BitAcc) (u n : Nat) : BitAcc := ⟨acc.buf ||| (u <<< acc.bufLen), acc.bufLen + n⟩

/-- The n oldest bits leave the accumulator: buf <- buf >> n, bufLen <- bufLen − n. -/
def BitAcc.pop (acc : BitAcc) (n : Nat) : BitAcc := ⟨acc.buf >>> n, acc.bufLen - n⟩

/-- The inner loop of rule R158, `while bufLen >= 8`, which runs bufLen div 8 times: `n` is that count. -/
def flushBytes : Nat → BitAcc → List Byte × BitAcc
  | 0, acc => ([], acc)
  | n + 1, acc =>
    let rest := flushBytes n (acc.pop 8)
    (BitVec.ofNat 8 acc.buf :: rest.1, rest.2)

/-- The loop of rule R158 over the coefficients left: the bytes it emits and the accumulator it ends with. -/
def encLoop (d : Nat) (cm : CMode) (q : Int) : List Int → BitAcc → List Byte × BitAcc
  | [], acc => ([], acc)
  | x :: xs, acc =>
    let acc1 := acc.push (groupOf d cm q x) d
    let out := flushBytes (acc1.bufLen / 8) acc1
    let rest := encLoop d cm q xs out.2
    (out.1 ++ rest.1, rest.2)

/-- `bits_enc(d, cm, p)` of rule R158. -/
def bitsEnc (d : Nat) (cm : CMode) (q : Int) (p : List Int) : List Byte := (encLoop d cm q p ⟨0, 0⟩).1

/-- The inner loop of rule R160, `while bufLen >= d`, which runs bufLen div d times: `n` is that count. -/
def takeGroups (d : Nat) (cm : CMode) (q : Int) : Nat → BitAcc → List Int × BitAcc
  | 0, acc => ([], acc)
  | n + 1, acc =>
    let rest := takeGroups d cm q n (acc.pop d)
    (cdec cm q (acc.buf % 2 ^ d) :: rest.1, rest.2)

/-- The loop of rule R160 over the bytes left: the coefficients it emits and the accumulator it ends with. -/
def decLoop (d : Nat) (cm : CMode) (q : Int) : List Byte → BitAcc → List Int × BitAcc
  | [], acc => ([], acc)
  | b :: bs, acc =>
    let acc1 := acc.push b.toNat 8
    let out := takeGroups d cm q (acc1.bufLen / d) acc1
    let rest := decLoop d cm q bs out.2
    (out.1 ++ rest.1, rest.2)

/-- `bits_dec(d, cm, bytes)` of rule R160. -/
def bitsDec (d : Nat) (cm : CMode) (q : Int) (bs : List Byte) : List Int := (decLoop d cm q bs ⟨0, 0⟩).1

end Sys2Proof.Machine
end

