-- ==== Sys2Proof/Machine/Coder.lean ====
section
/-! DEFINITION. Coder trees: descriptor words, `resolve`, the three sizes, `enc` and `dec` (rules R92 to R95 of 30_encoding.md, rules R150 to
R156 of 44_bitscoder.md, 45_split_vec_coder.md). -/

namespace Sys2Proof.Machine

mutual

/-- A coder tree (rule R150). -/
inductive Coder where
  | bits (d : Nat) (cm : CMode)
  | split (es : Entries)
  | vec (elem : Coder) (count : Nat)

/-- The entries of a SplitCoder in order (rule R150): RAW(n) or NESTED(c), then the rest. -/
inductive Entries where
  | nil
  | raw (n : Nat) (rest : Entries)
  | nested (c : Coder) (rest : Entries)

end

mutual

/-- `blen` of rule R152, the source's bytesLen (rules R178, R180). -/
def Coder.blen : Coder → Nat
  | .bits d _ => 32 * d
  | .split es => es.blen
  | .vec e cnt => cnt * e.blen

def Entries.blen : Entries → Nat
  | .nil => 0
  | .raw n es => n + es.blen
  | .nested c es => c.blen + es.blen

end

mutual

/-- `npoly` of rule R152, the number of polynomials in a value. -/
def Coder.npoly : Coder → Nat
  | .bits _ _ => 1
  | .split es => es.npoly
  | .vec e cnt => cnt * e.npoly

def Entries.npoly : Entries → Nat
  | .nil => 0
  | .raw _ es => es.npoly
  | .nested c es => c.npoly + es.npoly

end

mutual

/-- `nraw` of rule R152, the number of raw bytes in a value. -/
def Coder.nraw : Coder → Nat
  | .bits _ _ => 0
  | .split es => es.nraw
  | .vec e cnt => cnt * e.nraw

def Entries.nraw : Entries → Nat
  | .nil => 0
  | .raw n es => n + es.nraw
  | .nested c es => c.nraw + es.nraw

end

mutual

/-- Does the tree contain a BITS(_, CENTERED) leaf (rules R154, R157)? A leaf inside a VEC of count 0 counts. -/
def Coder.hasCentered : Coder → Bool
  | .bits _ cm => decide (cm = .centered)
  | .split es => es.hasCentered
  | .vec e _ => e.hasCentered

def Entries.hasCentered : Entries → Bool
  | .nil => false
  | .raw _ es => es.hasCentered
  | .nested c es => c.hasCentered || es.hasCentered

end

/-- The header fields of rule R92. -/
def hdrKind (w : Word) : Nat := bits w 1 0
def hdrD (w : Word) : Nat := bits w 8 4
def hdrCmode (w : Word) : Nat := bits w 10 9
def hdrNent (w : Word) : Nat := bits w 15 12
def hdrElem (w : Word) : Nat := bits w 19 16
def hdrCount (w : Word) : Nat := bits w 31 24

/-- The reserved bits of a header are 0 (rules R92, R94). -/
def hdrReservedZero (w : Word) : Bool :=
  decide (bits w 3 2 = 0) && decide (bits w 11 11 = 0) && decide (bits w 23 20 = 0)

/-- A word-legal header of kind BITS (rule R94). -/
def hdrBitsLegal (w : Word) : Bool :=
  hdrReservedZero w && decide (1 ≤ hdrD w) && decide (hdrD w ≤ dMax) && decide (hdrCmode w ≤ 1)
    && decide (hdrNent w = 0) && decide (hdrElem w = 0) && decide (hdrCount w = 0)

/-- A word-legal header of kind SPLIT (rule R94). -/
def hdrSplitLegal (w : Word) : Bool :=
  hdrReservedZero w && decide (hdrNent w ≤ nentMax) && decide (hdrD w = 0) && decide (hdrCmode w = 0)
    && decide (hdrElem w = 0) && decide (hdrCount w = 0)

/-- A word-legal header of kind VEC (rule R94). -/
def hdrVecLegal (w : Word) : Bool :=
  hdrReservedZero w && decide (hdrD w = 0) && decide (hdrCmode w = 0) && decide (hdrNent w = 0)

/-- The entry fields of rule R93. -/
def entNested (w : Word) : Nat := bits w 31 31
def entRawLen (w : Word) : Nat := bits w 15 0
def entNh (w : Word) : Nat := bits w 3 0

/-- A word-legal entry (rules R93, R94): bits 30:16 are 0, and for NESTED = 1 bits 15:4 too. -/
def entLegal (w : Word) : Bool :=
  decide (bits w 30 16 = 0) && (decide (entNested w = 0) || decide (bits w 15 4 = 0))

/-- The coefficient map of a word-legal CMODE field (rule R154). -/
def cmodeOf (n : Nat) : CMode := if n = 0 then .ident else .centered

/-- The last test of `resolve`: blen(c) ≤ BYTES_SZ (rules R151, R156). -/
def sized (c : Coder) : Option Coder := if c.blen ≤ bytesSz then some c else none

/-- The entries k, k+1, ... of the SPLIT descriptor of handle `h`, `n` of them (rule R151). `sub` resolves a handle below `h`. -/
def resolveEntries (desc : Memory 32) (sub : Nat → Option Coder) (h : Nat) : Nat → Nat → Option Entries
  | 0, _ => some .nil
  | n + 1, k =>
    let w := descWord desc h (1 + k)
    if entLegal w then
      if entNested w = 0 then (resolveEntries desc sub h n (k + 1)).map (.raw (entRawLen w))
      else if entNh w < h then
        match sub (entNh w), resolveEntries desc sub h n (k + 1) with
        | some c, some es => some (.nested c es)
        | _, _ => none
      else none
    else none

/-- One level of `resolve(h)` (rule R151): the header's kind decides. `sub` resolves the handles the descriptor refers to. -/
def resolveLevel (desc : Memory 32) (sub : Nat → Option Coder) (h : Nat) : Option Coder :=
  let hd := descWord desc h 0
  match hdrKind hd with
  | 1 => if hdrBitsLegal hd then sized (.bits (hdrD hd) (cmodeOf (hdrCmode hd))) else none
  | 2 =>
    if hdrSplitLegal hd then
      match resolveEntries desc sub h (hdrNent hd) 0 with
      | some es => sized (.split es)
      | none => none
    else none
  | 3 =>
    if hdrVecLegal hd then
      if hdrElem hd < h then
        match sub (hdrElem hd) with
        | some e => sized (.vec e (hdrCount hd))
        | none => none
      else none
    else none
  | _ => none

/-- `resolve` with a bound on the depth of nesting. -/
def resolveFuel (desc : Memory 32) : Nat → Nat → Option Coder
  | 0, _ => none
  | n + 1, h => resolveLevel desc (resolveFuel desc n) h

/-- `resolve(h)` of rule R151, `none` for INVALID. A descriptor refers only to handles below its own, so h + 1 levels are enough. -/
def resolve (desc : Memory 32) (h : Nat) : Option Coder := resolveFuel desc (h + 1) h

/-- The VEC case of `enc` (rule R181): `cnt` elements, one after the other. `f` encodes one element. -/
def encTimes (f : List (List Int) → List Byte → List Byte × List (List Int) × List Byte) :
    Nat → List (List Int) → List Byte → List Byte × List (List Int) × List Byte
  | 0, polys, raws => ([], polys, raws)
  | n + 1, polys, raws =>
    let a := f polys raws
    let b := encTimes f n a.2.1 a.2.2
    (a.1 ++ b.1, b.2)

/-- The VEC case of `dec` (rule R182): `cnt` chunks of `len` bytes. `f` decodes one chunk. -/
def decTimes (len : Nat) (f : List Byte → List (List Int) × List Byte) : Nat → List Byte → List (List Int) × List Byte
  | 0, _ => ([], [])
  | n + 1, bs =>
    let a := f (bs.take len)
    let b := decTimes len f n (bs.drop len)
    (a.1 ++ b.1, a.2 ++ b.2)

mutual

/-- `enc(c, polys, raws)` of rules R153, R176, R181: the encoded bytes, and the polynomials and raw bytes not yet consumed. -/
def Coder.enc (q : Int) : Coder → List (List Int) → List Byte → List Byte × List (List Int) × List Byte
  | .bits d cm, polys, raws => (bitsEnc d cm q (polys.headD []), polys.tail, raws)
  | .split es, polys, raws => es.enc q polys raws
  | .vec e cnt, polys, raws => encTimes (fun ps rs => e.enc q ps rs) cnt polys raws

def Entries.enc (q : Int) : Entries → List (List Int) → List Byte → List Byte × List (List Int) × List Byte
  | .nil, polys, raws => ([], polys, raws)
  | .raw n es, polys, raws =>
    let b := es.enc q polys (raws.drop n)
    (raws.take n ++ b.1, b.2)
  | .nested c es, polys, raws =>
    let a := c.enc q polys raws
    let b := es.enc q a.2.1 a.2.2
    (a.1 ++ b.1, b.2)

end

mutual

/-- `dec(c, bytes)` of rules R153, R177, R182: the polynomials and the raw bytes in leaf order. -/
def Coder.dec (q : Int) : Coder → List Byte → List (List Int) × List Byte
  | .bits d cm, bs => ([bitsDec d cm q bs], [])
  | .split es, bs => es.dec q bs
  | .vec e cnt, bs => decTimes e.blen (fun chunk => e.dec q chunk) cnt bs

def Entries.dec (q : Int) : Entries → List Byte → List (List Int) × List Byte
  | .nil, _ => ([], [])
  | .raw n es, bs =>
    let b := es.dec q (bs.drop n)
    (b.1, bs.take n ++ b.2)
  | .nested c es, bs =>
    let a := c.dec q (bs.take c.blen)
    let b := es.dec q (bs.drop c.blen)
    (a.1 ++ b.1, a.2 ++ b.2)

end

end Sys2Proof.Machine
end

