-- ==== Sys2Proof/Machine/CoderCommands.lean ====
section
/-! DEFINITION. The three coder commands CLEN, ENC and DEC (rules R155, R157, R162 of 44_bitscoder.md, rule R183 of
45_split_vec_coder.md). Their hygiene (rule R184) is `State.clearTransients`, which every command ends with. -/

namespace Sys2Proof.Machine

/-- VLEN must be the count of a top-level VEC, and 0 for any other coder (rule R183). -/
def Coder.vlenOk (c : Coder) (vlen : Nat) : Bool :=
  match c with
  | .vec _ cnt => decide (vlen = cnt)
  | _ => decide (vlen = 0)

/-- The ranges of ENC and DEC (rules R157, R162): the encoded string at EB = x[0], the raw area at RB = x[2], the banks from `pb` on. -/
abbrev CoderRangesOk (c : Coder) (pb : Nat) (s : State) : Prop :=
  RangeOk s.x0.toInt c.blen ∧ RangeOk s.x2.toInt c.nraw
    ∧ ¬ Overlap s.x0.toInt c.blen s.x2.toInt c.nraw ∧ BanksOk pb c.npoly

/-- The encoded string of coder `c` for the value in the banks from `pb` on and in the raw area (rule R157). -/
def encodedString (c : Coder) (pb : Nat) (s : State) : List Byte :=
  (c.enc s.modulus (readBanks s.poly pb c.npoly) (readBytes s.bytes s.x2.toInt c.nraw)).1

/-- The value coder `c` decodes from the string at EB (rule R162). -/
def decodedValue (c : Coder) (s : State) : List (List Int) × List Byte :=
  c.dec s.modulus (readBytes s.bytes s.x0.toInt c.blen)

/-- Rule R155. -/
def clenResult (h : Nat) (s : State) : Except FaultCode State :=
  match resolve s.desc h with
  | none => .error .badDesc
  | some c => .ok (s.setRes c.blen)

/-- Rule R157: the checks in their order, then the writes. -/
def encResult (h pb vlen : Nat) (s : State) : Except FaultCode State :=
  match resolve s.desc h with
  | none => .error .badDesc
  | some c =>
    if c.hasCentered = true ∧ ¬ QLegal s then .error .badParam
    else if s.x1.toInt ≠ c.blen then .error .lenMismatch
    else if c.vlenOk vlen = false then .error .lenMismatch
    else if ¬ CoderRangesOk c pb s then .error .badRange
    else .ok ((s.setBytes (Memory.writeRange s.bytes s.x0.toInt.toNat (encodedString c pb s))).setRes c.blen)

/-- Rule R162: the checks in their order, then the writes. -/
def decResult (h pb : Nat) (s : State) : Except FaultCode State :=
  match resolve s.desc h with
  | none => .error .badDesc
  | some c =>
    if c.hasCentered = true ∧ ¬ QLegal s then .error .badParam
    else if s.x1.toInt ≠ c.blen then .error .lenMismatch
    else if ¬ CoderRangesOk c pb s then .error .badRange
    else .ok (((s.setPoly (writeBanks s.poly pb (decodedValue c s).1)).setBytes
      (Memory.writeRange s.bytes s.x2.toInt.toNat (decodedValue c s).2)).setRes c.blen)

/-- CLEN hH. -/
def execClen (h : Nat) (s : State) : Host.Outcome State Fault Refusal := finish (.clen h) s (clenResult h s)

/-- ENC hH, pP, vV. -/
def execEnc (h pb vlen : Nat) (s : State) : Host.Outcome State Fault Refusal :=
  finish (.enc h pb vlen) s (encResult h pb vlen s)

/-- DEC hH, pP. -/
def execDec (h pb : Nat) (s : State) : Host.Outcome State Fault Refusal := finish (.dec h pb) s (decResult h pb s)

end Sys2Proof.Machine
end

