-- ==== Sys2Proof/Machine/Comparator.lean ====
section
/-! DEFINITION. The constant-time byte comparator CMPB (46_comparator.md). -/

namespace Sys2Proof.Machine

/-- The accumulating loop of rule R200 over the full length: the OR of all positionwise XOR differences, with no early exit (rule R202). -/
def cmpAcc (acc : Byte) : List Byte → List Byte → Byte
  | a :: as, b :: bs => cmpAcc (acc ||| (a ^^^ b)) as bs
  | _, _ => acc

/-- The result of CMPB on two buffers (rule R200): 1 for equal, 0 for not equal. The length test comes first. -/
def cmpBuffers (a b : List Byte) : Int :=
  if a.length ≠ b.length then 0 else if cmpAcc 0 a b = 0 then 1 else 0

/-- Rule R200. -/
def cmpbResult (s : State) : Except FaultCode State :=
  if RangeOk s.x0.toInt s.x1.toInt ∧ RangeOk s.x2.toInt s.x3.toInt then
    .ok (s.setRes (cmpBuffers (readBytes s.bytes s.x0.toInt s.x1.toInt.toNat)
      (readBytes s.bytes s.x2.toInt s.x3.toInt.toNat)))
  else .error .badRange

/-- CMPB. -/
def execCmpb (s : State) : Host.Outcome State Fault Refusal := finish .cmpb s (cmpbResult s)

end Sys2Proof.Machine
end

