-- ==== Sys2Proof/Machine/Ntt.lean ====
section
/-! DEFINITION. The NTT engine: NTT.FWD and NTT.INV (43_ntt.md). Every coefficient belongs to exactly one pair of each layer (rule R130),
so a layer is written block by block: the `len` lower coefficients of a block beside its `len` upper ones. The zeta index k, the layer
width len and the temporary t are local to a command (rule R37). -/

namespace Sys2Proof.Machine

/-- The forward butterflies of one block (rule R131): a pair (r[j], r[j+len]) becomes (mod(r[j] + t), mod(r[j] − t)) with
t = mod(zeta · r[j+len]). The first component is the block's lower half, the second its upper half. -/
def fwdBlock (q zeta : Int) : List Int → List Int → List Int × List Int
  | a :: as, b :: bs =>
    let t := mod (zeta * b) q
    let rest := fwdBlock q zeta as bs
    (mod (a + t) q :: rest.1, mod (a - t) q :: rest.2)
  | _, _ => ([], [])

/-- The inverse butterflies of one block (rule R133): with t = r[j], a pair becomes (mod(t + r[j+len]), mod(zeta · (r[j+len] − t))). -/
def invBlock (q zeta : Int) : List Int → List Int → List Int × List Int
  | a :: as, b :: bs =>
    let rest := invBlock q zeta as bs
    (mod (a + b) q :: rest.1, mod (zeta * (b - a)) q :: rest.2)
  | _, _ => ([], [])

/-- One forward layer of width `len`: `n` blocks, ascending, the first with zeta index k, the index growing by one a block. -/
def fwdLayer (q : Int) (zeta : Nat → Int) (len : Nat) : Nat → Nat → List Int → List Int
  | 0, _, r => r
  | n + 1, k, r =>
    let p := fwdBlock q (zeta k) (r.take len) ((r.drop len).take len)
    p.1 ++ p.2 ++ fwdLayer q zeta len n (k + 1) (r.drop (2 * len))

/-- One inverse layer of width `len`: `n` blocks, ascending, the first with zeta index k, the index falling by one a block. -/
def invLayer (q : Int) (zeta : Nat → Int) (len : Nat) : Nat → Nat → List Int → List Int
  | 0, _, r => r
  | n + 1, k, r =>
    let p := invBlock q (zeta k) (r.take len) ((r.drop len).take len)
    p.1 ++ p.2 ++ invLayer q zeta len n (k - 1) (r.drop (2 * len))

/-- The number of blocks of a layer, 128 / len (rule R130). -/
def blocksOf (len : Nat) : Nat := 128 / len

/-- The forward layers of the widths given, the first from zeta index k on. -/
def fwdLayers (q : Int) (zeta : Nat → Int) : List Nat → Nat → List Int → List Int
  | [], _, r => r
  | len :: rest, k, r => fwdLayers q zeta rest (k + blocksOf len) (fwdLayer q zeta len (blocksOf len) k r)

/-- The inverse layers of the widths given, the first from zeta index k on. -/
def invLayers (q : Int) (zeta : Nat → Int) : List Nat → Nat → List Int → List Int
  | [], _, r => r
  | len :: rest, k, r => invLayers q zeta rest (k - blocksOf len) (invLayer q zeta len (blocksOf len) k r)

/-- The layer widths of the forward transform, len = 128, 64, ... with len > LB, where LB is 1 for the incomplete variant and 0 for the
complete one (rule R130). -/
def layerWidths (inc : Bool) : List Nat :=
  if inc then [128, 64, 32, 16, 8, 4, 2] else [128, 64, 32, 16, 8, 4, 2, 1]

/-- The zeta index the inverse transform starts at, the last one the forward transform consumed (rules R133, R135). -/
def invStart (inc : Bool) : Nat := if inc then 127 else 255

/-- The forward transform of a working copy (rule R131). -/
def nttFwd (q : Int) (zeta : Nat → Int) (inc : Bool) (r : List Int) : List Int :=
  fwdLayers q zeta (layerWidths inc) 1 r

/-- The inverse transform of a working copy: the same widths in the opposite order, then the pass that scales by F
(rules R133, R134). -/
def nttInv (q f : Int) (zeta : Nat → Int) (inc : Bool) (r : List Int) : List Int :=
  (invLayers q zeta (layerWidths inc).reverse (invStart inc) r).map fun c => mod (f * c) q

/-- Rule R131. -/
def nttFwdResult (pb : Nat) (s : State) : Except FaultCode State :=
  if s.zvalid then
    .ok (s.setPoly (writeBank s.poly pb (nttFwd s.modulus (zetaAt s.zeta) s.inc (readBank s.poly pb))))
  else .error .notReady

/-- Rule R133. -/
def nttInvResult (pb : Nat) (s : State) : Except FaultCode State :=
  if s.zvalid then
    .ok (s.setPoly (writeBank s.poly pb (nttInv s.modulus (uval s.f) (zetaAt s.zeta) s.inc (readBank s.poly pb))))
  else .error .notReady

/-- NTT.FWD pb. -/
def execNttFwd (pb : Nat) (s : State) : Host.Outcome State Fault Refusal := finish (.nttFwd pb) s (nttFwdResult pb s)

/-- NTT.INV pb. -/
def execNttInv (pb : Nat) (s : State) : Host.Outcome State Fault Refusal := finish (.nttInv pb) s (nttInvResult pb s)

end Sys2Proof.Machine
end

