-- ==== Sys2Proof/Machine/System.lean ====
section
/-! DEFINITION. The housekeeping commands NOP and CLRERR (47_system.md). -/

namespace Sys2Proof.Machine

/-- NOP (rule R210): nothing, and STATUS.ERR <- 0 as every successful command. -/
def execNop (s : State) : Host.Outcome State Fault Refusal := finish .nop s (.ok s)

/-- CLRERR (rule R211): STATUS.STICKY <- 0. ECMD is left as it is. -/
def execClrerr (s : State) : Host.Outcome State Fault Refusal := finish .clrerr s (.ok (s.setSticky false))

end Sys2Proof.Machine
end

