-- ==== Sys2Proof/Machine/Zeta.lean ====
section
/-! DEFINITION. Bit reversal and the zeta table generator ZGEN (42_zeta_table.md). -/

namespace Sys2Proof.Machine

/-- Bit k of i. -/
def bitOf (i k : Nat) : Nat := (i / 2 ^ k) % 2

/-- `bitrev(i, w)` of rule R120: the sum over k in 0 .. w−1 of i[k] · 2^(w−1−k). Bits of i at or above w do not enter, which is
rule R121. -/
def bitrev (i w : Nat) : Nat := ((List.range w).map fun k => bitOf i k * 2 ^ (w - 1 - k)).sum

/-- The value ZGEN writes to ZETA[i]: mod(ROOT^bitrev(i, BRV), Q), of the exact power (rules R122, R123). -/
def zetaValue (root brv : Nat) (q : Int) (i : Nat) : Int := mod ((root ^ bitrev i brv : Nat) : Int) q

/-- The NDEG elements ZGEN writes (rule R122). -/
def zetaTable (root brv : Nat) (q : Int) : List Word :=
  (List.range ndeg).map fun i => BitVec.ofInt 32 (zetaValue root brv q i)

/-- Rule R122. -/
def zgenResult (s : State) : Except FaultCode State :=
  if QLegal s then
    if BrvLegal s then
      .ok ((s.setZeta (Memory.writeRange s.zeta 0 (zetaTable s.root.toNat s.brv.toNat s.modulus))).setZvalid true)
    else .error .badParam
  else .error .badParam

/-- ZGEN. -/
def execZgen (s : State) : Host.Outcome State Fault Refusal := finish .zgen s (zgenResult s)

end Sys2Proof.Machine
end

