-- ==== Sys2Proof/Machine/Dispatch.lean ====
section
/-! DEFINITION. One arm for each command (rule R88). -/

namespace Sys2Proof.Machine

def exec (i : Instr) (s : State) : Host.Outcome State Fault Refusal :=
  match i with
  | .nop => Sys2Proof.Machine.execNop s
  | .clrerr => Sys2Proof.Machine.execClrerr s
  | .mod => Sys2Proof.Machine.execMod s
  | .modM => Sys2Proof.Machine.execModM s
  | .smod => Sys2Proof.Machine.execSmod s
  | .smodM => Sys2Proof.Machine.execSmodM s
  | .zgen => Sys2Proof.Machine.execZgen s
  | .nttFwd pb => Sys2Proof.Machine.execNttFwd pb s
  | .nttInv pb => Sys2Proof.Machine.execNttInv pb s
  | .clen h => Sys2Proof.Machine.execClen h s
  | .enc h pb vlen => Sys2Proof.Machine.execEnc h pb vlen s
  | .dec h pb => Sys2Proof.Machine.execDec h pb s
  | .cmpb => Sys2Proof.Machine.execCmpb s

end Sys2Proof.Machine
end

