-- ==== Sys2Proof/Machine/HostPort.lean ====
section
/-! DEFINITION. The host's accesses to the five spaces (rules R40, R60 to R64), less the command issue. `none` is an access outside the
interface, which the step refuses (rule R64). -/

namespace Sys2Proof.Machine

/-- The thirteen registers of rule R40. -/
inductive Reg where
  | q | f | root | ctrl | ndeg | status | ecmd | cmd | x0 | x1 | x2 | x3 | res
  deriving DecidableEq, Repr

/-- The register of a register number (rule R40): a number not in the table is no register. -/
def regOfNumber : Nat → Option Reg
  | 0x00 => some .q
  | 0x01 => some .f
  | 0x02 => some .root
  | 0x03 => some .ctrl
  | 0x04 => some .ndeg
  | 0x08 => some .status
  | 0x09 => some .ecmd
  | 0x0C => some .cmd
  | 0x10 => some .x0
  | 0x11 => some .x1
  | 0x12 => some .x2
  | 0x13 => some .x3
  | 0x18 => some .res
  | _ => none

/-- A 64-bit signed register, or a 32-bit unsigned one (rule R40)? -/
def Reg.isLong : Reg → Bool
  | .x0 | .x1 | .x2 | .x3 | .res => true
  | _ => false

/-- A value that fits an unsigned element of `n` bits (rule R61). -/
abbrev FitsU (n : Nat) (v : Int) : Prop := 0 ≤ v ∧ v < 2 ^ n

/-- A value that fits a two's-complement element of `n + 1` bits (rule R61). -/
abbrev FitsS (n : Nat) (v : Int) : Prop := -(2 ^ n) ≤ v ∧ v < 2 ^ n

/-- Does a value fit the register (rules R40, R61)? -/
abbrev FitsReg (r : Reg) (v : Int) : Prop := if r.isLong = true then FitsS 63 v else FitsU 32 v

/-- What the host reads from a register (rule R40). -/
def readReg (s : State) : Reg → Int
  | .q => uval s.q
  | .f => uval s.f
  | .root => uval s.root
  | .ctrl => uval s.ctrl
  | .ndeg => (Sys2Proof.ndeg : Nat)
  | .status => uval s.status
  | .ecmd => uval s.ecmd
  | .cmd => 0
  | .x0 => s.x0.toInt
  | .x1 => s.x1.toInt
  | .x2 => s.x2.toInt
  | .x3 => s.x3.toInt
  | .res => s.res.toInt

/-- What the host's write of a fitting value to a register other than CMD does (rules R40, R43): Q, ROOT and CTRL clear ZVALID, a write
to a read-only register is ignored. -/
def writeReg (s : State) (r : Reg) (v : Int) : State :=
  match r with
  | .q => (s.setQ (BitVec.ofInt 32 v)).setZvalid false
  | .f => s.setF (BitVec.ofInt 32 v)
  | .root => (s.setRoot (BitVec.ofInt 32 v)).setZvalid false
  | .ctrl => (s.setCtrl (ctrlInc v.toNat) (ctrlBrv v.toNat)).setZvalid false
  | .x0 => s.setX0 (BitVec.ofInt 64 v)
  | .x1 => s.setX1 (BitVec.ofInt 64 v)
  | .x2 => s.setX2 (BitVec.ofInt 64 v)
  | .x3 => s.setX3 (BitVec.ofInt 64 v)
  | .ndeg | .status | .ecmd | .cmd | .res => s

/-- The indices a space has (rules R60, R64). -/
def Target.inSpace : Target → Bool
  | .reg n => (regOfNumber n).isSome
  | .zeta i => decide (i < ndeg)
  | .poly b i => decide (b < npolyMax) && decide (i < ndeg)
  | .bytes o => decide (o < bytesSz)
  | .desc h k => decide (h < ncoder) && decide (k < descWords)

/-- `HostRead(S, idx)` of rule R61. -/
def hostRead (s : State) (t : Target) : Option Int :=
  if t.inSpace then
    match t with
    | .reg n => (regOfNumber n).map (readReg s)
    | .zeta i => some (uval (Memory.read s.zeta i))
    | .poly b i => some (Memory.read s.poly (polyIndex b i)).toInt
    | .bytes o => some (uval (Memory.read s.bytes o))
    | .desc h k => some (uval (Memory.read s.desc (descIndex h k)))
  else none

/-- Does a value fit the element (rule R61)? -/
def Target.fits (t : Target) (v : Int) : Bool :=
  match t with
  | .reg n =>
    match regOfNumber n with
    | some r => decide (FitsReg r v)
    | none => false
  | .zeta _ => decide (FitsU 32 v)
  | .poly _ _ => decide (FitsS 31 v)
  | .bytes _ => decide (FitsU 8 v)
  | .desc _ _ => decide (FitsU 32 v)

/-- `HostWrite(S, idx, v)` of rule R61 for an element of a space and a value that fits it. ZETA is read-only to the host, a write to it
is ignored (rules R32, R60). -/
def hostWrite (s : State) (t : Target) (v : Int) : State :=
  match t with
  | .reg n =>
    match regOfNumber n with
    | some r => writeReg s r v
    | none => s
  | .zeta _ => s
  | .poly b i => s.setPoly (Memory.write s.poly (polyIndex b i) (BitVec.ofInt 32 v))
  | .bytes o => s.setBytes (Memory.write s.bytes o (BitVec.ofInt 8 v))
  | .desc h k => s.setDesc (Memory.write s.desc (descIndex h k) (BitVec.ofInt 32 v))

end Sys2Proof.Machine
end

