-- ==== Sys2Proof/Machine/Events.lean ====
section
/-! DEFINITION. One event of the environment: a host read, a host write, a command issue, a reset (rules R29, R61, R70, R251). -/

namespace Sys2Proof.Machine

/-- The register number of CMD (rules R29, R40). -/
@[simp] abbrev cmdNumber : Nat := 0x0C

/-- The execution of a command word, atomically and to completion (rules R29, R70, R82): an illegal word is a faulting command with code
BAD_CMD. -/
def issue (w : Word) (s : State) : Host.Outcome State Fault Refusal :=
  match decode w with
  | .ok i => exec i s
  | .error _ => .next (s.raiseFault .badCmd w)

/-- Reset (rules R41, R250, R251): the whole machine becomes `State.reset`. What the environment does next is no part of the machine. -/
def State.afterReset (s : State) : State := (State.reset.setPending s.pending).setReadValue s.readValue

/-- The effect of one event. An access outside the interface is refused (rule R64). -/
def perform (e : HostEvent) (s : State) : Host.Outcome State Fault Refusal :=
  match e with
  | .read t =>
    match hostRead s t with
    | some v => .next (s.setReadValue (some v))
    | none => .refused .outsideSpace
  | .write t v =>
    if t.inSpace then
      if t.fits v then
        if t = .reg cmdNumber then issue (BitVec.ofInt 32 v) s else .next (hostWrite s t v)
      else .refused .valueDoesNotFit
    else .refused .outsideSpace
  | .reset => .next s.afterReset

end Sys2Proof.Machine
end

