-- ==== Sys2Proof/Machine/Step.lean ====
section
/-! DEFINITION. One step: the next event of the one total order of rule R70. PQC-CORE has no program counter and fetches nothing
(rule R21): the commands it executes are the values the host writes to CMD, in the order of the writes. -/

namespace Sys2Proof.Machine

/-- One step takes the first pending event. With none pending the block is idle and holds its state (rule R246). -/
def step (s : State) : Host.Outcome State Fault Refusal :=
  match s.pending with
  | [] => .next s
  | e :: rest => perform e (s.setPending rest)

/-- `s` with the command word of a table row put before the pending events as the host's next write to CMD, so that the next step runs
exactly that command. -/
def State.withFetchWord (s : State) (nbits w : Nat) : State :=
  s.setPending (.write (.reg cmdNumber) ((w % 2 ^ nbits % 2 ^ 32 : Nat) : Int) :: s.pending)

end Sys2Proof.Machine
end

