-- ==== Sys2Proof/Safety.lean ====
section
/-! DEFINITION. What a sound state of PQC-CORE is, and the notions the claims are stated in, each written from the spec's words and apart
from the meanings: the end of a command, the in-place loops of the transforms, the values a coder can carry. -/

namespace Sys2Proof.Machine

/-- Every memory is in its canonical form, within the size of its space (rules R32 to R35, R60). -/
def MemoriesCanonical (s : State) : Prop :=
  Memory.wf 256 s.zeta ∧ Memory.wf 8192 s.poly ∧ Memory.wf 8192 s.bytes ∧ Memory.wf 144 s.desc

/-- SCRATCH, BITACC and the NTT engine's transients are zero whenever no command is executing (rules R36, R37, R184). -/
def TransientsZero (s : State) : Prop :=
  s.scratch = [] ∧ s.bitAcc = ⟨0, 0⟩ ∧ s.nttTmp = ⟨0, 0, 0⟩

/-- Q is in its legal range (rule R22), spelled out. -/
abbrev ModulusLegal (s : State) : Prop := 1 ≤ s.q.toNat ∧ s.q.toNat ≤ 2147483647

/-- Rule R39: what ZVALID = 1 says. -/
def TableValid (s : State) : Prop :=
  s.zvalid = true →
    ModulusLegal s ∧ (s.brv.toNat = 7 ∨ s.brv.toNat = 8) ∧
    ∀ i, i < 256 → uval (Memory.read s.zeta i) = ((s.root.toNat ^ bitrev i s.brv.toNat : Nat) : Int) % uval s.q

/-- STATUS.ERR holds 0 or a code the hardware raises (rules R222, R223). -/
def ErrLegal (s : State) : Prop :=
  s.err = 0 ∨ s.err = 1 ∨ s.err = 4 ∨ s.err = 5 ∨ s.err = 6 ∨ s.err = 7 ∨ s.err = 8

/-- A code in ERR implies STICKY, and STICKY implies that ECMD holds the word of a faulting command, which is never the word 0
(rules R27, R28, R210, R225, R226). -/
def FaultRecorded (s : State) : Prop :=
  (s.err ≠ 0 → s.sticky = true) ∧ (s.sticky = true → s.ecmd ≠ 0)

/-- The end of a successful command whose own writes give `s` (rule R225): ERR is 0 and the transients are zero (rule R261). -/
def afterSuccess (s : State) : State :=
  { s with err := 0, scratch := [], bitAcc := ⟨0, 0⟩, nttTmp := ⟨0, 0, 0⟩ }

/-- The end of a faulting command with word `w` from state `s` (rule R226). -/
def afterFault (s : State) (code : BitVec 8) (w : Word) : State :=
  { s with err := code, sticky := true, ecmd := w, scratch := [], bitAcc := ⟨0, 0⟩, nttTmp := ⟨0, 0, 0⟩ }

/-- Coefficient i of bank b, as the signed value the host reads (rule R33). -/
def coef (s : State) (b i : Nat) : Int := (Memory.read s.poly (256 * b + i)).toInt

/-- Byte o of BYTES (rule R34). -/
def byteAt (s : State) (o : Nat) : Byte := Memory.read s.bytes o

/-- The codes each command can raise, the table of rule R224 (LEN_MISMATCH 1, BAD_CMD 4, BAD_PARAM 5, BAD_DESC 6, BAD_RANGE 7,
NOT_READY 8). BAD_CMD belongs to the word, before it is a command. -/
def allowedCodes : Instr → List Nat
  | .nop | .clrerr => []
  | .mod | .modM | .smod | .smodM | .zgen => [5]
  | .nttFwd _ | .nttInv _ => [8]
  | .clen _ => [6]
  | .enc _ _ _ | .dec _ _ => [1, 5, 6, 7]
  | .cmpb => [7]

/-- One butterfly of the pseudocode of rule R131 on the working copy r, as its three assignments. -/
def loopFwdButterfly (q zeta : Int) (len j : Nat) (r : List Int) : List Int :=
  let t := mod (zeta * r.getD (j + len) 0) q
  let r1 := r.set (j + len) (mod (r.getD j 0 - t) q)
  r1.set j (mod (r1.getD j 0 + t) q)

/-- One butterfly of the pseudocode of rule R133, as its three assignments. -/
def loopInvButterfly (q zeta : Int) (len j : Nat) (r : List Int) : List Int :=
  let t := r.getD j 0
  let r1 := r.set j (mod (t + r.getD (j + len) 0) q)
  r1.set (j + len) (mod (zeta * (r1.getD (j + len) 0 - t)) q)

/-- `for j in start .. start + len − 1`, with a butterfly. -/
def loopBlock (butterfly : Nat → List Int → List Int) (start len : Nat) (r : List Int) : List Int :=
  (List.range len).foldl (fun r d => butterfly (start + d) r) r

/-- `while len > LB` of rule R131: for each start 0, 2·len, 4·len, ... below 256 one zeta value, k counted up; then len <- len >> 1.
`fuel` bounds the number of layers. -/
def loopFwd (q : Int) (zeta : Nat → Int) (lb : Nat) : Nat → Nat → Nat → List Int → List Int
  | 0, _, _, r => r
  | fuel + 1, len, k, r =>
    if len > lb then
      let kr := (List.range (128 / len)).foldl
        (fun kr s => (kr.1 + 1, loopBlock (loopFwdButterfly q (zeta kr.1) len) (2 * len * s) len kr.2)) (k, r)
      loopFwd q zeta lb fuel (len / 2) kr.1 kr.2
    else r

/-- `while len <= 128` of rule R133: for each start one zeta value, k counted down; then len <- len << 1. -/
def loopInv (q : Int) (zeta : Nat → Int) : Nat → Nat → Nat → List Int → List Int
  | 0, _, _, r => r
  | fuel + 1, len, k, r =>
    if len ≤ 128 then
      let kr := (List.range (128 / len)).foldl
        (fun kr s => (kr.1 - 1, loopBlock (loopInvButterfly q (zeta kr.1) len) (2 * len * s) len kr.2)) (k, r)
      loopInv q zeta fuel (2 * len) kr.1 kr.2
    else r

/-- The condition of rule R138 (i) on the table: ZETA[B + s] · ZETA[2B − 1 − s] ≡ −1 (mod Q) for every B = 2^e of a layer. -/
def TablePairs (s : State) : Prop :=
  ∀ e, e < (if s.inc then 7 else 8) → ∀ j, j < 2 ^ e →
    (uval (Memory.read s.zeta (2 ^ e + j)) * uval (Memory.read s.zeta (2 * 2 ^ e - 1 - j)) + 1) % uval s.q = 0

/-- The condition of rule R138 (ii): F · 2^L ≡ 1 (mod Q), with L the number of layers. -/
def ScaleInverse (s : State) : Prop :=
  (uval s.f * 2 ^ (if s.inc then 7 else 8 : Nat) - 1) % uval s.q = 0

/-- The valid domain of a coefficient map (rule R154). -/
def CoefInDomain (d : Nat) (cm : CMode) (q x : Int) : Prop :=
  match cm with
  | .ident => 0 ≤ x ∧ x < 2 ^ d
  | .centered => 1 ≤ q ∧ q ≤ 2 ^ d ∧ -q < 2 * x ∧ 2 * x ≤ q

mutual

/-- Every leaf's polynomial, in leaf order, has 256 coefficients in the leaf's valid domain (rules R153, R185). -/
def Coder.InDomain (q : Int) : Coder → List (List Int) → Prop
  | .bits d cm, polys => (polys.headD []).length = 256 ∧ ∀ x ∈ polys.headD [], CoefInDomain d cm q x
  | .split es, polys => es.InDomain q polys
  | .vec e cnt, polys => ∀ i, i < cnt → e.InDomain q ((polys.drop (i * e.npoly)).take e.npoly)

def Entries.InDomain (q : Int) : Entries → List (List Int) → Prop
  | .nil, _ => True
  | .raw _ es, polys => es.InDomain q polys
  | .nested c es, polys => c.InDomain q (polys.take c.npoly) ∧ es.InDomain q (polys.drop c.npoly)

end

mutual

/-- A tree of the shape of rule R150, each subtree of at most BYTES_SZ bytes (rule R156). -/
def Coder.Legal : Coder → Prop
  | .bits d _ => 1 ≤ d ∧ d ≤ 31
  | .split es => es.Legal ∧ es.count ≤ 8 ∧ es.blen ≤ 8192
  | .vec e cnt => e.Legal ∧ cnt ≤ 255 ∧ cnt * e.blen ≤ 8192

def Entries.Legal : Entries → Prop
  | .nil => True
  | .raw n es => n ≤ 65535 ∧ es.Legal
  | .nested c es => c.Legal ∧ es.Legal

/-- The number of entries. -/
def Entries.count : Entries → Nat
  | .nil => 0
  | .raw _ es => es.count + 1
  | .nested _ es => es.count + 1

end

/-- One entry of a SplitCoder (rule R150): RAW(n) or NESTED(c). -/
inductive Entry where
  | raw (n : Nat)
  | nested (c : Coder)

/-- The entries of a SplitCoder as a list, in order. -/
def Entries.toList : Entries → List Entry
  | .nil => []
  | .raw n es => .raw n :: es.toList
  | .nested c es => .nested c :: es.toList

/-- len(e_j) of rule R176: the bytes of an entry's slice. -/
def Entry.len : Entry → Nat
  | .raw n => n
  | .nested c => c.blen

/-- The polynomials an entry consumes (rule R152). -/
def Entry.npoly : Entry → Nat
  | .raw _ => 0
  | .nested c => c.npoly

/-- The raw bytes an entry consumes (rule R152). -/
def Entry.nraw : Entry → Nat
  | .raw n => n
  | .nested c => c.nraw

/-- The slice of an entry in the output, for exactly the polynomials and raw bytes it consumes (rule R176): raw bytes are passed through. -/
def Entry.encoded (q : Int) : Entry → List (List Int) → List Byte → List Byte
  | .raw _, _, raws => raws
  | .nested c, polys, raws => (c.enc q polys raws).1

/-- What an entry decodes from its slice of the input (rule R177): raw bytes are passed through. -/
def Entry.decoded (q : Int) : Entry → List Byte → List (List Int) × List Byte
  | .raw _, bs => ([], bs)
  | .nested c, bs => c.dec q bs

/-- The sum of a size over the entries before entry j: where the part of entry j starts (rule R176). -/
def Entries.before (size : Entry → Nat) (es : Entries) (j : Nat) : Nat := ((es.toList.take j).map size).sum

/-- `l[off : off + n]` of rule R9. -/
def slice {α : Type} (l : List α) (off n : Nat) : List α := (l.drop off).take n

/-- "c contains a BITS(_, CENTERED) leaf" (rule R157). The count of a VEC does not matter: a leaf inside a VEC of count 0 counts. -/
inductive HasCenteredLeaf : Coder → Prop where
  | leaf (d : Nat) : HasCenteredLeaf (.bits d .centered)
  | entry {es : Entries} {c : Coder} : Entry.nested c ∈ es.toList → HasCenteredLeaf c → HasCenteredLeaf (.split es)
  | element {e : Coder} (count : Nat) : HasCenteredLeaf e → HasCenteredLeaf (.vec e count)

/-- The VLEN an ENC word must carry (rules R157, R183): the count of a top-level VEC, 0 for any other coder. -/
def RequiredVlen (c : Coder) (vlen : Nat) : Prop :=
  match c with
  | .bits _ _ => vlen = 0
  | .split _ => vlen = 0
  | .vec _ cnt => vlen = cnt

/-- `range_ok(base, n)` of rule R68, spelled out. -/
abbrev InBytes (base n : Int) : Prop := 0 ≤ n ∧ 0 ≤ base ∧ base + n ≤ 8192

/-- `overlap((b1, n1), (b2, n2))` of rule R68, spelled out. -/
abbrev RangesMeet (b1 n1 b2 n2 : Int) : Prop := n1 > 0 ∧ n2 > 0 ∧ b1 < b2 + n2 ∧ b2 < b1 + n1

/-- The packed string of rule R159 as one integer: the sum of u_i · 2^(i·d), for the groups in order. -/
def packed (d : Nat) (us : List Nat) : Nat := ((List.range us.length).map fun i => us.getD i 0 * 2 ^ (i * d)).sum

end Sys2Proof.Machine
end

