-- ==== Sys2Proof/Certificates/Slice0/Obligations.lean ====
section
/-! DEFINITION. The statements for the provers. `afterSuccess` and `afterFault` (Safety.lean) spell out rules R225 and R226 field by field:
an equation `exec i s = .next (afterSuccess { s with … })` states the result, the completion and the whole frame at once. -/

open Sys2Proof Sys2Proof.Machine

/-! ### Encoding -/

/-- Rules R80, R81, R88: no bit of an encoding is dropped. -/
def Obligations.DecodeOfEncodeIsTheCommand : Prop :=
  ∀ i : Instr, i.wellFormed = true → decode (encode i) = .ok i

/-- Rules R80, R82: a word that decodes is the one word of its command, so that ECMD can be computed from the command. -/
def Obligations.EncodeOfDecodeIsTheWord : Prop :=
  ∀ (w : Word) (i : Instr), decode w = .ok i → i.wellFormed = true ∧ encode i = w

/-- Rule R88: a word is a command of a row iff it agrees with the row's match under the row's mask. -/
def Obligations.DecodeFollowsMatchAndMask : Prop :=
  ∀ (w : Word) (row : OpcodeRow), row ∈ opcodeTable →
    ((∃ i, decode w = .ok i ∧ i.mnemonic = row.mnemonic) ↔ w &&& row.mask = row.matchWord)

/-- Rules R82, R89: every word no row matches executes as a faulting command with code BAD_CMD (4): a word with none of the thirteen
opcodes, a word with a reserved bit set, a DEC word with VLEN ≠ 0. An ENC word is legal with any VLEN. -/
def Obligations.IllegalWordFaultsWithBadCmd : Prop :=
  ∀ (w : Word) (s : State),
    ((∀ row ∈ opcodeTable, w &&& row.mask ≠ row.matchWord) → issue w s = .next (afterFault s 4 w)) ∧
    (w.toNat / 2 ^ 24 ∉ [0x00, 0x01, 0x10, 0x11, 0x12, 0x13, 0x20, 0x30, 0x31, 0x40, 0x41, 0x42, 0x50] →
      issue w s = .next (afterFault s 4 w)) ∧
    (w.toNat / 2 ^ 24 = 0x42 → w.toNat / 2 ^ 9 % 2 ^ 8 ≠ 0 → issue w s = .next (afterFault s 4 w)) ∧
    (w &&& 0xFFFE0000 = 0x41000000 → ∃ h pb vlen, decode w = .ok (.enc h pb vlen) ∧ vlen = w.toNat / 2 ^ 9 % 2 ^ 8)

/-- Words written out from the encodings of rules R80 and R88, with their commands. -/
def Obligations.SampleWordsDecode : Prop :=
  decode 0x00000000 = .ok .nop ∧ decode 0x13000000 = .ok .smodM ∧ decode 0x20000000 = .ok .zgen ∧
  decode 0x3000001F = .ok (.nttFwd 31) ∧ decode 0x4000000F = .ok (.clen 15) ∧
  decode 0x4101FFFF = .ok (.enc 15 31 255) ∧ decode 0x420001F1 = .ok (.dec 1 31) ∧ decode 0x50000000 = .ok .cmpb ∧
  decode 0x42000212 = .error .reservedBit ∧ decode 0x02000000 = .error .unassignedOpcode

/-! ### Steps and host events -/

/-- Rules R21, R29, R70: when the next event is the host's write of a command word that decodes to `i`, the step is exec of `i` on the
state with that event taken away, and nothing else. With no event pending the block holds its state (rule R246). -/
def Obligations.StepRunsTheDecodedCommand : Prop :=
  (∀ (s : State) (w : Word) (i : Instr) (rest : List HostEvent),
    s.pending = .write (.reg 0x0C) (w.toNat : Int) :: rest → decode w = .ok i →
    step s = exec i { s with pending := rest }) ∧
  (∀ s : State, s.pending = [] → step s = .next s)

/-- Rules R27 to R29, R31, R32, R40, R62: a host read of an element of a space hands over the element's value and changes nothing else; the
value of every register and of every memory element. -/
def Obligations.HostReadHasNoSideEffect : Prop :=
  ∀ (s : State) (t : Target) (rest : List HostEvent), s.pending = .read t :: rest → t.inSpace = true →
    ∃ v : Int, hostRead s t = some v ∧ step s = .next { s with pending := rest, readValue := some v } ∧
      (t = .reg 0x00 → v = s.q.toNat) ∧ (t = .reg 0x01 → v = s.f.toNat) ∧ (t = .reg 0x02 → v = s.root.toNat) ∧
      (t = .reg 0x03 → v = (if s.inc then 1 else 0) + 16 * s.brv.toNat) ∧ (t = .reg 0x04 → v = 256) ∧
      (t = .reg 0x08 → v = s.err.toNat + (if s.sticky then 256 else 0) + (if s.zvalid then 512 else 0)) ∧
      (t = .reg 0x09 → v = s.ecmd.toNat) ∧ (t = .reg 0x0C → v = 0) ∧
      (t = .reg 0x10 → v = s.x0.toInt) ∧ (t = .reg 0x11 → v = s.x1.toInt) ∧ (t = .reg 0x12 → v = s.x2.toInt) ∧
      (t = .reg 0x13 → v = s.x3.toInt) ∧ (t = .reg 0x18 → v = s.res.toInt) ∧
      (∀ i, t = .zeta i → v = (Memory.read s.zeta i).toNat) ∧
      (∀ b i, t = .poly b i → v = (Memory.read s.poly (256 * b + i)).toInt) ∧
      (∀ o, t = .bytes o → v = (Memory.read s.bytes o).toNat) ∧
      (∀ h k, t = .desc h k → v = (Memory.read s.desc (9 * h + k)).toNat)

/-- Rules R40, R61, R64: an access with an index outside its space, or a write of a value that does not fit, is refused; and which accesses
those are. The names of the two refusals, and that the index is tested before the value, are the model's (log entry 3, DEDUCED). -/
def Obligations.AccessOutsideTheInterfaceIsRefused : Prop :=
  (∀ (s : State) (t : Target) (v : Int) (rest : List HostEvent),
    (s.pending = .read t :: rest → t.inSpace = false → step s = .refused .outsideSpace) ∧
    (s.pending = .write t v :: rest → t.inSpace = false → step s = .refused .outsideSpace) ∧
    (s.pending = .write t v :: rest → t.inSpace = true → t.fits v = false → step s = .refused .valueDoesNotFit)) ∧
  (∀ n b i o h k : Nat,
    ((Target.reg n).inSpace = true ↔
      n ∈ [0x00, 0x01, 0x02, 0x03, 0x04, 0x08, 0x09, 0x0C, 0x10, 0x11, 0x12, 0x13, 0x18]) ∧
    ((Target.zeta i).inSpace = true ↔ i ≤ 255) ∧ ((Target.poly b i).inSpace = true ↔ b ≤ 31 ∧ i ≤ 255) ∧
    ((Target.bytes o).inSpace = true ↔ o ≤ 8191) ∧ ((Target.desc h k).inSpace = true ↔ h ≤ 15 ∧ k ≤ 8)) ∧
  (∀ (v : Int) (n b i o h k : Nat),
    (n ∈ [0x00, 0x01, 0x02, 0x03, 0x04, 0x08, 0x09, 0x0C] → ((Target.reg n).fits v = true ↔ 0 ≤ v ∧ v < 2 ^ 32)) ∧
    (n ∈ [0x10, 0x11, 0x12, 0x13, 0x18] → ((Target.reg n).fits v = true ↔ -(2 ^ 63) ≤ v ∧ v < 2 ^ 63)) ∧
    ((Target.zeta i).fits v = true ↔ 0 ≤ v ∧ v < 2 ^ 32) ∧
    ((Target.poly b i).fits v = true ↔ -(2 ^ 31) ≤ v ∧ v < 2 ^ 31) ∧
    ((Target.bytes o).fits v = true ↔ 0 ≤ v ∧ v < 2 ^ 8) ∧ ((Target.desc h k).fits v = true ↔ 0 ≤ v ∧ v < 2 ^ 32))

/-- Rules R25, R26, R27, R32, R40, R61, R70: the host's write of a writable element stores the value written there (for CTRL its INC and BRV
bits): the next state reads it, every other element but STATUS reads as before, and a host read that follows hands it over. A write to a
read-only element changes nothing but that the event is over. -/
def Obligations.HostReadSeesTheLatestWrite : Prop :=
  ∀ (s : State) (t : Target) (v : Int) (rest : List HostEvent),
    s.pending = .write t v :: rest → t.inSpace = true → t.fits v = true →
    (t ∈ [Target.reg 0, .reg 1, .reg 2, .reg 0x10, .reg 0x11, .reg 0x12, .reg 0x13] ∨
      (∃ b i, t = .poly b i) ∨ (∃ o, t = .bytes o) ∨ (∃ h k, t = .desc h k) →
        ∃ u, step s = .next u ∧ u.pending = rest ∧ hostRead u t = some v ∧
          (∀ t', t' ≠ t → t' ≠ .reg 8 → hostRead u t' = hostRead s t') ∧
          (∀ rest', rest = .read t :: rest' → step u = .next { u with pending := rest', readValue := some v })) ∧
    (t = .reg 3 → ∃ u, step s = .next u ∧ u.pending = rest ∧ hostRead u t = some (v % 2 + 16 * (v / 16 % 16)) ∧
      ∀ t', t' ≠ t → t' ≠ .reg 8 → hostRead u t' = hostRead s t') ∧
    (t ∈ [Target.reg 4, .reg 8, .reg 9, .reg 0x18] ∨ (∃ i, t = .zeta i) → step s = .next { s with pending := rest })

/-- Rule R43: a host write to Q, ROOT or CTRL clears ZVALID whatever the value, and does not change ZETA; a write to F, to an argument
register or to a memory leaves ZVALID as it was; no host write has another side effect (every other element reads as before, and ERR, STICKY
and ZVALID are the fields of STATUS), except the write to CMD, which executes the word. -/
def Obligations.ConfigurationWriteClearsZvalid : Prop :=
  ∀ (s : State) (t : Target) (v : Int) (rest : List HostEvent),
    s.pending = .write t v :: rest → t.inSpace = true → t.fits v = true →
    (t = .reg 0x0C → step s = issue (BitVec.ofInt 32 v) { s with pending := rest }) ∧
    (t ≠ .reg 0x0C → ∃ u, step s = .next u ∧ u.pending = rest ∧ u.readValue = s.readValue ∧ u.zeta = s.zeta ∧
      u.err = s.err ∧ u.sticky = s.sticky ∧ (TransientsZero s → TransientsZero u) ∧
      (t ∈ [Target.reg 0, .reg 2, .reg 3] → u.zvalid = false) ∧
      (t ∉ [Target.reg 0, .reg 2, .reg 3] → u.zvalid = s.zvalid) ∧
      ∀ t', t' ≠ t → t' ≠ .reg 8 → hostRead u t' = hostRead s t')

/-- Rules R41, R250: reset puts every piece of state to zero, and NDEG reads 256. Until the host has configured the block MOD, SMOD and ZGEN
fault with BAD_PARAM (5), the transforms with NOT_READY (8), the coder commands with BAD_DESC (6). That the model's own fields
`pending` and `readValue` pass through is the model's choice (log entry 11, DESIGN CHOICE). -/
def Obligations.ResetClearsEverything : Prop :=
  ∀ (s : State) (rest : List HostEvent), s.pending = .reset :: rest →
    ∃ u, step s = .next u ∧ u.pending = rest ∧ u.readValue = s.readValue ∧
      u.q = 0 ∧ u.f = 0 ∧ u.root = 0 ∧ u.inc = false ∧ u.brv = 0 ∧ u.err = 0 ∧ u.sticky = false ∧ u.zvalid = false ∧
      u.ecmd = 0 ∧ u.x0 = 0 ∧ u.x1 = 0 ∧ u.x2 = 0 ∧ u.x3 = 0 ∧ u.res = 0 ∧ TransientsZero u ∧
      (∀ a, Memory.read u.zeta a = 0) ∧ (∀ a, Memory.read u.poly a = 0) ∧ (∀ a, Memory.read u.bytes a = 0) ∧
      (∀ a, Memory.read u.desc a = 0) ∧ hostRead u (.reg 4) = some 256 ∧ hostRead u (.reg 8) = some 0 ∧
      (∀ i, i ∈ [Instr.mod, .smod, .zgen] → exec i u = .next (afterFault u 5 (encode i))) ∧
      (∀ pb, exec (.nttFwd pb) u = .next (afterFault u 8 (encode (.nttFwd pb))) ∧
        exec (.nttInv pb) u = .next (afterFault u 8 (encode (.nttInv pb)))) ∧
      (∀ h pb vlen, exec (.clen h) u = .next (afterFault u 6 (encode (.clen h))) ∧
        exec (.enc h pb vlen) u = .next (afterFault u 6 (encode (.enc h pb vlen))) ∧
        exec (.dec h pb) u = .next (afterFault u 6 (encode (.dec h pb))))

/-! ### Faults -/

/-- Rules R10, R220, R224: every command on every state ends in a next state, whose ERR is 0 or a code the table of rule R224 allows that
command. -/
def Obligations.EveryCommandEndsWithAnAllowedCode : Prop :=
  ∀ (i : Instr) (s : State), ∃ t, exec i s = .next t ∧ (t.err = 0 ∨ t.err.toNat ∈ allowedCodes i)

/-- Rule R226: a command word that ends with a code in ERR changes ERR, STICKY and ECMD, which gets the word, and nothing else (the
transients are zero). The same for the command of a word, whose ECMD is its encoding. -/
def Obligations.FaultChangesOnlyStatusAndEcmd : Prop :=
  (∀ (w : Word) (s t : State), issue w s = .next t → t.err ≠ 0 → t = afterFault s t.err w) ∧
  (∀ (i : Instr) (s t : State), exec i s = .next t → t.err ≠ 0 → t = afterFault s t.err (encode i))

/-- Rule R225: a command that does not fault leaves ECMD as it is, and STICKY too, CLRERR excepted, which clears it; ZVALID changes only by
ZGEN. -/
def Obligations.SuccessLeavesStickyAndEcmd : Prop :=
  ∀ (i : Instr) (s t : State), exec i s = .next t → t.err = 0 →
    t.ecmd = s.ecmd ∧ (i ≠ .clrerr → t.sticky = s.sticky) ∧ (i = .clrerr → t.sticky = false) ∧
    (i ≠ .zgen → t.zvalid = s.zvalid) ∧ (i = .zgen → t.zvalid = true)

/-- Rules R27, R28: STICKY is cleared by CLRERR and by reset alone; ECMD changes only to the word of a command that faults, or to 0 by
reset. Over every step, host accesses included. -/
def Obligations.StickyAndEcmdChangeOnlyAsTheRulesSay : Prop :=
  ∀ s t : State, step s = .next t →
    (s.sticky = true → t.sticky = false →
      s.pending.head? = some (.write (.reg 0x0C) 0x01000000) ∨ s.pending.head? = some .reset) ∧
    (t.ecmd ≠ s.ecmd →
      (∃ v, s.pending.head? = some (.write (.reg 0x0C) v) ∧ t.err ≠ 0 ∧ t.ecmd = BitVec.ofInt 32 v) ∨
      (s.pending.head? = some .reset ∧ t.ecmd = 0))

/-- Rules R27, R125: ZVALID is set by ZGEN alone, and cleared by reset and by a host write to Q, ROOT or CTRL alone. Over every step. -/
def Obligations.ZvalidChangesOnlyAsTheRulesSay : Prop :=
  ∀ s t : State, step s = .next t → t.zvalid ≠ s.zvalid →
    (t.zvalid = true ∧ s.pending.head? = some (.write (.reg 0x0C) 0x20000000)) ∨
    (t.zvalid = false ∧ (s.pending.head? = some .reset ∨
      ∃ n v, n ∈ [0, 2, 3] ∧ s.pending.head? = some (.write (.reg n) v)))

/-- Rules R229, R230: a faulting command issued again on the state it left faults the same way and changes nothing more. -/
def Obligations.FaultingCommandFaultsAgain : Prop :=
  ∀ (i : Instr) (s t : State), exec i s = .next t → t.err ≠ 0 → exec i t = .next t

/-- Rules R22 to R25, R30, R35, R40: no command, faulting or not, writes Q, F, ROOT, CTRL, x[0..3] or DESC, nor what the environment does
next. -/
def Obligations.CommandsNeverWriteHostOwnedState : Prop :=
  ∀ (i : Instr) (s t : State), exec i s = .next t →
    t.q = s.q ∧ t.f = s.f ∧ t.root = s.root ∧ t.inc = s.inc ∧ t.brv = s.brv ∧
    t.x0 = s.x0 ∧ t.x1 = s.x1 ∧ t.x2 = s.x2 ∧ t.x3 = s.x3 ∧ t.desc = s.desc ∧
    t.pending = s.pending ∧ t.readValue = s.readValue

/-- Rules R31 to R34, R60: which command writes RES and which memory. -/
def Obligations.OnlyTheNamedCommandsWriteAMemory : Prop :=
  ∀ (i : Instr) (s t : State), exec i s = .next t →
    ((i ∈ [Instr.nop, .clrerr, .zgen] ∨ (∃ b, i = .nttFwd b ∨ i = .nttInv b)) → t.res = s.res) ∧
    (i ≠ .zgen → t.zeta = s.zeta) ∧
    ((¬ ∃ b, i = .nttFwd b ∨ i = .nttInv b) → (¬ ∃ h b, i = .dec h b) → t.poly = s.poly) ∧
    ((¬ ∃ h b v, i = .enc h b v) → (¬ ∃ h b, i = .dec h b) → t.bytes = s.bytes)

/-! ### Invariants -/

/-- Every step keeps every memory in its canonical form, within its space. -/
def Obligations.StepKeepsMemoriesCanonical : Prop :=
  ∀ s t : State, step s = .next t → MemoriesCanonical s → MemoriesCanonical t

/-- Rules R36, R37, R184: the transients are zero at every command boundary. -/
def Obligations.StepKeepsTransientsZero : Prop :=
  ∀ s t : State, step s = .next t → TransientsZero s → TransientsZero t

/-- Rule R39: whenever ZVALID = 1, Q and BRV are legal and ZETA is the table of the present Q, ROOT and BRV. -/
def Obligations.StepKeepsTheTableValid : Prop :=
  ∀ s t : State, step s = .next t → TableValid s → TableValid t

/-- Rules R27, R28, R222, R223: ERR holds 0 or a code the hardware raises, a code implies STICKY, and STICKY implies a faulting word in
ECMD. -/
def Obligations.StepKeepsTheFaultRecord : Prop :=
  ∀ s t : State, step s = .next t → ErrLegal s ∧ FaultRecorded s → ErrLegal t ∧ FaultRecorded t

/-- The state after reset meets every invariant above. -/
def Obligations.ResetMeetsTheInvariants : Prop :=
  MemoriesCanonical State.reset ∧ TransientsZero State.reset ∧ TableValid State.reset ∧ ErrLegal State.reset ∧
  FaultRecorded State.reset

/-! ### Housekeeping -/

/-- Rules R210, R211: NOP changes ERR alone, CLRERR changes STICKY and ERR alone. Both complete on every state. With a reserved bit set
either word is BAD_CMD (4), which sets STICKY. -/
def Obligations.HousekeepingCommandsComplete : Prop :=
  ∀ s : State, exec .nop s = .next (afterSuccess s) ∧
    exec .clrerr s = .next (afterSuccess { s with sticky := false }) ∧
    decode 0x00000000 = .ok .nop ∧ decode 0x01000000 = .ok .clrerr ∧
    (∀ w : Word, w.toNat / 2 ^ 24 = 0x00 → w ≠ 0x00000000 → issue w s = .next (afterFault s 4 w)) ∧
    (∀ w : Word, w.toNat / 2 ^ 24 = 0x01 → w ≠ 0x01000000 → issue w s = .next (afterFault s 4 w))

/-- Rules R27, R210, R211: the STATUS word the host reads after NOP and after CLRERR. -/
def Obligations.StatusWordAfterHousekeeping : Prop :=
  ∀ s t u : State, exec .nop s = .next t → exec .clrerr s = .next u →
    hostRead t (.reg 8) = some ((if s.sticky then 0x100 else 0) + (if s.zvalid then 0x200 else 0)) ∧
    hostRead u (.reg 8) = some (if s.zvalid then 0x200 else 0)

/-! ### Modular arithmetic -/

/-- Rule R110: `mod(a, m)` is the unique r in [0, m) congruent to a, and the truncating computation agrees. -/
def Obligations.ModIsTheCanonicalResidue : Prop :=
  ∀ a m : Int, 1 ≤ m →
    0 ≤ mod a m ∧ mod a m < m ∧ m ∣ a - mod a m ∧
    (∀ r, 0 ≤ r → r < m → m ∣ a - r → r = mod a m) ∧
    mod a m = (if Int.tmod a m < 0 then Int.tmod a m + m else Int.tmod a m) ∧ mod a m = a - m * Int.fdiv a m

/-- Rule R111: `smod(a, m)` is mod(a, m), less m where twice it exceeds m (where it exceeds floor(m / 2)); it is congruent to a and lies in
(−m/2, m/2], and it is the only such value. -/
def Obligations.SmodIsTheCenteredResidue : Prop :=
  ∀ a m : Int, 1 ≤ m →
    smod a m = (if 2 * mod a m > m then mod a m - m else mod a m) ∧ (2 * mod a m > m ↔ mod a m > Int.fdiv m 2) ∧ smod a 1 = 0 ∧
    (m % 2 = 1 → -((m - 1) / 2) ≤ smod a m ∧ smod a m ≤ (m - 1) / 2) ∧
    (m % 2 = 0 → -(m / 2) + 1 ≤ smod a m ∧ smod a m ≤ m / 2) ∧
    m ∣ a - smod a m ∧ -m < 2 * smod a m ∧ 2 * smod a m ≤ m ∧
    (∀ r, -m < 2 * r → 2 * r ≤ m → m ∣ a - r → r = smod a m)

/-- Rule R116: the laws of the two functions. -/
def Obligations.ReductionLaws : Prop :=
  ∀ a b k m : Int, 1 ≤ m →
    (mod a m = a ↔ 0 ≤ a ∧ a < m) ∧ mod (a + k * m) m = mod a m ∧
    mod (mod a m + mod b m) m = mod (a + b) m ∧ mod (mod a m - mod b m) m = mod (a - b) m ∧
    mod (mod a m * mod b m) m = mod (a * b) m ∧ mod (-a) m = (if mod a m = 0 then 0 else m - mod a m) ∧
    (smod a m = a ↔ -m < 2 * a ∧ 2 * a ≤ m) ∧ mod (smod a m) m = mod a m ∧ smod (mod a m) m = smod a m

/-- Rule R112: MOD writes to RES the residue of x[0] in [0, Q), and nothing else; an illegal Q is BAD_PARAM (5), a reserved bit
set in the word is BAD_CMD (4). -/
def Obligations.ModReducesByQ : Prop :=
  ∀ s : State,
    (1 ≤ s.q.toNat ∧ s.q.toNat ≤ 2147483647 →
      ∃ r : Long, exec .mod s = .next (afterSuccess { s with res := r }) ∧
        0 ≤ r.toInt ∧ r.toInt < s.q.toNat ∧ (s.q.toNat : Int) ∣ s.x0.toInt - r.toInt) ∧
    (¬ (1 ≤ s.q.toNat ∧ s.q.toNat ≤ 2147483647) → exec .mod s = .next (afterFault s 5 0x10000000)) ∧
    decode 0x10000000 = .ok .mod ∧
    (∀ w : Word, w.toNat / 2 ^ 24 = 0x10 → w ≠ 0x10000000 → issue w s = .next (afterFault s 4 w))

/-- Rule R113: MOD.M reduces x[0] by x[1]; x[1] ≤ 0 is BAD_PARAM, a reserved bit BAD_CMD. -/
def Obligations.ModMReducesByX1 : Prop :=
  ∀ s : State,
    (0 < s.x1.toInt →
      ∃ r : Long, exec .modM s = .next (afterSuccess { s with res := r }) ∧
        0 ≤ r.toInt ∧ r.toInt < s.x1.toInt ∧ s.x1.toInt ∣ s.x0.toInt - r.toInt) ∧
    (s.x1.toInt ≤ 0 → exec .modM s = .next (afterFault s 5 0x11000000)) ∧
    decode 0x11000000 = .ok .modM ∧
    (∀ w : Word, w.toNat / 2 ^ 24 = 0x11 → w ≠ 0x11000000 → issue w s = .next (afterFault s 4 w))

/-- Rule R114: SMOD writes the representative of x[0] in (−Q/2, Q/2]; an illegal Q is BAD_PARAM, a reserved bit
BAD_CMD. -/
def Obligations.SmodCentersByQ : Prop :=
  ∀ s : State,
    (1 ≤ s.q.toNat ∧ s.q.toNat ≤ 2147483647 →
      ∃ r : Long, exec .smod s = .next (afterSuccess { s with res := r }) ∧
        -(s.q.toNat : Int) < 2 * r.toInt ∧ 2 * r.toInt ≤ s.q.toNat ∧ (s.q.toNat : Int) ∣ s.x0.toInt - r.toInt) ∧
    (¬ (1 ≤ s.q.toNat ∧ s.q.toNat ≤ 2147483647) → exec .smod s = .next (afterFault s 5 0x12000000)) ∧
    decode 0x12000000 = .ok .smod ∧
    (∀ w : Word, w.toNat / 2 ^ 24 = 0x12 → w ≠ 0x12000000 → issue w s = .next (afterFault s 4 w))

/-- Rule R115: SMOD.M centers x[0] by x[1]; x[1] ≤ 0 is BAD_PARAM, a reserved bit BAD_CMD. -/
def Obligations.SmodMCentersByX1 : Prop :=
  ∀ s : State,
    (0 < s.x1.toInt →
      ∃ r : Long, exec .smodM s = .next (afterSuccess { s with res := r }) ∧
        -s.x1.toInt < 2 * r.toInt ∧ 2 * r.toInt ≤ s.x1.toInt ∧ s.x1.toInt ∣ s.x0.toInt - r.toInt) ∧
    (s.x1.toInt ≤ 0 → exec .smodM s = .next (afterFault s 5 0x13000000)) ∧
    decode 0x13000000 = .ok .smodM ∧
    (∀ w : Word, w.toNat / 2 ^ 24 = 0x13 → w ≠ 0x13000000 → issue w s = .next (afterFault s 4 w))

/-! ### The zeta table -/

/-- Rules R120, R121: `bitrev(i, w)` is the sum of the bits k of i at the places w − 1 − k, fits w bits, undoes itself on the low w bits, and
drops the higher bits. -/
def Obligations.BitrevIsTheStandardReversal : Prop :=
  ∀ i w : Nat, 1 ≤ w →
    bitrev i w = ((List.range w).map fun k => (if i.testBit k then 1 else 0) * 2 ^ (w - 1 - k)).sum ∧
    bitrev 0 w = 0 ∧ bitrev 1 w = 2 ^ (w - 1) ∧ bitrev (2 ^ w - 1) w = 2 ^ w - 1 ∧
    bitrev i w < 2 ^ w ∧ (∀ k, k < w → (bitrev i w).testBit (w - 1 - k) = i.testBit k) ∧
    bitrev (bitrev i w) w = i % 2 ^ w ∧ bitrev i w = bitrev (i % 2 ^ w) w

/-- Rule R122: ZGEN with a legal Q and BRV fills all 256 elements of ZETA with mod(ROOT^bitrev(i, BRV), Q), sets ZVALID, and writes nothing
else; otherwise it is BAD_PARAM; a reserved bit is BAD_CMD. -/
def Obligations.ZgenBuildsTheTable : Prop :=
  ∀ s : State,
    (ModulusLegal s → s.brv.toNat = 7 ∨ s.brv.toNat = 8 →
      ∃ z : Memory 32, exec .zgen s = .next (afterSuccess { s with zeta := z, zvalid := true }) ∧
        ∀ i, i < 256 → uval (Memory.read z i) = ((s.root.toNat ^ bitrev i s.brv.toNat : Nat) : Int) % s.q.toNat) ∧
    (¬ (ModulusLegal s ∧ (s.brv.toNat = 7 ∨ s.brv.toNat = 8)) → exec .zgen s = .next (afterFault s 5 0x20000000)) ∧
    decode 0x20000000 = .ok .zgen ∧
    (∀ w : Word, w.toNat / 2 ^ 24 = 0x20 → w ≠ 0x20000000 → issue w s = .next (afterFault s 4 w))

/-- Rule R124: the table lies in [0, Q), for BRV = 7 its upper half repeats its lower half, and where ROOT^(2^BRV) ≡ −1 its entries pair
up to −1. -/
def Obligations.ZgenTableProperties : Prop :=
  ∀ s t : State, exec .zgen s = .next t → t.err = 0 →
    (∀ i, i < 256 → uval (Memory.read t.zeta i) < s.q.toNat) ∧
    (s.brv.toNat = 7 → ∀ j, j < 128 → Memory.read t.zeta (128 + j) = Memory.read t.zeta j) ∧
    (((s.root.toNat ^ 2 ^ s.brv.toNat + 1 : Nat) : Int) % s.q.toNat = 0 →
      ∀ e, e < s.brv.toNat → ∀ j, j < 2 ^ e →
        (uval (Memory.read t.zeta (2 ^ e + j)) * uval (Memory.read t.zeta (2 * 2 ^ e - 1 - j)) + 1) % (s.q.toNat : Int) = 0)

/-! ### The transforms -/

/-- Rules R130, R131, R133: with ZVALID = 1 and a legal Q (rule R39), NTT.FWD and NTT.INV complete, change bank PB of POLY alone, and leave
every coefficient of it in [0, Q). -/
def Obligations.TransformsCompleteOnOneBank : Prop :=
  ∀ (s : State) (pb : Nat) (i : Instr), pb < 32 → i = .nttFwd pb ∨ i = .nttInv pb → s.zvalid = true → ModulusLegal s →
    ∃ p : Memory 32, exec i s = .next (afterSuccess { s with poly := p }) ∧
      (∀ a, a < 256 * pb ∨ 256 * (pb + 1) ≤ a → Memory.read p a = Memory.read s.poly a) ∧
      (∀ j, j < 256 → 0 ≤ (Memory.read p (256 * pb + j)).toInt ∧ (Memory.read p (256 * pb + j)).toInt < s.q.toNat)

/-- Rules R131, R133: with ZVALID = 0 both transforms fault with NOT_READY (8) and change no data. -/
def Obligations.TransformsWithoutTableAreNotReady : Prop :=
  ∀ (s : State) (pb : Nat), pb < 32 → s.zvalid = false →
    exec (.nttFwd pb) s = .next (afterFault s 8 (BitVec.ofNat 32 (0x30000000 + pb))) ∧
    exec (.nttInv pb) s = .next (afterFault s 8 (BitVec.ofNat 32 (0x31000000 + pb)))

/-- Rule R131: bank PB after NTT.FWD is what the in-place loop of the rule's pseudocode makes of it. -/
def Obligations.ForwardTransformIsTheInPlaceLoop : Prop :=
  ∀ (s t : State) (pb : Nat), pb < 32 → s.zvalid = true → ModulusLegal s → exec (.nttFwd pb) s = .next t →
    ∀ j, j < 256 → coef t pb j =
      (loopFwd s.q.toNat (fun k => (Memory.read s.zeta k).toNat) (if s.inc then 1 else 0) 9 128 1
        ((List.range 256).map (coef s pb))).getD j 0

/-- Rules R133, R134: bank PB after NTT.INV is what the in-place loop of the rule's pseudocode makes of it, each coefficient then scaled by
F. -/
def Obligations.InverseTransformIsTheInPlaceLoop : Prop :=
  ∀ (s t : State) (pb : Nat), pb < 32 → s.zvalid = true → ModulusLegal s → exec (.nttInv pb) s = .next t →
    ∀ j, j < 256 → coef t pb j =
      mod (s.f.toNat * (loopInv s.q.toNat (fun k => (Memory.read s.zeta k).toNat) 9 (if s.inc then 2 else 1)
        (if s.inc then 127 else 255) ((List.range 256).map (coef s pb))).getD j 0) s.q.toNat

/-- Rule R138: under its two conditions NTT.FWD then NTT.INV, and NTT.INV then NTT.FWD, leave mod(p[j], Q) for every j, which is p[j] for
every j exactly when every p[j] was in [0, Q). -/
def Obligations.TransformsUndoEachOther : Prop :=
  ∀ (s : State) (pb : Nat), pb < 32 → s.zvalid = true → ModulusLegal s → TablePairs s → ScaleInverse s →
    (∃ t u, exec (.nttFwd pb) s = .next t ∧ exec (.nttInv pb) t = .next u ∧
      (∀ j, j < 256 → coef u pb j = mod (coef s pb j) s.q.toNat) ∧
      ((∀ j, j < 256 → coef u pb j = coef s pb j) ↔ ∀ j, j < 256 → 0 ≤ coef s pb j ∧ coef s pb j < s.q.toNat)) ∧
    (∃ t u, exec (.nttInv pb) s = .next t ∧ exec (.nttFwd pb) t = .next u ∧
      (∀ j, j < 256 → coef u pb j = mod (coef s pb j) s.q.toNat) ∧
      ((∀ j, j < 256 → coef u pb j = coef s pb j) ↔ ∀ j, j < 256 → 0 ≤ coef s pb j ∧ coef s pb j < s.q.toNat))

/-- Rule R141: what NTT.FWD computes with a table of powers of a ROOT for which ROOT^(2^BRV) ≡ −1. Complete variant with BRV = 8:
coefficient i is the value of the bank's polynomial at ROOT^(2·bitrev(i, 8) + 1). Incomplete variant with BRV = 7: the pair (r[2i], r[2i+1])
is the remainder of the polynomial divided by X² − g for g = ROOT^(2·bitrev(i, 7) + 1), that is, its even and its odd coefficients each
summed with the powers of g. -/
def Obligations.ForwardTransformEvaluatesThePolynomial : Prop :=
  ∀ (s t : State) (pb : Nat), pb < 32 → s.zvalid = true → TableValid s →
    ((s.root.toNat ^ 2 ^ s.brv.toNat + 1 : Nat) : Int) % s.q.toNat = 0 → exec (.nttFwd pb) s = .next t →
    (s.inc = false → s.brv.toNat = 8 → ∀ i, i < 256 →
      coef t pb i = mod (∑ j ∈ Finset.range 256, coef s pb j * (s.root.toNat : Int) ^ ((2 * bitrev i 8 + 1) * j)) s.q.toNat) ∧
    (s.inc = true → s.brv.toNat = 7 → ∀ i, i < 128 → ∀ c, c < 2 →
      coef t pb (2 * i + c) =
        mod (∑ j ∈ Finset.range 128, coef s pb (2 * j + c) * (s.root.toNat : Int) ^ ((2 * bitrev i 7 + 1) * j)) s.q.toNat)

/-- Rules R131, R133: the result depends only on the residues of the inputs modulo Q. -/
def Obligations.TransformsDependOnlyOnResidues : Prop :=
  ∀ (s s' t t' : State) (pb : Nat) (i : Instr), pb < 32 → i = .nttFwd pb ∨ i = .nttInv pb →
    s.zvalid = true → ModulusLegal s → (∃ p, s' = { s with poly := p }) →
    (∀ j, j < 256 → mod (coef s pb j) s.q.toNat = mod (coef s' pb j) s.q.toNat) →
    exec i s = .next t → exec i s' = .next t' → ∀ j, j < 256 → coef t pb j = coef t' pb j

/-- Rules R132, R135: ZETA[0] is never read, nor, with INC = 1, any entry from 128 on. -/
def Obligations.TransformsReadOnlyTheirZetas : Prop :=
  ∀ (s t : State) (pb : Nat) (z : Memory 32), s.zvalid = true →
    (∀ k, 1 ≤ k → k < (if s.inc then 128 else 256) → Memory.read z k = Memory.read s.zeta k) →
    (exec (.nttFwd pb) s = .next t → exec (.nttFwd pb) { s with zeta := z } = .next { t with zeta := z }) ∧
    (exec (.nttInv pb) s = .next t → exec (.nttInv pb) { s with zeta := z } = .next { t with zeta := z })

/-- Rules R131, R133, R140: a bank that is zero but for coefficient 0 is copied by NTT.FWD, reduced, to every even index (incomplete) or to
every index (complete), the odd ones staying zero; the zero bank maps to itself under both transforms; F = 0 makes NTT.INV give zero. -/
def Obligations.TransformsOfConstantBanks : Prop :=
  ∀ (s t u : State) (pb : Nat), pb < 32 → s.zvalid = true → ModulusLegal s →
    exec (.nttFwd pb) s = .next t → exec (.nttInv pb) s = .next u →
    ((∀ j, 1 ≤ j → j < 256 → coef s pb j = 0) → ∀ j, j < 256 →
      coef t pb j = if s.inc = true ∧ j % 2 = 1 then 0 else mod (coef s pb 0) s.q.toNat) ∧
    ((∀ j, j < 256 → coef s pb j = 0) → ∀ j, j < 256 → coef u pb j = 0) ∧
    (s.f = 0 → ∀ j, j < 256 → coef u pb j = 0)

/-! ### Coders -/

/-- Rules R92 to R94, R151, R156: `resolve(h)` over the words of the descriptor as numbers, `w` its header and `v` an entry word. It gives a
coder exactly in three cases: KIND = 1 is a BITS of width D and map CMODE; KIND = 2 is a SPLIT of NENT entries, the k-th of them the raw
length or the resolved smaller handle in word 1 + k; KIND = 3 is a VEC of COUNT elements of the resolved smaller handle ELEM. In each of them
the reserved bits and the fields the kind does not use are 0 and the coder has at most 8192 bytes. In every other case it is INVALID. -/
def Obligations.ResolveUnfoldsOneDescriptor : Prop :=
  ∀ (desc : Memory 32) (h : Nat) (c : Coder),
    let w := (Memory.read desc (9 * h)).toNat
    let v := fun k => (Memory.read desc (9 * h + (1 + k))).toNat
    (resolve desc h = some c ↔
      (w / 2 ^ 2 % 4 = 0 ∧ w / 2 ^ 11 % 2 = 0 ∧ w / 2 ^ 20 % 16 = 0) ∧ c.blen ≤ 8192 ∧
      ((w % 4 = 1 ∧ (1 ≤ w / 2 ^ 4 % 32 ∧ w / 2 ^ 4 % 32 ≤ 31) ∧ w / 2 ^ 9 % 4 ≤ 1 ∧
          w / 2 ^ 12 % 16 = 0 ∧ w / 2 ^ 16 % 16 = 0 ∧ w / 2 ^ 24 % 256 = 0 ∧
          c = .bits (w / 2 ^ 4 % 32) (if w / 2 ^ 9 % 4 = 0 then .ident else .centered)) ∨
        (w % 4 = 2 ∧ w / 2 ^ 12 % 16 ≤ 8 ∧
          w / 2 ^ 4 % 32 = 0 ∧ w / 2 ^ 9 % 4 = 0 ∧ w / 2 ^ 16 % 16 = 0 ∧ w / 2 ^ 24 % 256 = 0 ∧
          ∃ es : Entries, c = .split es ∧ es.toList.length = w / 2 ^ 12 % 16 ∧ ∀ k, k < w / 2 ^ 12 % 16 →
            v k / 2 ^ 16 % 2 ^ 15 = 0 ∧
            ((v k / 2 ^ 31 = 0 ∧ es.toList[k]? = some (.raw (v k % 2 ^ 16))) ∨
              (v k / 2 ^ 31 = 1 ∧ v k / 2 ^ 4 % 2 ^ 12 = 0 ∧ v k % 16 < h ∧
                ∃ e, resolve desc (v k % 16) = some e ∧ es.toList[k]? = some (.nested e)))) ∨
        (w % 4 = 3 ∧ w / 2 ^ 4 % 32 = 0 ∧ w / 2 ^ 9 % 4 = 0 ∧ w / 2 ^ 12 % 16 = 0 ∧ w / 2 ^ 16 % 16 < h ∧
          ∃ e, resolve desc (w / 2 ^ 16 % 16) = some e ∧ c = .vec e (w / 2 ^ 24 % 256))))

/-- Rules R150, R152, R156: a resolved tree has the shape and the bounds of the spec, and its sizes obey nraw ≤ blen, 32 · npoly ≤ blen. -/
def Obligations.ResolvedTreesAreLegal : Prop :=
  ∀ (desc : Memory 32) (h : Nat) (c : Coder), resolve desc h = some c →
    c.Legal ∧ c.blen ≤ 8192 ∧ c.nraw ≤ c.blen ∧ 32 * c.npoly ≤ c.blen

/-- Rules R73, R95: `resolve(h)` does not read the descriptors of handles above h. -/
def Obligations.ResolveReadsNoHigherHandle : Prop :=
  ∀ (desc desc' : Memory 32) (h : Nat),
    (∀ g k, g ≤ h → k < 9 → Memory.read desc (9 * g + k) = Memory.read desc' (9 * g + k)) →
    resolve desc h = resolve desc' h

/-- Rule R155: CLEN of a valid handle writes bytesLen to RES and nothing else; a handle that is not valid is BAD_DESC (6), a reserved
bit BAD_CMD (4). -/
def Obligations.ClenReportsTheLength : Prop :=
  ∀ (s : State) (h : Nat), h < 16 →
    (∀ c, resolve s.desc h = some c →
      ∃ r : Long, exec (.clen h) s = .next (afterSuccess { s with res := r }) ∧ r.toInt = c.blen) ∧
    (resolve s.desc h = none → exec (.clen h) s = .next (afterFault s 6 (BitVec.ofNat 32 (0x40000000 + h)))) ∧
    decode (BitVec.ofNat 32 (0x40000000 + h)) = .ok (.clen h) ∧
    (∀ w : Word, w.toNat / 2 ^ 24 = 0x40 → 16 ≤ w.toNat % 2 ^ 24 → issue w s = .next (afterFault s 4 w))

/-- Rules R157, R164, R183: ENC whose checks all pass (VLEN the count of a top-level VEC, 0 for any other coder) writes exactly blen bytes from EB on, the encoding of the banks and of the raw area,
and RES, and nothing else. -/
def Obligations.EncWritesTheEncodedString : Prop :=
  ∀ (s : State) (h pb vlen : Nat) (c : Coder), h < 16 → pb < 32 → vlen < 256 → resolve s.desc h = some c →
    (HasCenteredLeaf c → ModulusLegal s) → s.x1.toInt = c.blen → RequiredVlen c vlen →
    InBytes s.x0.toInt c.blen → InBytes s.x2.toInt c.nraw → ¬ RangesMeet s.x0.toInt c.blen s.x2.toInt c.nraw →
    pb + c.npoly ≤ 32 →
    ∃ (b : Memory 8) (r : Long), exec (.enc h pb vlen) s = .next (afterSuccess { s with bytes := b, res := r }) ∧
      r.toInt = c.blen ∧
      (∀ a : Nat, (a : Int) < s.x0.toInt ∨ s.x0.toInt + c.blen ≤ a → Memory.read b a = byteAt s a) ∧
      (List.range c.blen).map (fun k => Memory.read b (s.x0.toInt.toNat + k)) =
        (c.enc s.q.toNat ((List.range c.npoly).map fun n => (List.range 256).map (coef s (pb + n)))
          ((List.range c.nraw).map fun k => byteAt s (s.x2.toInt.toNat + k))).1

/-- Rules R162, R164: DEC whose checks all pass writes the decoded polynomials to the banks from PB on, the raw bytes from RB on, and RES,
and nothing else. -/
def Obligations.DecWritesTheDecodedValue : Prop :=
  ∀ (s : State) (h pb : Nat) (c : Coder), h < 16 → pb < 32 → resolve s.desc h = some c →
    (HasCenteredLeaf c → ModulusLegal s) → s.x1.toInt = c.blen →
    InBytes s.x0.toInt c.blen → InBytes s.x2.toInt c.nraw → ¬ RangesMeet s.x0.toInt c.blen s.x2.toInt c.nraw →
    pb + c.npoly ≤ 32 →
    ∃ (p : Memory 32) (b : Memory 8) (r : Long),
      exec (.dec h pb) s = .next (afterSuccess { s with poly := p, bytes := b, res := r }) ∧ r.toInt = c.blen ∧
      (∀ a : Nat, (a : Int) < s.x2.toInt ∨ s.x2.toInt + c.nraw ≤ a → Memory.read b a = byteAt s a) ∧
      (∀ a, a < 256 * pb ∨ 256 * (pb + c.npoly) ≤ a → Memory.read p a = Memory.read s.poly a) ∧
      ((List.range c.npoly).map fun n => (List.range 256).map fun j => (Memory.read p (256 * (pb + n) + j)).toInt,
        (List.range c.nraw).map fun k => Memory.read b (s.x2.toInt.toNat + k)) =
        c.dec s.q.toNat ((List.range c.blen).map fun k => byteAt s (s.x0.toInt.toNat + k))

/-- Rules R157, R162, R183, R186, R227: the checks of ENC and DEC fault in their order, BAD_DESC, BAD_PARAM (an illegal Q, for a coder with a
CENTERED leaf, inside a VEC of count 0 too), LEN_MISMATCH (the length, or VLEN), BAD_RANGE, and a wrong length fails whole. -/
def Obligations.CoderCommandsFaultInOrder : Prop :=
  ∀ (s : State) (h pb vlen : Nat), h < 16 → pb < 32 → vlen < 256 →
    (resolve s.desc h = none →
      exec (.enc h pb vlen) s = .next (afterFault s 6 (BitVec.ofNat 32 (0x41000000 + 512 * vlen + 16 * pb + h))) ∧
      exec (.dec h pb) s = .next (afterFault s 6 (BitVec.ofNat 32 (0x42000000 + 16 * pb + h)))) ∧
    ∀ c, resolve s.desc h = some c →
      (HasCenteredLeaf c → ¬ ModulusLegal s →
        exec (.enc h pb vlen) s = .next (afterFault s 5 (BitVec.ofNat 32 (0x41000000 + 512 * vlen + 16 * pb + h))) ∧
        exec (.dec h pb) s = .next (afterFault s 5 (BitVec.ofNat 32 (0x42000000 + 16 * pb + h)))) ∧
      ((HasCenteredLeaf c → ModulusLegal s) →
        (s.x1.toInt ≠ c.blen ∨ ¬ RequiredVlen c vlen →
          exec (.enc h pb vlen) s = .next (afterFault s 1 (BitVec.ofNat 32 (0x41000000 + 512 * vlen + 16 * pb + h)))) ∧
        (s.x1.toInt ≠ c.blen →
          exec (.dec h pb) s = .next (afterFault s 1 (BitVec.ofNat 32 (0x42000000 + 16 * pb + h)))) ∧
        (s.x1.toInt = c.blen →
          ¬ (InBytes s.x0.toInt c.blen ∧ InBytes s.x2.toInt c.nraw ∧
            ¬ RangesMeet s.x0.toInt c.blen s.x2.toInt c.nraw ∧ pb + c.npoly ≤ 32) →
          (RequiredVlen c vlen →
            exec (.enc h pb vlen) s = .next (afterFault s 7 (BitVec.ofNat 32 (0x41000000 + 512 * vlen + 16 * pb + h)))) ∧
          exec (.dec h pb) s = .next (afterFault s 7 (BitVec.ofNat 32 (0x42000000 + 16 * pb + h)))))

/-- Rules R158, R159: the packed string of 256 coefficients has 32 · d bytes, byte k is (S >> 8k) & 0xFF of the sum S of the groups, bit b
of group i is bit (i·d + b) mod 8 of byte floor((i·d + b) / 8), and the accumulator ends empty. The map that makes a group of a coefficient x is x itself
under IDENT and mod(x, Q) under CENTERED (rule R154), of which the low d bits enter. -/
def Obligations.BitsEncodeIsThePackedSum : Prop :=
  ∀ (d : Nat) (cm : CMode) (q : Int) (p : List Int), 1 ≤ d → d ≤ 31 → p.length = 256 →
    (∀ x, cenc .ident q x = x ∧ cenc .centered q x = mod x q) ∧
    (bitsEnc d cm q p).length = 32 * d ∧
    (∀ k, k < 32 * d → ((bitsEnc d cm q p).getD k 0).toNat =
      packed d (p.map fun x => (cenc cm q x % 2 ^ d).toNat) / 2 ^ (8 * k) % 256) ∧
    (∀ i b, i < 256 → b < d →
      ((bitsEnc d cm q p).getD ((i * d + b) / 8) 0).toNat.testBit ((i * d + b) % 8) =
        (cenc cm q (p.getD i 0) % 2 ^ d).toNat.testBit b) ∧
    (encLoop d cm q p ⟨0, 0⟩).2 = ⟨0, 0⟩

/-- Rules R160, R161: decoding 32 · d bytes gives 256 coefficients, the i-th that of the group (S >> i·d) & (2^d − 1), within the range of
its map, and the accumulator ends empty. The map that makes a coefficient of a group u is u itself under IDENT and smod(u, Q) under CENTERED
(rule R154). -/
def Obligations.BitsDecodeReadsThePackedSum : Prop :=
  ∀ (d : Nat) (cm : CMode) (q : Int) (bs : List Byte), 1 ≤ d → d ≤ 31 → (cm = .centered → 1 ≤ q) → bs.length = 32 * d →
    (∀ u : Nat, cdec .ident q u = u ∧ cdec .centered q u = smod u q) ∧
    (bitsDec d cm q bs).length = 256 ∧
    (∀ i, i < 256 → (bitsDec d cm q bs).getD i 0 =
      cdec cm q (packed 8 (bs.map BitVec.toNat) / 2 ^ (i * d) % 2 ^ d)) ∧
    (∀ x ∈ bitsDec d cm q bs, (cm = .ident → 0 ≤ x ∧ x < 2 ^ d) ∧ (cm = .centered → -q < 2 * x ∧ 2 * x ≤ q)) ∧
    (decLoop d cm q bs ⟨0, 0⟩).2 = ⟨0, 0⟩

/-- Rule R163: decode after encode is the identity on the valid domain, and gives cdec(low_d(cenc(x))) for every x; encode after decode is
the identity on strings under IDENT, and under CENTERED exactly where every group is below Q. Q need be legal under CENTERED only. -/
def Obligations.BitsCoderRoundTrip : Prop :=
  ∀ (d : Nat) (q : Int), 1 ≤ d → d ≤ 31 →
    (∀ (cm : CMode) (p : List Int), (cm = .centered → 1 ≤ q) → p.length = 256 → (∀ x ∈ p, CoefInDomain d cm q x) →
      bitsDec d cm q (bitsEnc d cm q p) = p) ∧
    (∀ (cm : CMode) (p : List Int), (cm = .centered → 1 ≤ q) → p.length = 256 →
      bitsDec d cm q (bitsEnc d cm q p) = p.map fun x => cdec cm q (cenc cm q x % 2 ^ d).toNat) ∧
    (∀ bs : List Byte, bs.length = 32 * d → bitsEnc d .ident q (bitsDec d .ident q bs) = bs) ∧
    (1 ≤ q → ∀ bs : List Byte, bs.length = 32 * d →
      (bitsEnc d .centered q (bitsDec d .centered q bs) = bs ↔
        ∀ i, i < 256 → ((packed 8 (bs.map BitVec.toNat) / 2 ^ (i * d) % 2 ^ d : Nat) : Int) < q))

/-- Rules R152, R153, R164, R176 to R182: the three sizes of a coder, and `enc` of a legal tree gives exactly blen bytes and consumes npoly
polynomials and nraw raw bytes, and `dec` of blen bytes gives npoly polynomials of 256 coefficients and nraw raw bytes. -/
def Obligations.CoderLengthsAreExact : Prop :=
  (∀ (d : Nat) (cm : CMode), (Coder.bits d cm).blen = 32 * d ∧ (Coder.bits d cm).npoly = 1 ∧ (Coder.bits d cm).nraw = 0) ∧
  (∀ es : Entries, (Coder.split es).blen = (es.toList.map Entry.len).sum ∧
    (Coder.split es).npoly = (es.toList.map Entry.npoly).sum ∧ (Coder.split es).nraw = (es.toList.map Entry.nraw).sum) ∧
  (∀ (e : Coder) (cnt : Nat), (Coder.vec e cnt).blen = cnt * e.blen ∧ (Coder.vec e cnt).npoly = cnt * e.npoly ∧
    (Coder.vec e cnt).nraw = cnt * e.nraw) ∧
  ∀ (c : Coder) (q : Int), c.Legal →
    (∀ (polys : List (List Int)) (raws : List Byte), c.npoly ≤ polys.length → (∀ p ∈ polys, p.length = 256) →
      c.nraw ≤ raws.length →
      (c.enc q polys raws).1.length = c.blen ∧ (c.enc q polys raws).2 = (polys.drop c.npoly, raws.drop c.nraw)) ∧
    (∀ bs : List Byte, bs.length = c.blen →
      (c.dec q bs).1.length = c.npoly ∧ (∀ p ∈ (c.dec q bs).1, p.length = 256) ∧ (c.dec q bs).2.length = c.nraw)

/-- Rule R185: `dec` undoes `enc` on every value whose coefficients lie in the domains of their leaves. -/
def Obligations.CoderRoundTrip : Prop :=
  ∀ (c : Coder) (q : Int) (polys : List (List Int)) (raws : List Byte), c.Legal → polys.length = c.npoly →
    raws.length = c.nraw → c.InDomain q polys → c.dec q (c.enc q polys raws).1 = (polys, raws)

/-- Rule R185, in commands: ENC, then DEC of the same handle from the written string into banks from pb' on and a raw area at another x[2],
reproduces the polynomials and the raw bytes. -/
def Obligations.EncThenDecReproducesTheValue : Prop :=
  ∀ (s t : State) (h pb pb' vlen : Nat) (c : Coder) (rb : Long), h < 16 → pb < 32 → pb' < 32 → vlen < 256 →
    resolve s.desc h = some c → exec (.enc h pb vlen) s = .next t → t.err = 0 →
    c.InDomain s.q.toNat ((List.range c.npoly).map fun n => (List.range 256).map (coef s (pb + n))) →
    InBytes rb.toInt c.nraw → ¬ RangesMeet s.x0.toInt c.blen rb.toInt c.nraw → pb' + c.npoly ≤ 32 →
    ∃ u, exec (.dec h pb') { t with x2 := rb } = .next u ∧ u.err = 0 ∧
      (∀ n j, n < c.npoly → j < 256 → coef u (pb' + n) j = coef s (pb + n) j) ∧
      (∀ k, k < c.nraw → byteAt u (rb.toInt.toNat + k) = byteAt s (s.x2.toInt.toNat + k))

/-! ### The comparator -/

/-- Rules R200, R201: CMPB of two ranges inside BYTES writes to RES 1 iff the lengths agree and every byte agrees, else 0, and nothing else;
a range not wholly inside BYTES is BAD_RANGE (7), the lengths differing or not; a reserved bit is BAD_CMD (4). -/
def Obligations.CmpbComparesTheBuffers : Prop :=
  ∀ s : State,
    (InBytes s.x0.toInt s.x1.toInt → InBytes s.x2.toInt s.x3.toInt →
      ∃ r : Long, exec .cmpb s = .next (afterSuccess { s with res := r }) ∧ (r.toInt = 0 ∨ r.toInt = 1) ∧
        (r.toInt = 1 ↔ s.x1.toInt = s.x3.toInt ∧
          ∀ k : Nat, (k : Int) < s.x1.toInt → byteAt s (s.x0.toInt.toNat + k) = byteAt s (s.x2.toInt.toNat + k))) ∧
    (¬ (InBytes s.x0.toInt s.x1.toInt ∧ InBytes s.x2.toInt s.x3.toInt) → exec .cmpb s = .next (afterFault s 7 0x50000000)) ∧
    decode 0x50000000 = .ok .cmpb ∧
    (∀ w : Word, w.toNat / 2 ^ 24 = 0x50 → w ≠ 0x50000000 → issue w s = .next (afterFault s 4 w))

/-! ### The layout of composite strings -/

/-- Rules R153, R176, R177, R181, R182: where each part of a value and of its string lies. A BITS leaf takes the first polynomial. Entry j of
a SPLIT has its slice at the sum of the lengths of the entries before it, and takes the polynomials and the raw bytes that follow theirs.
Element i of a VEC has its slice at i · blen(e), its polynomials at i · npoly(e), its raw bytes at i · nraw(e). Each part is encoded from its
own polynomials and raw bytes alone, and decoded from its own slice alone. -/
def Obligations.CompositePartsLieInOrder : Prop :=
  ∀ q : Int,
    (∀ (d : Nat) (cm : CMode) (p : List Int) (polys : List (List Int)) (raws bs : List Byte),
      (Coder.bits d cm).enc q (p :: polys) raws = (bitsEnc d cm q p, polys, raws) ∧
      (Coder.bits d cm).dec q bs = ([bitsDec d cm q bs], [])) ∧
    (∀ (es : Entries) (j : Nat) (e : Entry), (Coder.split es).Legal → es.toList[j]? = some e →
      (∀ (polys : List (List Int)) (raws : List Byte), (Coder.split es).npoly ≤ polys.length → (∀ p ∈ polys, p.length = 256) →
        (Coder.split es).nraw ≤ raws.length →
        slice ((Coder.split es).enc q polys raws).1 (es.before Entry.len j) e.len =
          e.encoded q (slice polys (es.before Entry.npoly j) e.npoly) (slice raws (es.before Entry.nraw j) e.nraw)) ∧
      (∀ bs : List Byte, bs.length = (Coder.split es).blen →
        (slice ((Coder.split es).dec q bs).1 (es.before Entry.npoly j) e.npoly,
          slice ((Coder.split es).dec q bs).2 (es.before Entry.nraw j) e.nraw) =
          e.decoded q (slice bs (es.before Entry.len j) e.len))) ∧
    (∀ (e : Coder) (cnt i : Nat), (Coder.vec e cnt).Legal → i < cnt →
      (∀ (polys : List (List Int)) (raws : List Byte), cnt * e.npoly ≤ polys.length → (∀ p ∈ polys, p.length = 256) →
        cnt * e.nraw ≤ raws.length →
        slice ((Coder.vec e cnt).enc q polys raws).1 (i * e.blen) e.blen =
          (e.enc q (slice polys (i * e.npoly) e.npoly) (slice raws (i * e.nraw) e.nraw)).1) ∧
      (∀ bs : List Byte, bs.length = cnt * e.blen →
        (slice ((Coder.vec e cnt).dec q bs).1 (i * e.npoly) e.npoly, slice ((Coder.vec e cnt).dec q bs).2 (i * e.nraw) e.nraw) =
          e.dec q (slice bs (i * e.blen) e.blen)))
end

