-- ==== Sys2Proof/Laws/ModArith.lean ====
section
/-! SUPPORT. The laws of `mod` and `smod` (rules R110, R111, R116), and that a value in range survives its store (rule R38). -/

namespace Sys2Proof.Machine

theorem mod_nonneg {m : Int} (hm : 1 ≤ m) (a : Int) : 0 ≤ mod a m := Int.emod_nonneg a (by omega)

theorem mod_lt {m : Int} (hm : 1 ≤ m) (a : Int) : mod a m < m := Int.emod_lt_of_pos a (by omega)

theorem dvd_sub_mod (a m : Int) : m ∣ a - mod a m := Int.dvd_self_sub_emod

/-- Two integers have one residue exactly when the modulus divides their difference. -/
theorem mod_eq_mod_iff (a b m : Int) : mod a m = mod b m ↔ m ∣ a - b := by
  constructor
  · exact fun h => Int.ModEq.dvd (n := m) (a := b) (b := a) h.symm
  · exact fun h => ((Int.modEq_iff_dvd (n := m) (a := b) (b := a)).2 h).symm

theorem mod_of_range {a m : Int} (h0 : 0 ≤ a) (h1 : a < m) : mod a m = a := Int.emod_eq_of_lt h0 h1

/-- A residue in [0, m) is the one `mod` gives. -/
theorem mod_unique {a r m : Int} (h0 : 0 ≤ r) (h1 : r < m) (h : m ∣ a - r) : r = mod a m := by
  rw [← mod_of_range h0 h1]
  exact ((mod_eq_mod_iff a r m).2 h).symm

theorem mod_mod (a m : Int) : mod (mod a m) m = mod a m := Int.emod_emod_of_dvd a (dvd_refl m)

theorem mod_zero (m : Int) : mod 0 m = 0 := Int.zero_emod m

theorem mod_add_mod (a b m : Int) : mod (mod a m + mod b m) m = mod (a + b) m := (Int.add_emod a b m).symm

theorem mod_sub_mod (a b m : Int) : mod (mod a m - mod b m) m = mod (a - b) m := (Int.sub_emod a b m).symm

theorem mod_mul_mod (a b m : Int) : mod (mod a m * mod b m) m = mod (a * b) m := (Int.mul_emod a b m).symm

theorem smod_bounds {m : Int} (hm : 1 ≤ m) (a : Int) : -m < 2 * smod a m ∧ 2 * smod a m ≤ m := by
  have h0 := mod_nonneg hm a
  have h1 := mod_lt hm a
  unfold smod
  split <;> omega

theorem dvd_sub_smod (a m : Int) : m ∣ a - smod a m := by
  have h := dvd_sub_mod a m
  unfold smod
  split
  · have : a - (mod a m - m) = (a - mod a m) + m := by ring
    rw [this]
    exact dvd_add h (dvd_refl m)
  · exact h

/-- A residue in (−m/2, m/2] is the one `smod` gives. -/
theorem smod_unique {a r m : Int} (h0 : -m < 2 * r) (h1 : 2 * r ≤ m) (h : m ∣ a - r) : r = smod a m := by
  have hb := smod_bounds (m := m) (by omega) a
  have hd : m ∣ r - smod a m := by
    have := dvd_sub (dvd_sub_smod a m) h
    rwa [show a - smod a m - (a - r) = r - smod a m by ring] at this
  obtain ⟨k, hk⟩ := hd
  have hm : 0 < m := by omega
  have hk1 : k < 1 := by
    by_contra hc
    have : m * 1 ≤ m * k := Int.mul_le_mul_of_nonneg_left (by omega) hm.le
    omega
  have hk2 : -1 < k := by
    by_contra hc
    have : m * k ≤ m * (-1) := Int.mul_le_mul_of_nonneg_left (by omega) hm.le
    omega
  have : k = 0 := by omega
  subst this
  omega

/-- A 32-bit signed value survives its store. -/
theorem toInt_ofInt_32 {v : Int} (h0 : -2147483648 ≤ v) (h1 : v < 2147483648) : (BitVec.ofInt 32 v).toInt = v := by
  rw [BitVec.toInt_ofInt]
  exact Int.bmod_eq_of_le (by omega) (by omega)

/-- A 64-bit signed value survives its store. -/
theorem toInt_ofInt_64 {v : Int} (h0 : -9223372036854775808 ≤ v) (h1 : v < 9223372036854775808) :
    (BitVec.ofInt 64 v).toInt = v := by
  rw [BitVec.toInt_ofInt]
  exact Int.bmod_eq_of_le (by omega) (by omega)

/-- An unsigned value survives its store. -/
theorem uval_ofInt {n : Nat} {v : Int} (h0 : 0 ≤ v) (h1 : v < 2 ^ n) : uval (BitVec.ofInt n v) = v := by
  rw [uval, BitVec.toNat_ofInt]
  have : v % ((2 ^ n : Nat) : Int) = v := Int.emod_eq_of_lt h0 (by push_cast; exact h1)
  rw [this, Int.toNat_of_nonneg h0]

theorem toInt_bounds_64 (x : BitVec 64) : -9223372036854775808 ≤ x.toInt ∧ x.toInt < 9223372036854775808 :=
  ⟨by have := BitVec.le_toInt x; omega, by have := BitVec.toInt_lt (x := x); omega⟩

theorem toInt_bounds_32 (x : BitVec 32) : -2147483648 ≤ x.toInt ∧ x.toInt < 2147483648 :=
  ⟨by have := BitVec.le_toInt x; omega, by have := BitVec.toInt_lt (x := x); omega⟩

end Sys2Proof.Machine
end

