-- ==== Sys2Proof/Laws/BitsCoder.lean ====
section
/-! SUPPORT. The bit packer as arithmetic on one number (rules R158 to R161): what goes into the accumulator comes out, digit by digit, and the
round trips of rule R163. -/

namespace Sys2Proof.Machine

/-! ### Digits -/

theorem packed_nil (d : Nat) : packed d [] = 0 := rfl

/-- The lowest group, and the others above it. -/
theorem packed_cons (d u : Nat) (us : List Nat) : packed d (u :: us) = u + 2 ^ d * packed d us := by
  unfold packed
  rw [List.length_cons, List.range_succ_eq_map, List.map_cons, List.sum_cons, List.map_map, ← List.sum_map_mul_left]
  congr 1
  · simp
  · congr 1
    refine List.map_congr_left fun i _ => ?_
    simp only [Function.comp_apply, List.getD_cons_succ, Nat.succ_eq_add_one, Nat.add_mul, Nat.one_mul, pow_add]
    ring

theorem packed_append (d : Nat) (us vs : List Nat) : packed d (us ++ vs) = packed d us + 2 ^ (d * us.length) * packed d vs := by
  induction us with
  | nil => simp [packed_nil]
  | cons u us ih =>
    rw [List.cons_append, packed_cons, ih, packed_cons, List.length_cons]
    ring

theorem packed_lt {d : Nat} {us : List Nat} (h : ∀ u ∈ us, u < 2 ^ d) : packed d us < 2 ^ (d * us.length) := by
  induction us with
  | nil => simp [packed_nil]
  | cons u us ih =>
    rw [packed_cons, List.length_cons, Nat.mul_add, Nat.mul_one, pow_add, Nat.mul_comm (2 ^ (d * us.length))]
    have h1 := h u (by simp)
    have h2 := ih fun v hv => h v (by simp [hv])
    have h3 : 2 ^ d * (packed d us + 1) ≤ 2 ^ d * 2 ^ (d * us.length) := Nat.mul_le_mul_left _ h2
    rw [Nat.mul_add] at h3
    omega

/-- Group i of the number is element i of the list. -/
theorem packed_digit {d : Nat} {us : List Nat} (h : ∀ u ∈ us, u < 2 ^ d) (i : Nat) :
    packed d us / 2 ^ (i * d) % 2 ^ d = us.getD i 0 := by
  induction us generalizing i with
  | nil => simp [packed_nil]
  | cons u us ih =>
    have h1 := h u (by simp)
    have hp : 0 < 2 ^ d := by positivity
    rw [packed_cons]
    cases i with
    | zero => simp [Nat.mod_eq_of_lt h1]
    | succ i =>
      rw [List.getD_cons_succ, ← ih (fun v hv => h v (by simp [hv])) i, Nat.succ_mul, pow_add, Nat.mul_comm (2 ^ (i * d)),
        ← Nat.div_div_eq_div_mul, Nat.add_mul_div_left _ _ hp, Nat.div_eq_of_lt h1, Nat.zero_add]

/-- Two lists of groups of one length with one number are one list. -/
theorem packed_injective {d : Nat} {us vs : List Nat} (hu : ∀ u ∈ us, u < 2 ^ d) (hv : ∀ v ∈ vs, v < 2 ^ d)
    (hl : us.length = vs.length) (h : packed d us = packed d vs) : us = vs := by
  apply List.ext_getElem hl
  intro i h1 h2
  have hi := packed_digit hu i
  rw [h, packed_digit hv i] at hi
  simpa [List.getD, h1, h2] using hi.symm

/-! ### The accumulator -/

/-- The accumulator holds no bit at or above `bufLen`. -/
def BitAcc.Ok (acc : BitAcc) : Prop := acc.buf < 2 ^ acc.bufLen

theorem BitAcc.push_buf {acc : BitAcc} (h : acc.Ok) (u n : Nat) : (acc.push u n).buf = acc.buf + 2 ^ acc.bufLen * u := by
  unfold BitAcc.push
  simp only
  rw [Nat.lor_comm, Nat.shiftLeft_eq, Nat.mul_comm u, ← Nat.two_pow_add_eq_or_of_lt h, Nat.add_comm]

theorem BitAcc.push_ok {acc : BitAcc} (h : acc.Ok) {u n : Nat} (hu : u < 2 ^ n) : (acc.push u n).Ok := by
  unfold BitAcc.Ok
  rw [BitAcc.push_buf h, show (acc.push u n).bufLen = acc.bufLen + n from rfl, pow_add]
  have h3 : 2 ^ acc.bufLen * (u + 1) ≤ 2 ^ acc.bufLen * 2 ^ n := Nat.mul_le_mul_left _ hu
  unfold BitAcc.Ok at h
  rw [Nat.mul_add] at h3
  omega

theorem BitAcc.pop_ok {acc : BitAcc} (h : acc.Ok) {n : Nat} (hn : n ≤ acc.bufLen) : (acc.pop n).Ok := by
  unfold BitAcc.Ok BitAcc.pop at *
  simp only [Nat.shiftRight_eq_div_pow]
  rw [Nat.div_lt_iff_lt_mul (by positivity), ← pow_add, Nat.sub_add_cancel hn]
  exact h

theorem BitAcc.pop_buf (acc : BitAcc) (n : Nat) : acc.buf = acc.buf % 2 ^ n + 2 ^ n * (acc.pop n).buf := by
  simp only [BitAcc.pop, Nat.shiftRight_eq_div_pow, Nat.mod_add_div]

/-- A drained accumulator is empty. -/
theorem BitAcc.eq_empty {acc : BitAcc} (h : acc.Ok) (hl : acc.bufLen = 0) : acc = ⟨0, 0⟩ := by
  unfold BitAcc.Ok at h
  cases acc
  simp_all

/-! ### The encoder -/

theorem groupOf_lt (d : Nat) (cm : CMode) (q x : Int) : groupOf d cm q x < 2 ^ d := by
  have h1 := Int.emod_lt_of_pos (cenc cm q x) (b := (2 : Int) ^ d) (by positivity)
  have h2 := Int.emod_nonneg (cenc cm q x) (b := (2 : Int) ^ d) (by positivity)
  have h3 : ((groupOf d cm q x : Nat) : Int) < ((2 ^ d : Nat) : Int) := by
    rw [groupOf, lowBits, Int.toNat_of_nonneg h2]; push_cast; exact h1
  exact_mod_cast h3

/-- What the inner loop of rule R158 does: n bytes come out of the low end of the number. -/
theorem flushBytes_spec {n : Nat} {acc : BitAcc} (h : acc.Ok) (hn : 8 * n ≤ acc.bufLen) :
    (flushBytes n acc).1.length = n ∧ (flushBytes n acc).2.Ok ∧ (flushBytes n acc).2.bufLen = acc.bufLen - 8 * n ∧
    acc.buf = packed 8 ((flushBytes n acc).1.map BitVec.toNat) + 2 ^ (8 * n) * (flushBytes n acc).2.buf := by
  induction n generalizing acc with
  | zero => simp [flushBytes, h, packed_nil]
  | succ n ih =>
    obtain ⟨h1, h2, h3, h4⟩ := ih (acc := acc.pop 8) (BitAcc.pop_ok h (by omega)) (by simp only [BitAcc.pop]; omega)
    refine ⟨by simp [flushBytes, h1], h2, ?_, ?_⟩
    · simp only [flushBytes, h3]; simp only [BitAcc.pop]; omega
    · simp only [flushBytes, List.map_cons, packed_cons, BitVec.toNat_ofNat]
      have hb := BitAcc.pop_buf acc 8
      generalize acc.buf % 2 ^ 8 = low at hb ⊢
      rw [hb, h4]
      ring

/-- Loop of rule R158: the bytes out and the bits left are the bits already pending and the groups put in; whole bytes never stay. -/
theorem encLoop_spec {d : Nat} {cm : CMode} {q : Int} (p : List Int) {acc : BitAcc} (h : acc.Ok) (h8 : acc.bufLen < 8) :
    (encLoop d cm q p acc).2.Ok ∧ (encLoop d cm q p acc).2.bufLen < 8 ∧
    8 * (encLoop d cm q p acc).1.length + (encLoop d cm q p acc).2.bufLen = acc.bufLen + d * p.length ∧
    packed 8 ((encLoop d cm q p acc).1.map BitVec.toNat) +
        2 ^ (8 * (encLoop d cm q p acc).1.length) * (encLoop d cm q p acc).2.buf =
      acc.buf + 2 ^ acc.bufLen * packed d (p.map (groupOf d cm q)) := by
  induction p generalizing acc with
  | nil => simp [encLoop, h, h8, packed_nil]
  | cons x xs ih =>
    have hg := groupOf_lt d cm q x
    have hpush := BitAcc.push_ok h hg
    have hbuf := BitAcc.push_buf h (groupOf d cm q x) d
    have hlen : (acc.push (groupOf d cm q x) d).bufLen = acc.bufLen + d := rfl
    have hdiv := Nat.div_add_mod (acc.bufLen + d) 8
    have hmod := Nat.mod_lt (acc.bufLen + d) (show 0 < 8 by decide)
    obtain ⟨f1, f2, f3, f4⟩ := flushBytes_spec (n := (acc.bufLen + d) / 8) hpush (by rw [hlen]; omega)
    rw [hlen] at f3
    obtain ⟨e1, e2, e3, e4⟩ := ih f2 (by omega)
    simp only [encLoop, hlen]
    refine ⟨e1, e2, ?_, ?_⟩
    · rw [List.length_append, f1, List.length_cons, Nat.mul_add, Nat.mul_add d, Nat.mul_one]
      omega
    · have hout : (flushBytes ((acc.bufLen + d) / 8) (acc.push (groupOf d cm q x) d)).2.bufLen =
        (acc.bufLen + d) - 8 * ((acc.bufLen + d) / 8) := f3
      have hpow : 2 ^ (8 * ((acc.bufLen + d) / 8)) * 2 ^ ((acc.bufLen + d) - 8 * ((acc.bufLen + d) / 8)) = 2 ^ acc.bufLen * 2 ^ d := by
        rw [← pow_add, ← pow_add]; congr 1; omega
      rw [hout] at e4
      rw [List.map_append, packed_append, List.length_map, List.length_append, f1, List.map_cons, packed_cons, Nat.mul_add 8, pow_add,
        Nat.mul_assoc (2 ^ (8 * ((acc.bufLen + d) / 8))), Nat.add_assoc, ← Nat.mul_add, e4, Nat.mul_add, ← Nat.mul_assoc, hpow,
        ← Nat.add_assoc, ← f4, hbuf]
      ring

/-- Rule R159, for a bit string of whole bytes: its length, its number, and the drained accumulator (rule R158). -/
theorem bitsEnc_spec (d : Nat) (cm : CMode) (q : Int) {p : List Int} (hp : p.length = 256) :
    (bitsEnc d cm q p).length = 32 * d ∧
    packed 8 ((bitsEnc d cm q p).map BitVec.toNat) = packed d (p.map (groupOf d cm q)) ∧
    (encLoop d cm q p ⟨0, 0⟩).2 = ⟨0, 0⟩ := by
  obtain ⟨h1, h2, h3, h4⟩ := encLoop_spec (d := d) (cm := cm) (q := q) p (acc := ⟨0, 0⟩) (by simp [BitAcc.Ok]) (by decide)
  rw [hp] at h3
  simp only at h3
  have h0 : (encLoop d cm q p ⟨0, 0⟩).2.bufLen = 0 := by omega
  have he := BitAcc.eq_empty h1 h0
  rw [he] at h4
  refine ⟨by unfold bitsEnc; omega, ?_, he⟩
  simpa [bitsEnc] using h4

/-! ### The decoder -/

/-- What the inner loop of rule R160 does: n groups of d bits come out of the low end of the number. -/
theorem takeGroups_spec {d n : Nat} (cm : CMode) (q : Int) {acc : BitAcc} (h : acc.Ok) (hn : d * n ≤ acc.bufLen) :
    ∃ us : List Nat, us.length = n ∧ (∀ u ∈ us, u < 2 ^ d) ∧ (takeGroups d cm q n acc).1 = us.map (cdec cm q) ∧
      (takeGroups d cm q n acc).2.Ok ∧ (takeGroups d cm q n acc).2.bufLen = acc.bufLen - d * n ∧
      acc.buf = packed d us + 2 ^ (d * n) * (takeGroups d cm q n acc).2.buf := by
  induction n generalizing acc with
  | zero => exact ⟨[], rfl, by simp, rfl, h, by simp [takeGroups], by simp [takeGroups, packed_nil]⟩
  | succ n ih =>
    rw [Nat.mul_add, Nat.mul_one] at hn
    obtain ⟨us, h1, h2, h3, h4, h5, h6⟩ := ih (acc := acc.pop d) (BitAcc.pop_ok h (by omega)) (by simp only [BitAcc.pop]; omega)
    have hb := BitAcc.pop_buf acc d
    refine ⟨acc.buf % 2 ^ d :: us, by simp [h1], ?_, by simp [takeGroups, h3], h4, ?_, ?_⟩
    · intro u hu
      rcases List.mem_cons.1 hu with rfl | hu
      · exact Nat.mod_lt _ (by positivity)
      · exact h2 u hu
    · simp only [takeGroups, h5]
      rw [Nat.mul_add, Nat.mul_one]
      simp only [BitAcc.pop]
      omega
    · simp only [takeGroups, packed_cons]
      generalize acc.buf % 2 ^ d = low at hb ⊢
      rw [hb, h6]
      ring

/-- Loop of rule R160: the groups out and the bits left are the bits already pending and the bytes put in; whole groups never stay. -/
theorem decLoop_spec {d : Nat} (hd : 1 ≤ d) (cm : CMode) (q : Int) (bs : List Byte) {acc : BitAcc} (h : acc.Ok) (h8 : acc.bufLen < d) :
    ∃ us : List Nat, (∀ u ∈ us, u < 2 ^ d) ∧ (decLoop d cm q bs acc).1 = us.map (cdec cm q) ∧
      (decLoop d cm q bs acc).2.Ok ∧ (decLoop d cm q bs acc).2.bufLen < d ∧
      d * us.length + (decLoop d cm q bs acc).2.bufLen = acc.bufLen + 8 * bs.length ∧
      packed d us + 2 ^ (d * us.length) * (decLoop d cm q bs acc).2.buf =
        acc.buf + 2 ^ acc.bufLen * packed 8 (bs.map BitVec.toNat) := by
  induction bs generalizing acc with
  | nil => exact ⟨[], by simp, rfl, h, h8, by simp [decLoop], by simp [decLoop, packed_nil]⟩
  | cons b bs ih =>
    have hpush := BitAcc.push_ok h (u := b.toNat) (n := 8) b.isLt
    have hbuf := BitAcc.push_buf h b.toNat 8
    have hlen : (acc.push b.toNat 8).bufLen = acc.bufLen + 8 := rfl
    have hdiv := Nat.div_add_mod (acc.bufLen + 8) d
    have hmod := Nat.mod_lt (acc.bufLen + 8) hd
    obtain ⟨us, f1, f2, f3, f4, f5, f6⟩ := takeGroups_spec (d := d) (n := (acc.bufLen + 8) / d) cm q hpush (by rw [hlen]; omega)
    rw [hlen] at f5
    obtain ⟨vs, e1, e2, e3, e4, e5, e6⟩ := ih f4 (by omega)
    simp only [decLoop, hlen]
    refine ⟨us ++ vs, ?_, by rw [f3, e2, List.map_append], e3, e4, ?_, ?_⟩
    · intro u hu
      rcases List.mem_append.1 hu with hu | hu
      · exact f2 u hu
      · exact e1 u hu
    · rw [List.length_append, f1, List.length_cons, Nat.mul_add]
      omega
    · have hpow : 2 ^ (d * ((acc.bufLen + 8) / d)) * 2 ^ ((acc.bufLen + 8) - d * ((acc.bufLen + 8) / d)) = 2 ^ acc.bufLen * 2 ^ 8 := by
        rw [← pow_add, ← pow_add]; congr 1; omega
      rw [f5] at e6
      rw [packed_append, List.length_append, f1, List.map_cons, packed_cons, Nat.mul_add d, pow_add,
        Nat.mul_assoc (2 ^ (d * ((acc.bufLen + 8) / d))), Nat.add_assoc, ← Nat.mul_add, e6, Nat.mul_add, ← Nat.mul_assoc, hpow,
        ← Nat.add_assoc, ← f6, hbuf]
      ring

/-- Rule R161: 32 · d bytes are 256 groups of d bits, and the accumulator ends empty. -/
theorem bitsDec_spec {d : Nat} (hd : 1 ≤ d) (cm : CMode) (q : Int) {bs : List Byte} (hb : bs.length = 32 * d) :
    ∃ us : List Nat, us.length = 256 ∧ (∀ u ∈ us, u < 2 ^ d) ∧ bitsDec d cm q bs = us.map (cdec cm q) ∧
      packed d us = packed 8 (bs.map BitVec.toNat) ∧ (decLoop d cm q bs ⟨0, 0⟩).2 = ⟨0, 0⟩ := by
  obtain ⟨us, h1, h2, h3, h4, h5, h6⟩ := decLoop_spec hd cm q bs (acc := ⟨0, 0⟩) (by simp [BitAcc.Ok]) hd
  rw [hb] at h5
  simp only at h5
  have hl : us.length = 256 := by
    have h7 : d * us.length ≤ d * 256 := by omega
    have h8 : d * 256 < d * (us.length + 1) := by rw [Nat.mul_add, Nat.mul_one]; omega
    have h9 := Nat.le_of_mul_le_mul_left h7 hd
    have h10 := Nat.lt_of_mul_lt_mul_left h8
    omega
  have h0 : (decLoop d cm q bs ⟨0, 0⟩).2.bufLen = 0 := by rw [hl] at h5; omega
  have he := BitAcc.eq_empty h3 h0
  rw [he] at h6
  exact ⟨us, hl, h1, h2, by simpa using h6, he⟩

theorem bytes_lt (bs : List Byte) : ∀ u ∈ bs.map BitVec.toNat, u < 2 ^ 8 := by
  intro u hu
  obtain ⟨b, _, rfl⟩ := List.mem_map.1 hu
  exact b.isLt

/-- Two byte strings of one length with one number are one string. -/
theorem bytes_injective {bs cs : List Byte} (hl : bs.length = cs.length)
    (h : packed 8 (bs.map BitVec.toNat) = packed 8 (cs.map BitVec.toNat)) : bs = cs := by
  have := packed_injective (bytes_lt bs) (bytes_lt cs) (by simpa using hl) h
  exact List.map_injective_iff.2 (fun a b h => BitVec.eq_of_toNat_eq h) this

/-! ### Round trips -/

theorem lowBits_of_range {d : Nat} {v : Int} (h0 : 0 ≤ v) (h1 : v < 2 ^ d) : ((lowBits d v : Nat) : Int) = v := by
  rw [lowBits, Int.emod_eq_of_lt h0 h1, Int.toNat_of_nonneg h0]

/-- Rule R154: on its valid domain a coefficient map loses nothing. -/
theorem cdec_groupOf {d : Nat} {cm : CMode} {q x : Int} (h : CoefInDomain d cm q x) : cdec cm q (groupOf d cm q x) = x := by
  cases cm with
  | ident => exact lowBits_of_range h.1 h.2
  | centered =>
    obtain ⟨h1, h2, h3, h4⟩ := h
    have h5 := mod_nonneg h1 x
    have h6 := mod_lt h1 x
    simp only [cdec, groupOf, cenc]
    rw [lowBits_of_range h5 (by omega)]
    refine (smod_unique h3 h4 ?_).symm
    have := dvd_sub_mod x q
    rw [← Int.dvd_neg] at this
    simpa using this

/-- Rule R163: decode after encode. -/
theorem bitsDec_bitsEnc {d : Nat} (hd : 1 ≤ d) {cm : CMode} {q : Int} {p : List Int} (hp : p.length = 256)
    (hx : ∀ x ∈ p, CoefInDomain d cm q x) : bitsDec d cm q (bitsEnc d cm q p) = p := by
  obtain ⟨e1, e2, -⟩ := bitsEnc_spec d cm q hp
  obtain ⟨us, d1, d2, d3, d4, -⟩ := bitsDec_spec hd cm q e1
  have hg : ∀ u ∈ p.map (groupOf d cm q), u < 2 ^ d := by
    intro u hu
    obtain ⟨x, _, rfl⟩ := List.mem_map.1 hu
    exact groupOf_lt d cm q x
  have hus := packed_injective d2 hg (by simp [d1, hp]) (d4.trans e2)
  rw [d3, hus, List.map_map]
  conv_rhs => rw [← List.map_id p]
  exact List.map_congr_left fun x hx' => cdec_groupOf (hx x hx')

/-- Rule R163: encode after decode gives the string back exactly where every group survives its map. -/
theorem bitsEnc_bitsDec_iff {d : Nat} {cm : CMode} {q : Int} {bs : List Byte} (hb : bs.length = 32 * d)
    {us : List Nat} (hl : us.length = 256) (hu : ∀ u ∈ us, u < 2 ^ d) (hdec : bitsDec d cm q bs = us.map (cdec cm q))
    (hp : packed d us = packed 8 (bs.map BitVec.toNat)) :
    bitsEnc d cm q (bitsDec d cm q bs) = bs ↔ ∀ u ∈ us, groupOf d cm q (cdec cm q u) = u := by
  obtain ⟨e1, e2, -⟩ := bitsEnc_spec d cm q (p := bitsDec d cm q bs) (by rw [hdec, List.length_map, hl])
  rw [hdec, List.map_map, ← hdec] at e2
  have hg : ∀ u ∈ us.map (groupOf d cm q ∘ cdec cm q), u < 2 ^ d := by
    intro u hu
    obtain ⟨x, _, rfl⟩ := List.mem_map.1 hu
    exact groupOf_lt d cm q _
  constructor
  · intro h
    rw [h, ← hp] at e2
    have := packed_injective hu hg (by simp) e2
    intro u hm
    have h2 : us.map (groupOf d cm q ∘ cdec cm q) = us.map id := by simpa using this.symm
    exact (List.map_inj_left.1 h2) u hm
  · intro h
    refine bytes_injective (e1.trans hb.symm) ?_
    rw [e2, ← hp]
    congr 1
    conv_rhs => rw [← List.map_id us]
    exact List.map_congr_left fun u hm => h u hm

end Sys2Proof.Machine
end

