-- ==== Sys2Proof/Laws/Coder.lean ====
section
/-! SUPPORT. Coder trees: `enc` and `dec` produce and consume exactly the sizes of rule R152, and undo each other on the valid domain (rules R153,
R164, R176 to R182, R185). -/

namespace Sys2Proof.Machine

/-! ### Sizes -/

/-- Every polynomial has NDEG coefficients. -/
def AllFull (polys : List (List Int)) : Prop := ∀ p ∈ polys, p.length = 256

theorem AllFull.drop {polys : List (List Int)} (h : AllFull polys) (n : Nat) : AllFull (polys.drop n) :=
  fun p hp => h p (List.mem_of_mem_drop hp)

theorem AllFull.take {polys : List (List Int)} (h : AllFull polys) (n : Nat) : AllFull (polys.take n) :=
  fun p hp => h p (List.mem_of_mem_take hp)

theorem AllFull.append {ps ps' : List (List Int)} (h : AllFull ps) (h' : AllFull ps') : AllFull (ps ++ ps') := fun p hp => by
  rcases List.mem_append.1 hp with hp | hp
  · exact h p hp
  · exact h' p hp

/-- A value from which a coder of these sizes can take its part. -/
def Enough (npoly nraw : Nat) (polys : List (List Int)) (raws : List Byte) : Prop :=
  npoly ≤ polys.length ∧ AllFull polys ∧ nraw ≤ raws.length

/-- The sizes of rule R152 hold of one use of `enc`: blen bytes out, npoly polynomials and nraw raw bytes consumed. -/
def EncExact (f : List (List Int) → List Byte → List Byte × List (List Int) × List Byte) (blen npoly nraw : Nat) : Prop :=
  ∀ polys raws, Enough npoly nraw polys raws →
    (f polys raws).1.length = blen ∧ (f polys raws).2 = (polys.drop npoly, raws.drop nraw)

theorem encTimes_exact {f : List (List Int) → List Byte → List Byte × List (List Int) × List Byte} {blen npoly nraw : Nat}
    (hf : EncExact f blen npoly nraw) (cnt : Nat) : EncExact (encTimes f cnt) (cnt * blen) (cnt * npoly) (cnt * nraw) := by
  induction cnt with
  | zero => intro polys raws _; simp [encTimes]
  | succ n ih =>
    intro polys raws ⟨h1, h2, h3⟩
    simp only [Nat.succ_mul] at h1 h3 ⊢
    obtain ⟨f1, f2⟩ := hf polys raws ⟨by omega, h2, by omega⟩
    obtain ⟨g1, g2⟩ := ih (polys.drop npoly) (raws.drop nraw)
      ⟨by simp only [List.length_drop]; omega, h2.drop _, by simp only [List.length_drop]; omega⟩
    simp only [encTimes, f2, g2, List.length_append, f1, g1, List.drop_drop]
    refine ⟨by omega, ?_⟩
    rw [Nat.add_comm npoly, Nat.add_comm nraw]

mutual

theorem Coder.enc_exact (q : Int) : ∀ c : Coder, EncExact (c.enc q) c.blen c.npoly c.nraw
  | .bits d cm => fun polys raws ⟨h1, h2, _⟩ => by
    cases polys with
    | nil => simp [Coder.npoly] at h1
    | cons p ps =>
      have := (bitsEnc_spec d cm q (h2 p (by simp))).1
      simp [Coder.enc, Coder.blen, Coder.npoly, Coder.nraw, this]
  | .split es => Entries.enc_exact q es
  | .vec e cnt => encTimes_exact (Coder.enc_exact q e) cnt

theorem Entries.enc_exact (q : Int) : ∀ es : Entries, EncExact (es.enc q) es.blen es.npoly es.nraw
  | .nil => fun polys raws _ => by simp [Entries.enc, Entries.blen, Entries.npoly, Entries.nraw]
  | .raw n es => fun polys raws ⟨h1, h2, h3⟩ => by
    simp only [Entries.npoly, Entries.nraw] at h1 h3
    obtain ⟨g1, g2⟩ := Entries.enc_exact q es polys (raws.drop n) ⟨h1, h2, by simp only [List.length_drop]; omega⟩
    simp only [Entries.enc, Entries.blen, Entries.npoly, Entries.nraw, List.length_append, List.length_take, g1, g2, List.drop_drop]
    exact ⟨by omega, trivial⟩
  | .nested c es => fun polys raws ⟨h1, h2, h3⟩ => by
    simp only [Entries.npoly, Entries.nraw] at h1 h3
    obtain ⟨f1, f2⟩ := Coder.enc_exact q c polys raws ⟨by omega, h2, by omega⟩
    obtain ⟨g1, g2⟩ := Entries.enc_exact q es (polys.drop c.npoly) (raws.drop c.nraw)
      ⟨by simp only [List.length_drop]; omega, h2.drop _, by simp only [List.length_drop]; omega⟩
    simp only [Entries.enc, Entries.blen, Entries.npoly, Entries.nraw, f2, g2, List.length_append, f1, g1, List.drop_drop]
    exact ⟨trivial, trivial⟩

end

/-- The sizes of rule R152 hold of one use of `dec`. -/
def DecExact (f : List Byte → List (List Int) × List Byte) (blen npoly nraw : Nat) : Prop :=
  ∀ bs, bs.length = blen → (f bs).1.length = npoly ∧ AllFull (f bs).1 ∧ (f bs).2.length = nraw

theorem decTimes_exact {f : List Byte → List (List Int) × List Byte} {blen npoly nraw : Nat} (hf : DecExact f blen npoly nraw)
    (cnt : Nat) : DecExact (decTimes blen f cnt) (cnt * blen) (cnt * npoly) (cnt * nraw) := by
  induction cnt with
  | zero => intro bs _; simp [decTimes, AllFull]
  | succ n ih =>
    intro bs hb
    simp only [Nat.succ_mul] at hb ⊢
    obtain ⟨f1, f2, f3⟩ := hf (bs.take blen) (by simp only [List.length_take]; omega)
    obtain ⟨g1, g2, g3⟩ := ih (bs.drop blen) (by simp only [List.length_drop]; omega)
    simp only [decTimes, List.length_append, f1, g1, f3, g3]
    exact ⟨by omega, f2.append g2, by omega⟩

mutual

theorem Coder.dec_exact (q : Int) : ∀ c : Coder, c.Legal → DecExact (c.dec q) c.blen c.npoly c.nraw
  | .bits d cm, hc => fun bs hb => by
    obtain ⟨us, h1, _, h3, _⟩ := bitsDec_spec hc.1 cm q hb
    simp [Coder.dec, Coder.npoly, Coder.nraw, AllFull, h3, h1]
  | .split es, hc => Entries.dec_exact q es hc.1
  | .vec e cnt, hc => decTimes_exact (Coder.dec_exact q e hc.1) cnt

theorem Entries.dec_exact (q : Int) : ∀ es : Entries, es.Legal → DecExact (es.dec q) es.blen es.npoly es.nraw
  | .nil, _ => fun bs _ => by simp [Entries.dec, Entries.npoly, Entries.nraw, AllFull]
  | .raw n es, hc => fun bs hb => by
    simp only [Entries.blen] at hb
    obtain ⟨g1, g2, g3⟩ := Entries.dec_exact q es hc.2 (bs.drop n) (by simp only [List.length_drop]; omega)
    simp only [Entries.dec, Entries.npoly, Entries.nraw, List.length_append, List.length_take, g1, g3]
    exact ⟨trivial, g2, by omega⟩
  | .nested c es, hc => fun bs hb => by
    simp only [Entries.blen] at hb
    obtain ⟨f1, f2, f3⟩ := Coder.dec_exact q c hc.1 (bs.take c.blen) (by simp only [List.length_take]; omega)
    obtain ⟨g1, g2, g3⟩ := Entries.dec_exact q es hc.2 (bs.drop c.blen) (by simp only [List.length_drop]; omega)
    simp only [Entries.dec, Entries.npoly, Entries.nraw, List.length_append, f1, g1, f3, g3]
    exact ⟨trivial, f2.append g2, trivial⟩

end

mutual

/-- Rule R156: the relations between the sizes of a tree. -/
theorem Coder.sizes : ∀ c : Coder, c.Legal → c.nraw + 32 * c.npoly ≤ c.blen
  | .bits d _, hc => by
    have := hc.1
    simp only [Coder.nraw, Coder.npoly, Coder.blen]
    omega
  | .split es, hc => Entries.sizes es hc.1
  | .vec e cnt, hc => by
    have := Nat.mul_le_mul_left cnt (Coder.sizes e hc.1)
    simp only [Coder.nraw, Coder.npoly, Coder.blen]
    rwa [Nat.mul_add, ← Nat.mul_assoc, Nat.mul_comm cnt 32, Nat.mul_assoc] at this

theorem Entries.sizes : ∀ es : Entries, es.Legal → es.nraw + 32 * es.npoly ≤ es.blen
  | .nil, _ => by simp [Entries.nraw, Entries.npoly, Entries.blen]
  | .raw n es, hc => by
    have := Entries.sizes es hc.2
    simp only [Entries.nraw, Entries.npoly, Entries.blen]
    omega
  | .nested c es, hc => by
    have := Coder.sizes c hc.1
    have := Entries.sizes es hc.2
    simp only [Entries.nraw, Entries.npoly, Entries.blen]
    omega

end

/-! ### The entries of a SplitCoder as a list -/

theorem Entries.toList_length : ∀ es : Entries, es.toList.length = es.count
  | .nil => rfl
  | .raw _ es => by simp [Entries.toList, Entries.count, Entries.toList_length es]
  | .nested _ es => by simp [Entries.toList, Entries.count, Entries.toList_length es]

theorem Entries.toList_injective : ∀ es es' : Entries, es.toList = es'.toList → es = es'
  | .nil, es', h => by cases es' <;> simp_all [Entries.toList]
  | .raw n es, es', h => by
    cases es' <;> simp_all [Entries.toList]
    exact Entries.toList_injective es _ h.2
  | .nested c es, es', h => by
    cases es' <;> simp_all [Entries.toList]
    exact Entries.toList_injective es _ h.2

/-- Rule R152: the sizes of a SPLIT are the sums over its entries. -/
theorem Entries.sizes_eq_sum : ∀ es : Entries, es.blen = (es.toList.map Entry.len).sum ∧
    es.npoly = (es.toList.map Entry.npoly).sum ∧ es.nraw = (es.toList.map Entry.nraw).sum
  | .nil => by simp [Entries.blen, Entries.npoly, Entries.nraw, Entries.toList]
  | .raw n es => by
    obtain ⟨h1, h2, h3⟩ := Entries.sizes_eq_sum es
    simp [Entries.blen, Entries.npoly, Entries.nraw, Entries.toList, Entry.len, Entry.npoly, Entry.nraw, h1, h2, h3]
  | .nested c es => by
    obtain ⟨h1, h2, h3⟩ := Entries.sizes_eq_sum es
    simp [Entries.blen, Entries.npoly, Entries.nraw, Entries.toList, Entry.len, Entry.npoly, Entry.nraw, h1, h2, h3]

mutual

/-- The CENTERED test of the model is the one of rule R157. -/
theorem Coder.hasCentered_iff : ∀ c : Coder, c.hasCentered = true ↔ HasCenteredLeaf c
  | .bits d cm => by
    simp only [Coder.hasCentered, decide_eq_true_eq]
    exact ⟨fun h => h ▸ .leaf d, fun h => by cases h; rfl⟩
  | .split es => by
    simp only [Coder.hasCentered, Entries.hasCentered_iff es]
    exact ⟨fun ⟨_, hm, hc⟩ => .entry hm hc, fun h => by cases h with | entry hm hc => exact ⟨_, hm, hc⟩⟩
  | .vec e cnt => by
    simp only [Coder.hasCentered, Coder.hasCentered_iff e]
    exact ⟨.element cnt, fun h => by cases h; assumption⟩

theorem Entries.hasCentered_iff : ∀ es : Entries, es.hasCentered = true ↔ ∃ c, Entry.nested c ∈ es.toList ∧ HasCenteredLeaf c
  | .nil => by simp [Entries.hasCentered, Entries.toList]
  | .raw _ es => by simp [Entries.hasCentered, Entries.toList, Entries.hasCentered_iff es]
  | .nested c es => by
    simp only [Entries.hasCentered, Bool.or_eq_true, Coder.hasCentered_iff c, Entries.hasCentered_iff es, Entries.toList,
      List.mem_cons, Entry.nested.injEq, or_and_right, exists_or, exists_eq_left]

end

/-! ### Every decoded coefficient fits (rule R38) -/

/-- A coefficient fits its 32-bit element. -/
def CoefFits (x : Int) : Prop := -2147483648 ≤ x ∧ x < 2147483648

/-- The coefficients one use of `dec` gives fit. -/
def DecFits (f : List Byte → List (List Int) × List Byte) (blen : Nat) : Prop :=
  ∀ bs, bs.length = blen → ∀ p ∈ (f bs).1, ∀ x ∈ p, CoefFits x

theorem cdec_fits {d : Nat} {cm : CMode} {q : Int} {u : Nat} (hd : d ≤ 31) (hq : cm = .centered → 1 ≤ q ∧ q ≤ 2147483647)
    (hu : u < 2 ^ d) : CoefFits (cdec cm q u) := by
  cases cm with
  | ident =>
    have : u < 2 ^ 31 := lt_of_lt_of_le hu (Nat.pow_le_pow_right (by omega) hd)
    simp only [CoefFits, cdec]
    omega
  | centered =>
    obtain ⟨h1, h2⟩ := hq rfl
    have := smod_bounds h1 (u : Int)
    simp only [CoefFits, cdec]
    omega

theorem decTimes_fits {f : List Byte → List (List Int) × List Byte} {blen : Nat} (hf : DecFits f blen) (cnt : Nat) :
    DecFits (decTimes blen f cnt) (cnt * blen) := by
  induction cnt with
  | zero => intro bs _ p hp; simp [decTimes] at hp
  | succ n ih =>
    intro bs hb p hp
    rw [Nat.succ_mul] at hb
    rcases List.mem_append.1 hp with hp | hp
    · exact hf _ (by simp only [List.length_take]; omega) p hp
    · exact ih _ (by simp only [List.length_drop]; omega) p hp

mutual

theorem Coder.dec_fits {q : Int} : ∀ c : Coder, c.Legal → (c.hasCentered = true → 1 ≤ q ∧ q ≤ 2147483647) → DecFits (c.dec q) c.blen
  | .bits d cm, hc, hq => fun bs hb p hp x hx => by
    obtain ⟨us, _, h2, h3, _⟩ := bitsDec_spec hc.1 cm q hb
    simp only [Coder.dec, List.mem_singleton] at hp
    rw [hp, h3] at hx
    obtain ⟨u, hu, rfl⟩ := List.mem_map.1 hx
    exact cdec_fits hc.2 (fun h => hq (by simp [Coder.hasCentered, h])) (h2 u hu)
  | .split es, hc, hq => Entries.dec_fits es hc.1 hq
  | .vec e cnt, hc, hq => decTimes_fits (Coder.dec_fits e hc.1 hq) cnt

theorem Entries.dec_fits {q : Int} : ∀ es : Entries, es.Legal → (es.hasCentered = true → 1 ≤ q ∧ q ≤ 2147483647) →
    DecFits (es.dec q) es.blen
  | .nil, _, _ => fun _ _ p hp => by simp [Entries.dec] at hp
  | .raw n es, hc, hq => fun bs hb p hp => by
    simp only [Entries.blen] at hb
    exact Entries.dec_fits es hc.2 hq (bs.drop n) (by simp only [List.length_drop]; omega) p hp
  | .nested c es, hc, hq => fun bs hb p hp => by
    simp only [Entries.blen] at hb
    simp only [Entries.hasCentered, Bool.or_eq_true] at hq
    rcases List.mem_append.1 hp with hp | hp
    · exact Coder.dec_fits c hc.1 (fun h => hq (.inl h)) _ (by simp only [List.length_take]; omega) p hp
    · exact Entries.dec_fits es hc.2 (fun h => hq (.inr h)) _ (by simp only [List.length_drop]; omega) p hp

end

/-! ### Each part is encoded from its own part of the value -/

/-- `f` looks only at the polynomials and raw bytes it consumes. -/
def EncLocal (f : List (List Int) → List Byte → List Byte × List (List Int) × List Byte) (npoly nraw : Nat) : Prop :=
  ∀ polys raws n m, Enough npoly nraw polys raws → npoly ≤ n → nraw ≤ m →
    (f (polys.take n) (raws.take m)).1 = (f polys raws).1

theorem Enough.take {npoly nraw n m : Nat} {polys : List (List Int)} {raws : List Byte} (h : Enough npoly nraw polys raws)
    (hn : npoly ≤ n) (hm : nraw ≤ m) : Enough npoly nraw (polys.take n) (raws.take m) := by
  obtain ⟨h1, h2, h3⟩ := h
  exact ⟨by simp only [List.length_take]; omega, h2.take n, by simp only [List.length_take]; omega⟩

theorem Enough.left {a b a' b' : Nat} {polys : List (List Int)} {raws : List Byte} (h : Enough (a + b) (a' + b') polys raws) :
    Enough a a' polys raws := ⟨by have := h.1; omega, h.2.1, by have := h.2.2; omega⟩

theorem Enough.right {a b a' b' : Nat} {polys : List (List Int)} {raws : List Byte} (h : Enough (a + b) (a' + b') polys raws) :
    Enough b b' (polys.drop a) (raws.drop a') :=
  ⟨by have := h.1; simp only [List.length_drop]; omega, h.2.1.drop a, by have := h.2.2; simp only [List.length_drop]; omega⟩

theorem encTimes_local {f : List (List Int) → List Byte → List Byte × List (List Int) × List Byte} {blen npoly nraw : Nat}
    (he : EncExact f blen npoly nraw) (hf : EncLocal f npoly nraw) (cnt : Nat) :
    EncLocal (encTimes f cnt) (cnt * npoly) (cnt * nraw) := by
  induction cnt with
  | zero => intro polys raws n m _ _ _; rfl
  | succ k ih =>
    intro polys raws n m h hn hm
    rw [Nat.succ_mul, Nat.add_comm] at hn hm
    rw [Nat.succ_mul, Nat.succ_mul, Nat.add_comm (k * npoly), Nat.add_comm (k * nraw)] at h
    simp only [encTimes, (he polys raws h.left).2, (he _ _ (h.left.take (n := n) (m := m) (by omega) (by omega))).2,
      hf polys raws n m h.left (by omega) (by omega), List.drop_take]
    rw [ih _ _ _ _ h.right (by omega) (by omega)]

mutual

theorem Coder.enc_local (q : Int) : ∀ c : Coder, EncLocal (c.enc q) c.npoly c.nraw
  | .bits d cm => fun polys raws n m ⟨h1, _, _⟩ hn _ => by
    simp only [Coder.npoly] at h1 hn
    cases polys with
    | nil => simp at h1
    | cons p ps =>
      obtain ⟨n, rfl⟩ : ∃ k, n = k + 1 := ⟨n - 1, by omega⟩
      rfl
  | .split es => Entries.enc_local q es
  | .vec e cnt => encTimes_local (Coder.enc_exact q e) (Coder.enc_local q e) cnt

theorem Entries.enc_local (q : Int) : ∀ es : Entries, EncLocal (es.enc q) es.npoly es.nraw
  | .nil => fun _ _ _ _ _ _ _ => rfl
  | .raw k es => fun polys raws n m h hn hm => by
    simp only [Entries.npoly, Entries.nraw] at h hn hm
    have h' : Enough (0 + es.npoly) (k + es.nraw) polys raws := by rwa [Nat.zero_add]
    simp only [Entries.enc, List.drop_take, List.take_take, Nat.min_eq_left (show k ≤ m by omega)]
    rw [Entries.enc_local q es polys (raws.drop k) n (m - k) h'.right hn (by omega)]
  | .nested c es => fun polys raws n m h hn hm => by
    simp only [Entries.npoly, Entries.nraw] at h hn hm
    simp only [Entries.enc, (Coder.enc_exact q c polys raws h.left).2,
      (Coder.enc_exact q c _ _ (h.left.take (n := n) (m := m) (by omega) (by omega))).2,
      Coder.enc_local q c polys raws n m h.left (by omega) (by omega), List.drop_take]
    rw [Entries.enc_local q es _ _ _ _ h.right (by omega) (by omega)]

end

/-! ### Round trip -/

/-- `dec` undoes `enc` on the part of a value that lies in the domain. `dom` is the domain of the part. -/
def RoundTrip (enc : List (List Int) → List Byte → List Byte × List (List Int) × List Byte)
    (dec : List Byte → List (List Int) × List Byte) (dom : List (List Int) → Prop) (npoly nraw : Nat) : Prop :=
  ∀ polys raws, Enough npoly nraw polys raws → dom (polys.take npoly) →
    dec (enc polys raws).1 = (polys.take npoly, raws.take nraw)

theorem encTimes_roundTrip {enc : List (List Int) → List Byte → List Byte × List (List Int) × List Byte}
    {dec : List Byte → List (List Int) × List Byte} {dom : List (List Int) → Prop} {blen npoly nraw : Nat}
    (he : EncExact enc blen npoly nraw) (hr : RoundTrip enc dec dom npoly nraw) (cnt : Nat) :
    RoundTrip (encTimes enc cnt) (decTimes blen dec cnt) (fun ps => ∀ i, i < cnt → dom ((ps.drop (i * npoly)).take npoly))
      (cnt * npoly) (cnt * nraw) := by
  induction cnt with
  | zero => intro polys raws _ _; simp [decTimes]
  | succ n ih =>
    intro polys raws ⟨h1, h2, h3⟩ hd
    simp only [Nat.succ_mul] at h1 h3 hd ⊢
    obtain ⟨f1, f2⟩ := he polys raws ⟨by omega, h2, by omega⟩
    have hd0 : dom (polys.take npoly) := by
      have := hd 0 (by omega)
      simpa [List.take_take] using this
    have hr0 := hr polys raws ⟨by omega, h2, by omega⟩ hd0
    have hi := ih (polys.drop npoly) (raws.drop nraw)
      ⟨by simp only [List.length_drop]; omega, h2.drop _, by simp only [List.length_drop]; omega⟩ (fun i hi => by
        have := hd (i + 1) (by omega)
        rw [Nat.succ_mul] at this
        simp only [List.drop_take, List.drop_drop] at this ⊢
        rwa [show n * npoly + npoly - (i * npoly + npoly) = n * npoly - i * npoly by omega, Nat.add_comm (i * npoly)] at this)
    simp only [encTimes, decTimes, f2]
    rw [List.take_left' f1, List.drop_left' f1, hr0, hi, Nat.add_comm (n * npoly), Nat.add_comm (n * nraw), List.take_add, List.take_add]

mutual

/-- Rule R185: `dec` undoes `enc`. -/
theorem Coder.roundTrip (q : Int) : ∀ c : Coder, c.Legal → RoundTrip (c.enc q) (c.dec q) (c.InDomain q) c.npoly c.nraw
  | .bits d cm, hc => fun polys raws ⟨h1, _, _⟩ hd => by
    cases polys with
    | nil => simp [Coder.npoly] at h1
    | cons p ps =>
      simp only [Coder.npoly, List.take_succ_cons, List.take_zero, Coder.InDomain, List.headD_cons] at hd
      simp [Coder.enc, Coder.dec, Coder.npoly, Coder.nraw, bitsDec_bitsEnc hc.1 hd.1 hd.2]
  | .split es, hc => fun polys raws he hd => Entries.roundTrip q es hc.1 polys raws he (by simpa [Coder.InDomain, Coder.npoly] using hd)
  | .vec e cnt, hc => fun polys raws he hd => by
    have := encTimes_roundTrip (Coder.enc_exact q e) (Coder.roundTrip q e hc.1) cnt polys raws he
      (by simpa [Coder.InDomain, Coder.npoly] using hd)
    simpa [Coder.enc, Coder.dec, Coder.npoly, Coder.nraw] using this

theorem Entries.roundTrip (q : Int) : ∀ es : Entries, es.Legal → RoundTrip (es.enc q) (es.dec q) (es.InDomain q) es.npoly es.nraw
  | .nil, _ => fun polys raws _ _ => by simp [Entries.dec, Entries.npoly, Entries.nraw]
  | .raw n es, hc => fun polys raws ⟨h1, h2, h3⟩ hd => by
    simp only [Entries.npoly, Entries.nraw, Entries.InDomain] at h1 h3 hd ⊢
    have hl : (raws.take n).length = n := by simp only [List.length_take]; omega
    have := Entries.roundTrip q es hc.2 polys (raws.drop n) ⟨h1, h2, by simp only [List.length_drop]; omega⟩ hd
    simp only [Entries.enc, Entries.dec, List.drop_left' hl, List.take_left' hl, this, List.take_add]
  | .nested c es, hc => fun polys raws ⟨h1, h2, h3⟩ hd => by
    simp only [Entries.npoly, Entries.nraw, Entries.InDomain, List.take_take, List.drop_take, Nat.add_sub_cancel_left,
      Nat.min_eq_left (Nat.le_add_right _ _)] at h1 h3 hd ⊢
    obtain ⟨f1, f2⟩ := Coder.enc_exact q c polys raws ⟨by omega, h2, by omega⟩
    have hr := Coder.roundTrip q c hc.1 polys raws ⟨by omega, h2, by omega⟩ hd.1
    have hs := Entries.roundTrip q es hc.2 (polys.drop c.npoly) (raws.drop c.nraw)
      ⟨by simp only [List.length_drop]; omega, h2.drop _, by simp only [List.length_drop]; omega⟩ hd.2
    simp only [Entries.enc, Entries.dec, f2, List.drop_left' f1, List.take_left' f1, hr, hs, List.take_add]

end

end Sys2Proof.Machine
end

