-- ==== Sys2Proof/Laws/State.lean ====
section
/-! SUPPORT. What each named update of the state does to each field, so that no proof unfolds a record update. -/

namespace Sys2Proof.Machine

section
variable (s : State)

@[simp] theorem State.setQ_q (v : Word) : (s.setQ v).q = v := rfl
@[simp] theorem State.setQ_f (v : Word) : (s.setQ v).f = s.f := rfl
@[simp] theorem State.setQ_root (v : Word) : (s.setQ v).root = s.root := rfl
@[simp] theorem State.setQ_inc (v : Word) : (s.setQ v).inc = s.inc := rfl
@[simp] theorem State.setQ_brv (v : Word) : (s.setQ v).brv = s.brv := rfl
@[simp] theorem State.setQ_err (v : Word) : (s.setQ v).err = s.err := rfl
@[simp] theorem State.setQ_sticky (v : Word) : (s.setQ v).sticky = s.sticky := rfl
@[simp] theorem State.setQ_zvalid (v : Word) : (s.setQ v).zvalid = s.zvalid := rfl
@[simp] theorem State.setQ_ecmd (v : Word) : (s.setQ v).ecmd = s.ecmd := rfl
@[simp] theorem State.setQ_x0 (v : Word) : (s.setQ v).x0 = s.x0 := rfl
@[simp] theorem State.setQ_x1 (v : Word) : (s.setQ v).x1 = s.x1 := rfl
@[simp] theorem State.setQ_x2 (v : Word) : (s.setQ v).x2 = s.x2 := rfl
@[simp] theorem State.setQ_x3 (v : Word) : (s.setQ v).x3 = s.x3 := rfl
@[simp] theorem State.setQ_res (v : Word) : (s.setQ v).res = s.res := rfl
@[simp] theorem State.setQ_zeta (v : Word) : (s.setQ v).zeta = s.zeta := rfl
@[simp] theorem State.setQ_poly (v : Word) : (s.setQ v).poly = s.poly := rfl
@[simp] theorem State.setQ_bytes (v : Word) : (s.setQ v).bytes = s.bytes := rfl
@[simp] theorem State.setQ_desc (v : Word) : (s.setQ v).desc = s.desc := rfl
@[simp] theorem State.setQ_scratch (v : Word) : (s.setQ v).scratch = s.scratch := rfl
@[simp] theorem State.setQ_bitAcc (v : Word) : (s.setQ v).bitAcc = s.bitAcc := rfl
@[simp] theorem State.setQ_nttTmp (v : Word) : (s.setQ v).nttTmp = s.nttTmp := rfl
@[simp] theorem State.setQ_pending (v : Word) : (s.setQ v).pending = s.pending := rfl
@[simp] theorem State.setQ_readValue (v : Word) : (s.setQ v).readValue = s.readValue := rfl

@[simp] theorem State.setF_q (v : Word) : (s.setF v).q = s.q := rfl
@[simp] theorem State.setF_f (v : Word) : (s.setF v).f = v := rfl
@[simp] theorem State.setF_root (v : Word) : (s.setF v).root = s.root := rfl
@[simp] theorem State.setF_inc (v : Word) : (s.setF v).inc = s.inc := rfl
@[simp] theorem State.setF_brv (v : Word) : (s.setF v).brv = s.brv := rfl
@[simp] theorem State.setF_err (v : Word) : (s.setF v).err = s.err := rfl
@[simp] theorem State.setF_sticky (v : Word) : (s.setF v).sticky = s.sticky := rfl
@[simp] theorem State.setF_zvalid (v : Word) : (s.setF v).zvalid = s.zvalid := rfl
@[simp] theorem State.setF_ecmd (v : Word) : (s.setF v).ecmd = s.ecmd := rfl
@[simp] theorem State.setF_x0 (v : Word) : (s.setF v).x0 = s.x0 := rfl
@[simp] theorem State.setF_x1 (v : Word) : (s.setF v).x1 = s.x1 := rfl
@[simp] theorem State.setF_x2 (v : Word) : (s.setF v).x2 = s.x2 := rfl
@[simp] theorem State.setF_x3 (v : Word) : (s.setF v).x3 = s.x3 := rfl
@[simp] theorem State.setF_res (v : Word) : (s.setF v).res = s.res := rfl
@[simp] theorem State.setF_zeta (v : Word) : (s.setF v).zeta = s.zeta := rfl
@[simp] theorem State.setF_poly (v : Word) : (s.setF v).poly = s.poly := rfl
@[simp] theorem State.setF_bytes (v : Word) : (s.setF v).bytes = s.bytes := rfl
@[simp] theorem State.setF_desc (v : Word) : (s.setF v).desc = s.desc := rfl
@[simp] theorem State.setF_scratch (v : Word) : (s.setF v).scratch = s.scratch := rfl
@[simp] theorem State.setF_bitAcc (v : Word) : (s.setF v).bitAcc = s.bitAcc := rfl
@[simp] theorem State.setF_nttTmp (v : Word) : (s.setF v).nttTmp = s.nttTmp := rfl
@[simp] theorem State.setF_pending (v : Word) : (s.setF v).pending = s.pending := rfl
@[simp] theorem State.setF_readValue (v : Word) : (s.setF v).readValue = s.readValue := rfl

@[simp] theorem State.setRoot_q (v : Word) : (s.setRoot v).q = s.q := rfl
@[simp] theorem State.setRoot_f (v : Word) : (s.setRoot v).f = s.f := rfl
@[simp] theorem State.setRoot_root (v : Word) : (s.setRoot v).root = v := rfl
@[simp] theorem State.setRoot_inc (v : Word) : (s.setRoot v).inc = s.inc := rfl
@[simp] theorem State.setRoot_brv (v : Word) : (s.setRoot v).brv = s.brv := rfl
@[simp] theorem State.setRoot_err (v : Word) : (s.setRoot v).err = s.err := rfl
@[simp] theorem State.setRoot_sticky (v : Word) : (s.setRoot v).sticky = s.sticky := rfl
@[simp] theorem State.setRoot_zvalid (v : Word) : (s.setRoot v).zvalid = s.zvalid := rfl
@[simp] theorem State.setRoot_ecmd (v : Word) : (s.setRoot v).ecmd = s.ecmd := rfl
@[simp] theorem State.setRoot_x0 (v : Word) : (s.setRoot v).x0 = s.x0 := rfl
@[simp] theorem State.setRoot_x1 (v : Word) : (s.setRoot v).x1 = s.x1 := rfl
@[simp] theorem State.setRoot_x2 (v : Word) : (s.setRoot v).x2 = s.x2 := rfl
@[simp] theorem State.setRoot_x3 (v : Word) : (s.setRoot v).x3 = s.x3 := rfl
@[simp] theorem State.setRoot_res (v : Word) : (s.setRoot v).res = s.res := rfl
@[simp] theorem State.setRoot_zeta (v : Word) : (s.setRoot v).zeta = s.zeta := rfl
@[simp] theorem State.setRoot_poly (v : Word) : (s.setRoot v).poly = s.poly := rfl
@[simp] theorem State.setRoot_bytes (v : Word) : (s.setRoot v).bytes = s.bytes := rfl
@[simp] theorem State.setRoot_desc (v : Word) : (s.setRoot v).desc = s.desc := rfl
@[simp] theorem State.setRoot_scratch (v : Word) : (s.setRoot v).scratch = s.scratch := rfl
@[simp] theorem State.setRoot_bitAcc (v : Word) : (s.setRoot v).bitAcc = s.bitAcc := rfl
@[simp] theorem State.setRoot_nttTmp (v : Word) : (s.setRoot v).nttTmp = s.nttTmp := rfl
@[simp] theorem State.setRoot_pending (v : Word) : (s.setRoot v).pending = s.pending := rfl
@[simp] theorem State.setRoot_readValue (v : Word) : (s.setRoot v).readValue = s.readValue := rfl

@[simp] theorem State.setCtrl_q (a : Bool) (b : BitVec 4) : (s.setCtrl a b).q = s.q := rfl
@[simp] theorem State.setCtrl_f (a : Bool) (b : BitVec 4) : (s.setCtrl a b).f = s.f := rfl
@[simp] theorem State.setCtrl_root (a : Bool) (b : BitVec 4) : (s.setCtrl a b).root = s.root := rfl
@[simp] theorem State.setCtrl_inc (a : Bool) (b : BitVec 4) : (s.setCtrl a b).inc = a := rfl
@[simp] theorem State.setCtrl_brv (a : Bool) (b : BitVec 4) : (s.setCtrl a b).brv = b := rfl
@[simp] theorem State.setCtrl_err (a : Bool) (b : BitVec 4) : (s.setCtrl a b).err = s.err := rfl
@[simp] theorem State.setCtrl_sticky (a : Bool) (b : BitVec 4) : (s.setCtrl a b).sticky = s.sticky := rfl
@[simp] theorem State.setCtrl_zvalid (a : Bool) (b : BitVec 4) : (s.setCtrl a b).zvalid = s.zvalid := rfl
@[simp] theorem State.setCtrl_ecmd (a : Bool) (b : BitVec 4) : (s.setCtrl a b).ecmd = s.ecmd := rfl
@[simp] theorem State.setCtrl_x0 (a : Bool) (b : BitVec 4) : (s.setCtrl a b).x0 = s.x0 := rfl
@[simp] theorem State.setCtrl_x1 (a : Bool) (b : BitVec 4) : (s.setCtrl a b).x1 = s.x1 := rfl
@[simp] theorem State.setCtrl_x2 (a : Bool) (b : BitVec 4) : (s.setCtrl a b).x2 = s.x2 := rfl
@[simp] theorem State.setCtrl_x3 (a : Bool) (b : BitVec 4) : (s.setCtrl a b).x3 = s.x3 := rfl
@[simp] theorem State.setCtrl_res (a : Bool) (b : BitVec 4) : (s.setCtrl a b).res = s.res := rfl
@[simp] theorem State.setCtrl_zeta (a : Bool) (b : BitVec 4) : (s.setCtrl a b).zeta = s.zeta := rfl
@[simp] theorem State.setCtrl_poly (a : Bool) (b : BitVec 4) : (s.setCtrl a b).poly = s.poly := rfl
@[simp] theorem State.setCtrl_bytes (a : Bool) (b : BitVec 4) : (s.setCtrl a b).bytes = s.bytes := rfl
@[simp] theorem State.setCtrl_desc (a : Bool) (b : BitVec 4) : (s.setCtrl a b).desc = s.desc := rfl
@[simp] theorem State.setCtrl_scratch (a : Bool) (b : BitVec 4) : (s.setCtrl a b).scratch = s.scratch := rfl
@[simp] theorem State.setCtrl_bitAcc (a : Bool) (b : BitVec 4) : (s.setCtrl a b).bitAcc = s.bitAcc := rfl
@[simp] theorem State.setCtrl_nttTmp (a : Bool) (b : BitVec 4) : (s.setCtrl a b).nttTmp = s.nttTmp := rfl
@[simp] theorem State.setCtrl_pending (a : Bool) (b : BitVec 4) : (s.setCtrl a b).pending = s.pending := rfl
@[simp] theorem State.setCtrl_readValue (a : Bool) (b : BitVec 4) : (s.setCtrl a b).readValue = s.readValue := rfl

@[simp] theorem State.setSticky_q (v : Bool) : (s.setSticky v).q = s.q := rfl
@[simp] theorem State.setSticky_f (v : Bool) : (s.setSticky v).f = s.f := rfl
@[simp] theorem State.setSticky_root (v : Bool) : (s.setSticky v).root = s.root := rfl
@[simp] theorem State.setSticky_inc (v : Bool) : (s.setSticky v).inc = s.inc := rfl
@[simp] theorem State.setSticky_brv (v : Bool) : (s.setSticky v).brv = s.brv := rfl
@[simp] theorem State.setSticky_err (v : Bool) : (s.setSticky v).err = s.err := rfl
@[simp] theorem State.setSticky_sticky (v : Bool) : (s.setSticky v).sticky = v := rfl
@[simp] theorem State.setSticky_zvalid (v : Bool) : (s.setSticky v).zvalid = s.zvalid := rfl
@[simp] theorem State.setSticky_ecmd (v : Bool) : (s.setSticky v).ecmd = s.ecmd := rfl
@[simp] theorem State.setSticky_x0 (v : Bool) : (s.setSticky v).x0 = s.x0 := rfl
@[simp] theorem State.setSticky_x1 (v : Bool) : (s.setSticky v).x1 = s.x1 := rfl
@[simp] theorem State.setSticky_x2 (v : Bool) : (s.setSticky v).x2 = s.x2 := rfl
@[simp] theorem State.setSticky_x3 (v : Bool) : (s.setSticky v).x3 = s.x3 := rfl
@[simp] theorem State.setSticky_res (v : Bool) : (s.setSticky v).res = s.res := rfl
@[simp] theorem State.setSticky_zeta (v : Bool) : (s.setSticky v).zeta = s.zeta := rfl
@[simp] theorem State.setSticky_poly (v : Bool) : (s.setSticky v).poly = s.poly := rfl
@[simp] theorem State.setSticky_bytes (v : Bool) : (s.setSticky v).bytes = s.bytes := rfl
@[simp] theorem State.setSticky_desc (v : Bool) : (s.setSticky v).desc = s.desc := rfl
@[simp] theorem State.setSticky_scratch (v : Bool) : (s.setSticky v).scratch = s.scratch := rfl
@[simp] theorem State.setSticky_bitAcc (v : Bool) : (s.setSticky v).bitAcc = s.bitAcc := rfl
@[simp] theorem State.setSticky_nttTmp (v : Bool) : (s.setSticky v).nttTmp = s.nttTmp := rfl
@[simp] theorem State.setSticky_pending (v : Bool) : (s.setSticky v).pending = s.pending := rfl
@[simp] theorem State.setSticky_readValue (v : Bool) : (s.setSticky v).readValue = s.readValue := rfl

@[simp] theorem State.setZvalid_q (v : Bool) : (s.setZvalid v).q = s.q := rfl
@[simp] theorem State.setZvalid_f (v : Bool) : (s.setZvalid v).f = s.f := rfl
@[simp] theorem State.setZvalid_root (v : Bool) : (s.setZvalid v).root = s.root := rfl
@[simp] theorem State.setZvalid_inc (v : Bool) : (s.setZvalid v).inc = s.inc := rfl
@[simp] theorem State.setZvalid_brv (v : Bool) : (s.setZvalid v).brv = s.brv := rfl
@[simp] theorem State.setZvalid_err (v : Bool) : (s.setZvalid v).err = s.err := rfl
@[simp] theorem State.setZvalid_sticky (v : Bool) : (s.setZvalid v).sticky = s.sticky := rfl
@[simp] theorem State.setZvalid_zvalid (v : Bool) : (s.setZvalid v).zvalid = v := rfl
@[simp] theorem State.setZvalid_ecmd (v : Bool) : (s.setZvalid v).ecmd = s.ecmd := rfl
@[simp] theorem State.setZvalid_x0 (v : Bool) : (s.setZvalid v).x0 = s.x0 := rfl
@[simp] theorem State.setZvalid_x1 (v : Bool) : (s.setZvalid v).x1 = s.x1 := rfl
@[simp] theorem State.setZvalid_x2 (v : Bool) : (s.setZvalid v).x2 = s.x2 := rfl
@[simp] theorem State.setZvalid_x3 (v : Bool) : (s.setZvalid v).x3 = s.x3 := rfl
@[simp] theorem State.setZvalid_res (v : Bool) : (s.setZvalid v).res = s.res := rfl
@[simp] theorem State.setZvalid_zeta (v : Bool) : (s.setZvalid v).zeta = s.zeta := rfl
@[simp] theorem State.setZvalid_poly (v : Bool) : (s.setZvalid v).poly = s.poly := rfl
@[simp] theorem State.setZvalid_bytes (v : Bool) : (s.setZvalid v).bytes = s.bytes := rfl
@[simp] theorem State.setZvalid_desc (v : Bool) : (s.setZvalid v).desc = s.desc := rfl
@[simp] theorem State.setZvalid_scratch (v : Bool) : (s.setZvalid v).scratch = s.scratch := rfl
@[simp] theorem State.setZvalid_bitAcc (v : Bool) : (s.setZvalid v).bitAcc = s.bitAcc := rfl
@[simp] theorem State.setZvalid_nttTmp (v : Bool) : (s.setZvalid v).nttTmp = s.nttTmp := rfl
@[simp] theorem State.setZvalid_pending (v : Bool) : (s.setZvalid v).pending = s.pending := rfl
@[simp] theorem State.setZvalid_readValue (v : Bool) : (s.setZvalid v).readValue = s.readValue := rfl

@[simp] theorem State.setX0_q (v : Long) : (s.setX0 v).q = s.q := rfl
@[simp] theorem State.setX0_f (v : Long) : (s.setX0 v).f = s.f := rfl
@[simp] theorem State.setX0_root (v : Long) : (s.setX0 v).root = s.root := rfl
@[simp] theorem State.setX0_inc (v : Long) : (s.setX0 v).inc = s.inc := rfl
@[simp] theorem State.setX0_brv (v : Long) : (s.setX0 v).brv = s.brv := rfl
@[simp] theorem State.setX0_err (v : Long) : (s.setX0 v).err = s.err := rfl
@[simp] theorem State.setX0_sticky (v : Long) : (s.setX0 v).sticky = s.sticky := rfl
@[simp] theorem State.setX0_zvalid (v : Long) : (s.setX0 v).zvalid = s.zvalid := rfl
@[simp] theorem State.setX0_ecmd (v : Long) : (s.setX0 v).ecmd = s.ecmd := rfl
@[simp] theorem State.setX0_x0 (v : Long) : (s.setX0 v).x0 = v := rfl
@[simp] theorem State.setX0_x1 (v : Long) : (s.setX0 v).x1 = s.x1 := rfl
@[simp] theorem State.setX0_x2 (v : Long) : (s.setX0 v).x2 = s.x2 := rfl
@[simp] theorem State.setX0_x3 (v : Long) : (s.setX0 v).x3 = s.x3 := rfl
@[simp] theorem State.setX0_res (v : Long) : (s.setX0 v).res = s.res := rfl
@[simp] theorem State.setX0_zeta (v : Long) : (s.setX0 v).zeta = s.zeta := rfl
@[simp] theorem State.setX0_poly (v : Long) : (s.setX0 v).poly = s.poly := rfl
@[simp] theorem State.setX0_bytes (v : Long) : (s.setX0 v).bytes = s.bytes := rfl
@[simp] theorem State.setX0_desc (v : Long) : (s.setX0 v).desc = s.desc := rfl
@[simp] theorem State.setX0_scratch (v : Long) : (s.setX0 v).scratch = s.scratch := rfl
@[simp] theorem State.setX0_bitAcc (v : Long) : (s.setX0 v).bitAcc = s.bitAcc := rfl
@[simp] theorem State.setX0_nttTmp (v : Long) : (s.setX0 v).nttTmp = s.nttTmp := rfl
@[simp] theorem State.setX0_pending (v : Long) : (s.setX0 v).pending = s.pending := rfl
@[simp] theorem State.setX0_readValue (v : Long) : (s.setX0 v).readValue = s.readValue := rfl

@[simp] theorem State.setX1_q (v : Long) : (s.setX1 v).q = s.q := rfl
@[simp] theorem State.setX1_f (v : Long) : (s.setX1 v).f = s.f := rfl
@[simp] theorem State.setX1_root (v : Long) : (s.setX1 v).root = s.root := rfl
@[simp] theorem State.setX1_inc (v : Long) : (s.setX1 v).inc = s.inc := rfl
@[simp] theorem State.setX1_brv (v : Long) : (s.setX1 v).brv = s.brv := rfl
@[simp] theorem State.setX1_err (v : Long) : (s.setX1 v).err = s.err := rfl
@[simp] theorem State.setX1_sticky (v : Long) : (s.setX1 v).sticky = s.sticky := rfl
@[simp] theorem State.setX1_zvalid (v : Long) : (s.setX1 v).zvalid = s.zvalid := rfl
@[simp] theorem State.setX1_ecmd (v : Long) : (s.setX1 v).ecmd = s.ecmd := rfl
@[simp] theorem State.setX1_x0 (v : Long) : (s.setX1 v).x0 = s.x0 := rfl
@[simp] theorem State.setX1_x1 (v : Long) : (s.setX1 v).x1 = v := rfl
@[simp] theorem State.setX1_x2 (v : Long) : (s.setX1 v).x2 = s.x2 := rfl
@[simp] theorem State.setX1_x3 (v : Long) : (s.setX1 v).x3 = s.x3 := rfl
@[simp] theorem State.setX1_res (v : Long) : (s.setX1 v).res = s.res := rfl
@[simp] theorem State.setX1_zeta (v : Long) : (s.setX1 v).zeta = s.zeta := rfl
@[simp] theorem State.setX1_poly (v : Long) : (s.setX1 v).poly = s.poly := rfl
@[simp] theorem State.setX1_bytes (v : Long) : (s.setX1 v).bytes = s.bytes := rfl
@[simp] theorem State.setX1_desc (v : Long) : (s.setX1 v).desc = s.desc := rfl
@[simp] theorem State.setX1_scratch (v : Long) : (s.setX1 v).scratch = s.scratch := rfl
@[simp] theorem State.setX1_bitAcc (v : Long) : (s.setX1 v).bitAcc = s.bitAcc := rfl
@[simp] theorem State.setX1_nttTmp (v : Long) : (s.setX1 v).nttTmp = s.nttTmp := rfl
@[simp] theorem State.setX1_pending (v : Long) : (s.setX1 v).pending = s.pending := rfl
@[simp] theorem State.setX1_readValue (v : Long) : (s.setX1 v).readValue = s.readValue := rfl

@[simp] theorem State.setX2_q (v : Long) : (s.setX2 v).q = s.q := rfl
@[simp] theorem State.setX2_f (v : Long) : (s.setX2 v).f = s.f := rfl
@[simp] theorem State.setX2_root (v : Long) : (s.setX2 v).root = s.root := rfl
@[simp] theorem State.setX2_inc (v : Long) : (s.setX2 v).inc = s.inc := rfl
@[simp] theorem State.setX2_brv (v : Long) : (s.setX2 v).brv = s.brv := rfl
@[simp] theorem State.setX2_err (v : Long) : (s.setX2 v).err = s.err := rfl
@[simp] theorem State.setX2_sticky (v : Long) : (s.setX2 v).sticky = s.sticky := rfl
@[simp] theorem State.setX2_zvalid (v : Long) : (s.setX2 v).zvalid = s.zvalid := rfl
@[simp] theorem State.setX2_ecmd (v : Long) : (s.setX2 v).ecmd = s.ecmd := rfl
@[simp] theorem State.setX2_x0 (v : Long) : (s.setX2 v).x0 = s.x0 := rfl
@[simp] theorem State.setX2_x1 (v : Long) : (s.setX2 v).x1 = s.x1 := rfl
@[simp] theorem State.setX2_x2 (v : Long) : (s.setX2 v).x2 = v := rfl
@[simp] theorem State.setX2_x3 (v : Long) : (s.setX2 v).x3 = s.x3 := rfl
@[simp] theorem State.setX2_res (v : Long) : (s.setX2 v).res = s.res := rfl
@[simp] theorem State.setX2_zeta (v : Long) : (s.setX2 v).zeta = s.zeta := rfl
@[simp] theorem State.setX2_poly (v : Long) : (s.setX2 v).poly = s.poly := rfl
@[simp] theorem State.setX2_bytes (v : Long) : (s.setX2 v).bytes = s.bytes := rfl
@[simp] theorem State.setX2_desc (v : Long) : (s.setX2 v).desc = s.desc := rfl
@[simp] theorem State.setX2_scratch (v : Long) : (s.setX2 v).scratch = s.scratch := rfl
@[simp] theorem State.setX2_bitAcc (v : Long) : (s.setX2 v).bitAcc = s.bitAcc := rfl
@[simp] theorem State.setX2_nttTmp (v : Long) : (s.setX2 v).nttTmp = s.nttTmp := rfl
@[simp] theorem State.setX2_pending (v : Long) : (s.setX2 v).pending = s.pending := rfl
@[simp] theorem State.setX2_readValue (v : Long) : (s.setX2 v).readValue = s.readValue := rfl

@[simp] theorem State.setX3_q (v : Long) : (s.setX3 v).q = s.q := rfl
@[simp] theorem State.setX3_f (v : Long) : (s.setX3 v).f = s.f := rfl
@[simp] theorem State.setX3_root (v : Long) : (s.setX3 v).root = s.root := rfl
@[simp] theorem State.setX3_inc (v : Long) : (s.setX3 v).inc = s.inc := rfl
@[simp] theorem State.setX3_brv (v : Long) : (s.setX3 v).brv = s.brv := rfl
@[simp] theorem State.setX3_err (v : Long) : (s.setX3 v).err = s.err := rfl
@[simp] theorem State.setX3_sticky (v : Long) : (s.setX3 v).sticky = s.sticky := rfl
@[simp] theorem State.setX3_zvalid (v : Long) : (s.setX3 v).zvalid = s.zvalid := rfl
@[simp] theorem State.setX3_ecmd (v : Long) : (s.setX3 v).ecmd = s.ecmd := rfl
@[simp] theorem State.setX3_x0 (v : Long) : (s.setX3 v).x0 = s.x0 := rfl
@[simp] theorem State.setX3_x1 (v : Long) : (s.setX3 v).x1 = s.x1 := rfl
@[simp] theorem State.setX3_x2 (v : Long) : (s.setX3 v).x2 = s.x2 := rfl
@[simp] theorem State.setX3_x3 (v : Long) : (s.setX3 v).x3 = v := rfl
@[simp] theorem State.setX3_res (v : Long) : (s.setX3 v).res = s.res := rfl
@[simp] theorem State.setX3_zeta (v : Long) : (s.setX3 v).zeta = s.zeta := rfl
@[simp] theorem State.setX3_poly (v : Long) : (s.setX3 v).poly = s.poly := rfl
@[simp] theorem State.setX3_bytes (v : Long) : (s.setX3 v).bytes = s.bytes := rfl
@[simp] theorem State.setX3_desc (v : Long) : (s.setX3 v).desc = s.desc := rfl
@[simp] theorem State.setX3_scratch (v : Long) : (s.setX3 v).scratch = s.scratch := rfl
@[simp] theorem State.setX3_bitAcc (v : Long) : (s.setX3 v).bitAcc = s.bitAcc := rfl
@[simp] theorem State.setX3_nttTmp (v : Long) : (s.setX3 v).nttTmp = s.nttTmp := rfl
@[simp] theorem State.setX3_pending (v : Long) : (s.setX3 v).pending = s.pending := rfl
@[simp] theorem State.setX3_readValue (v : Long) : (s.setX3 v).readValue = s.readValue := rfl

@[simp] theorem State.setRes_q (v : Int) : (s.setRes v).q = s.q := rfl
@[simp] theorem State.setRes_f (v : Int) : (s.setRes v).f = s.f := rfl
@[simp] theorem State.setRes_root (v : Int) : (s.setRes v).root = s.root := rfl
@[simp] theorem State.setRes_inc (v : Int) : (s.setRes v).inc = s.inc := rfl
@[simp] theorem State.setRes_brv (v : Int) : (s.setRes v).brv = s.brv := rfl
@[simp] theorem State.setRes_err (v : Int) : (s.setRes v).err = s.err := rfl
@[simp] theorem State.setRes_sticky (v : Int) : (s.setRes v).sticky = s.sticky := rfl
@[simp] theorem State.setRes_zvalid (v : Int) : (s.setRes v).zvalid = s.zvalid := rfl
@[simp] theorem State.setRes_ecmd (v : Int) : (s.setRes v).ecmd = s.ecmd := rfl
@[simp] theorem State.setRes_x0 (v : Int) : (s.setRes v).x0 = s.x0 := rfl
@[simp] theorem State.setRes_x1 (v : Int) : (s.setRes v).x1 = s.x1 := rfl
@[simp] theorem State.setRes_x2 (v : Int) : (s.setRes v).x2 = s.x2 := rfl
@[simp] theorem State.setRes_x3 (v : Int) : (s.setRes v).x3 = s.x3 := rfl
@[simp] theorem State.setRes_res (v : Int) : (s.setRes v).res = BitVec.ofInt 64 v := rfl
@[simp] theorem State.setRes_zeta (v : Int) : (s.setRes v).zeta = s.zeta := rfl
@[simp] theorem State.setRes_poly (v : Int) : (s.setRes v).poly = s.poly := rfl
@[simp] theorem State.setRes_bytes (v : Int) : (s.setRes v).bytes = s.bytes := rfl
@[simp] theorem State.setRes_desc (v : Int) : (s.setRes v).desc = s.desc := rfl
@[simp] theorem State.setRes_scratch (v : Int) : (s.setRes v).scratch = s.scratch := rfl
@[simp] theorem State.setRes_bitAcc (v : Int) : (s.setRes v).bitAcc = s.bitAcc := rfl
@[simp] theorem State.setRes_nttTmp (v : Int) : (s.setRes v).nttTmp = s.nttTmp := rfl
@[simp] theorem State.setRes_pending (v : Int) : (s.setRes v).pending = s.pending := rfl
@[simp] theorem State.setRes_readValue (v : Int) : (s.setRes v).readValue = s.readValue := rfl

@[simp] theorem State.setZeta_q (m : Memory 32) : (s.setZeta m).q = s.q := rfl
@[simp] theorem State.setZeta_f (m : Memory 32) : (s.setZeta m).f = s.f := rfl
@[simp] theorem State.setZeta_root (m : Memory 32) : (s.setZeta m).root = s.root := rfl
@[simp] theorem State.setZeta_inc (m : Memory 32) : (s.setZeta m).inc = s.inc := rfl
@[simp] theorem State.setZeta_brv (m : Memory 32) : (s.setZeta m).brv = s.brv := rfl
@[simp] theorem State.setZeta_err (m : Memory 32) : (s.setZeta m).err = s.err := rfl
@[simp] theorem State.setZeta_sticky (m : Memory 32) : (s.setZeta m).sticky = s.sticky := rfl
@[simp] theorem State.setZeta_zvalid (m : Memory 32) : (s.setZeta m).zvalid = s.zvalid := rfl
@[simp] theorem State.setZeta_ecmd (m : Memory 32) : (s.setZeta m).ecmd = s.ecmd := rfl
@[simp] theorem State.setZeta_x0 (m : Memory 32) : (s.setZeta m).x0 = s.x0 := rfl
@[simp] theorem State.setZeta_x1 (m : Memory 32) : (s.setZeta m).x1 = s.x1 := rfl
@[simp] theorem State.setZeta_x2 (m : Memory 32) : (s.setZeta m).x2 = s.x2 := rfl
@[simp] theorem State.setZeta_x3 (m : Memory 32) : (s.setZeta m).x3 = s.x3 := rfl
@[simp] theorem State.setZeta_res (m : Memory 32) : (s.setZeta m).res = s.res := rfl
@[simp] theorem State.setZeta_zeta (m : Memory 32) : (s.setZeta m).zeta = m := rfl
@[simp] theorem State.setZeta_poly (m : Memory 32) : (s.setZeta m).poly = s.poly := rfl
@[simp] theorem State.setZeta_bytes (m : Memory 32) : (s.setZeta m).bytes = s.bytes := rfl
@[simp] theorem State.setZeta_desc (m : Memory 32) : (s.setZeta m).desc = s.desc := rfl
@[simp] theorem State.setZeta_scratch (m : Memory 32) : (s.setZeta m).scratch = s.scratch := rfl
@[simp] theorem State.setZeta_bitAcc (m : Memory 32) : (s.setZeta m).bitAcc = s.bitAcc := rfl
@[simp] theorem State.setZeta_nttTmp (m : Memory 32) : (s.setZeta m).nttTmp = s.nttTmp := rfl
@[simp] theorem State.setZeta_pending (m : Memory 32) : (s.setZeta m).pending = s.pending := rfl
@[simp] theorem State.setZeta_readValue (m : Memory 32) : (s.setZeta m).readValue = s.readValue := rfl

@[simp] theorem State.setPoly_q (m : Memory 32) : (s.setPoly m).q = s.q := rfl
@[simp] theorem State.setPoly_f (m : Memory 32) : (s.setPoly m).f = s.f := rfl
@[simp] theorem State.setPoly_root (m : Memory 32) : (s.setPoly m).root = s.root := rfl
@[simp] theorem State.setPoly_inc (m : Memory 32) : (s.setPoly m).inc = s.inc := rfl
@[simp] theorem State.setPoly_brv (m : Memory 32) : (s.setPoly m).brv = s.brv := rfl
@[simp] theorem State.setPoly_err (m : Memory 32) : (s.setPoly m).err = s.err := rfl
@[simp] theorem State.setPoly_sticky (m : Memory 32) : (s.setPoly m).sticky = s.sticky := rfl
@[simp] theorem State.setPoly_zvalid (m : Memory 32) : (s.setPoly m).zvalid = s.zvalid := rfl
@[simp] theorem State.setPoly_ecmd (m : Memory 32) : (s.setPoly m).ecmd = s.ecmd := rfl
@[simp] theorem State.setPoly_x0 (m : Memory 32) : (s.setPoly m).x0 = s.x0 := rfl
@[simp] theorem State.setPoly_x1 (m : Memory 32) : (s.setPoly m).x1 = s.x1 := rfl
@[simp] theorem State.setPoly_x2 (m : Memory 32) : (s.setPoly m).x2 = s.x2 := rfl
@[simp] theorem State.setPoly_x3 (m : Memory 32) : (s.setPoly m).x3 = s.x3 := rfl
@[simp] theorem State.setPoly_res (m : Memory 32) : (s.setPoly m).res = s.res := rfl
@[simp] theorem State.setPoly_zeta (m : Memory 32) : (s.setPoly m).zeta = s.zeta := rfl
@[simp] theorem State.setPoly_poly (m : Memory 32) : (s.setPoly m).poly = m := rfl
@[simp] theorem State.setPoly_bytes (m : Memory 32) : (s.setPoly m).bytes = s.bytes := rfl
@[simp] theorem State.setPoly_desc (m : Memory 32) : (s.setPoly m).desc = s.desc := rfl
@[simp] theorem State.setPoly_scratch (m : Memory 32) : (s.setPoly m).scratch = s.scratch := rfl
@[simp] theorem State.setPoly_bitAcc (m : Memory 32) : (s.setPoly m).bitAcc = s.bitAcc := rfl
@[simp] theorem State.setPoly_nttTmp (m : Memory 32) : (s.setPoly m).nttTmp = s.nttTmp := rfl
@[simp] theorem State.setPoly_pending (m : Memory 32) : (s.setPoly m).pending = s.pending := rfl
@[simp] theorem State.setPoly_readValue (m : Memory 32) : (s.setPoly m).readValue = s.readValue := rfl

@[simp] theorem State.setBytes_q (m : Memory 8) : (s.setBytes m).q = s.q := rfl
@[simp] theorem State.setBytes_f (m : Memory 8) : (s.setBytes m).f = s.f := rfl
@[simp] theorem State.setBytes_root (m : Memory 8) : (s.setBytes m).root = s.root := rfl
@[simp] theorem State.setBytes_inc (m : Memory 8) : (s.setBytes m).inc = s.inc := rfl
@[simp] theorem State.setBytes_brv (m : Memory 8) : (s.setBytes m).brv = s.brv := rfl
@[simp] theorem State.setBytes_err (m : Memory 8) : (s.setBytes m).err = s.err := rfl
@[simp] theorem State.setBytes_sticky (m : Memory 8) : (s.setBytes m).sticky = s.sticky := rfl
@[simp] theorem State.setBytes_zvalid (m : Memory 8) : (s.setBytes m).zvalid = s.zvalid := rfl
@[simp] theorem State.setBytes_ecmd (m : Memory 8) : (s.setBytes m).ecmd = s.ecmd := rfl
@[simp] theorem State.setBytes_x0 (m : Memory 8) : (s.setBytes m).x0 = s.x0 := rfl
@[simp] theorem State.setBytes_x1 (m : Memory 8) : (s.setBytes m).x1 = s.x1 := rfl
@[simp] theorem State.setBytes_x2 (m : Memory 8) : (s.setBytes m).x2 = s.x2 := rfl
@[simp] theorem State.setBytes_x3 (m : Memory 8) : (s.setBytes m).x3 = s.x3 := rfl
@[simp] theorem State.setBytes_res (m : Memory 8) : (s.setBytes m).res = s.res := rfl
@[simp] theorem State.setBytes_zeta (m : Memory 8) : (s.setBytes m).zeta = s.zeta := rfl
@[simp] theorem State.setBytes_poly (m : Memory 8) : (s.setBytes m).poly = s.poly := rfl
@[simp] theorem State.setBytes_bytes (m : Memory 8) : (s.setBytes m).bytes = m := rfl
@[simp] theorem State.setBytes_desc (m : Memory 8) : (s.setBytes m).desc = s.desc := rfl
@[simp] theorem State.setBytes_scratch (m : Memory 8) : (s.setBytes m).scratch = s.scratch := rfl
@[simp] theorem State.setBytes_bitAcc (m : Memory 8) : (s.setBytes m).bitAcc = s.bitAcc := rfl
@[simp] theorem State.setBytes_nttTmp (m : Memory 8) : (s.setBytes m).nttTmp = s.nttTmp := rfl
@[simp] theorem State.setBytes_pending (m : Memory 8) : (s.setBytes m).pending = s.pending := rfl
@[simp] theorem State.setBytes_readValue (m : Memory 8) : (s.setBytes m).readValue = s.readValue := rfl

@[simp] theorem State.setDesc_q (m : Memory 32) : (s.setDesc m).q = s.q := rfl
@[simp] theorem State.setDesc_f (m : Memory 32) : (s.setDesc m).f = s.f := rfl
@[simp] theorem State.setDesc_root (m : Memory 32) : (s.setDesc m).root = s.root := rfl
@[simp] theorem State.setDesc_inc (m : Memory 32) : (s.setDesc m).inc = s.inc := rfl
@[simp] theorem State.setDesc_brv (m : Memory 32) : (s.setDesc m).brv = s.brv := rfl
@[simp] theorem State.setDesc_err (m : Memory 32) : (s.setDesc m).err = s.err := rfl
@[simp] theorem State.setDesc_sticky (m : Memory 32) : (s.setDesc m).sticky = s.sticky := rfl
@[simp] theorem State.setDesc_zvalid (m : Memory 32) : (s.setDesc m).zvalid = s.zvalid := rfl
@[simp] theorem State.setDesc_ecmd (m : Memory 32) : (s.setDesc m).ecmd = s.ecmd := rfl
@[simp] theorem State.setDesc_x0 (m : Memory 32) : (s.setDesc m).x0 = s.x0 := rfl
@[simp] theorem State.setDesc_x1 (m : Memory 32) : (s.setDesc m).x1 = s.x1 := rfl
@[simp] theorem State.setDesc_x2 (m : Memory 32) : (s.setDesc m).x2 = s.x2 := rfl
@[simp] theorem State.setDesc_x3 (m : Memory 32) : (s.setDesc m).x3 = s.x3 := rfl
@[simp] theorem State.setDesc_res (m : Memory 32) : (s.setDesc m).res = s.res := rfl
@[simp] theorem State.setDesc_zeta (m : Memory 32) : (s.setDesc m).zeta = s.zeta := rfl
@[simp] theorem State.setDesc_poly (m : Memory 32) : (s.setDesc m).poly = s.poly := rfl
@[simp] theorem State.setDesc_bytes (m : Memory 32) : (s.setDesc m).bytes = s.bytes := rfl
@[simp] theorem State.setDesc_desc (m : Memory 32) : (s.setDesc m).desc = m := rfl
@[simp] theorem State.setDesc_scratch (m : Memory 32) : (s.setDesc m).scratch = s.scratch := rfl
@[simp] theorem State.setDesc_bitAcc (m : Memory 32) : (s.setDesc m).bitAcc = s.bitAcc := rfl
@[simp] theorem State.setDesc_nttTmp (m : Memory 32) : (s.setDesc m).nttTmp = s.nttTmp := rfl
@[simp] theorem State.setDesc_pending (m : Memory 32) : (s.setDesc m).pending = s.pending := rfl
@[simp] theorem State.setDesc_readValue (m : Memory 32) : (s.setDesc m).readValue = s.readValue := rfl

@[simp] theorem State.setPending_q (es : List HostEvent) : (s.setPending es).q = s.q := rfl
@[simp] theorem State.setPending_f (es : List HostEvent) : (s.setPending es).f = s.f := rfl
@[simp] theorem State.setPending_root (es : List HostEvent) : (s.setPending es).root = s.root := rfl
@[simp] theorem State.setPending_inc (es : List HostEvent) : (s.setPending es).inc = s.inc := rfl
@[simp] theorem State.setPending_brv (es : List HostEvent) : (s.setPending es).brv = s.brv := rfl
@[simp] theorem State.setPending_err (es : List HostEvent) : (s.setPending es).err = s.err := rfl
@[simp] theorem State.setPending_sticky (es : List HostEvent) : (s.setPending es).sticky = s.sticky := rfl
@[simp] theorem State.setPending_zvalid (es : List HostEvent) : (s.setPending es).zvalid = s.zvalid := rfl
@[simp] theorem State.setPending_ecmd (es : List HostEvent) : (s.setPending es).ecmd = s.ecmd := rfl
@[simp] theorem State.setPending_x0 (es : List HostEvent) : (s.setPending es).x0 = s.x0 := rfl
@[simp] theorem State.setPending_x1 (es : List HostEvent) : (s.setPending es).x1 = s.x1 := rfl
@[simp] theorem State.setPending_x2 (es : List HostEvent) : (s.setPending es).x2 = s.x2 := rfl
@[simp] theorem State.setPending_x3 (es : List HostEvent) : (s.setPending es).x3 = s.x3 := rfl
@[simp] theorem State.setPending_res (es : List HostEvent) : (s.setPending es).res = s.res := rfl
@[simp] theorem State.setPending_zeta (es : List HostEvent) : (s.setPending es).zeta = s.zeta := rfl
@[simp] theorem State.setPending_poly (es : List HostEvent) : (s.setPending es).poly = s.poly := rfl
@[simp] theorem State.setPending_bytes (es : List HostEvent) : (s.setPending es).bytes = s.bytes := rfl
@[simp] theorem State.setPending_desc (es : List HostEvent) : (s.setPending es).desc = s.desc := rfl
@[simp] theorem State.setPending_scratch (es : List HostEvent) : (s.setPending es).scratch = s.scratch := rfl
@[simp] theorem State.setPending_bitAcc (es : List HostEvent) : (s.setPending es).bitAcc = s.bitAcc := rfl
@[simp] theorem State.setPending_nttTmp (es : List HostEvent) : (s.setPending es).nttTmp = s.nttTmp := rfl
@[simp] theorem State.setPending_pending (es : List HostEvent) : (s.setPending es).pending = es := rfl
@[simp] theorem State.setPending_readValue (es : List HostEvent) : (s.setPending es).readValue = s.readValue := rfl

@[simp] theorem State.setReadValue_q (v : Option Int) : (s.setReadValue v).q = s.q := rfl
@[simp] theorem State.setReadValue_f (v : Option Int) : (s.setReadValue v).f = s.f := rfl
@[simp] theorem State.setReadValue_root (v : Option Int) : (s.setReadValue v).root = s.root := rfl
@[simp] theorem State.setReadValue_inc (v : Option Int) : (s.setReadValue v).inc = s.inc := rfl
@[simp] theorem State.setReadValue_brv (v : Option Int) : (s.setReadValue v).brv = s.brv := rfl
@[simp] theorem State.setReadValue_err (v : Option Int) : (s.setReadValue v).err = s.err := rfl
@[simp] theorem State.setReadValue_sticky (v : Option Int) : (s.setReadValue v).sticky = s.sticky := rfl
@[simp] theorem State.setReadValue_zvalid (v : Option Int) : (s.setReadValue v).zvalid = s.zvalid := rfl
@[simp] theorem State.setReadValue_ecmd (v : Option Int) : (s.setReadValue v).ecmd = s.ecmd := rfl
@[simp] theorem State.setReadValue_x0 (v : Option Int) : (s.setReadValue v).x0 = s.x0 := rfl
@[simp] theorem State.setReadValue_x1 (v : Option Int) : (s.setReadValue v).x1 = s.x1 := rfl
@[simp] theorem State.setReadValue_x2 (v : Option Int) : (s.setReadValue v).x2 = s.x2 := rfl
@[simp] theorem State.setReadValue_x3 (v : Option Int) : (s.setReadValue v).x3 = s.x3 := rfl
@[simp] theorem State.setReadValue_res (v : Option Int) : (s.setReadValue v).res = s.res := rfl
@[simp] theorem State.setReadValue_zeta (v : Option Int) : (s.setReadValue v).zeta = s.zeta := rfl
@[simp] theorem State.setReadValue_poly (v : Option Int) : (s.setReadValue v).poly = s.poly := rfl
@[simp] theorem State.setReadValue_bytes (v : Option Int) : (s.setReadValue v).bytes = s.bytes := rfl
@[simp] theorem State.setReadValue_desc (v : Option Int) : (s.setReadValue v).desc = s.desc := rfl
@[simp] theorem State.setReadValue_scratch (v : Option Int) : (s.setReadValue v).scratch = s.scratch := rfl
@[simp] theorem State.setReadValue_bitAcc (v : Option Int) : (s.setReadValue v).bitAcc = s.bitAcc := rfl
@[simp] theorem State.setReadValue_nttTmp (v : Option Int) : (s.setReadValue v).nttTmp = s.nttTmp := rfl
@[simp] theorem State.setReadValue_pending (v : Option Int) : (s.setReadValue v).pending = s.pending := rfl
@[simp] theorem State.setReadValue_readValue (v : Option Int) : (s.setReadValue v).readValue = v := rfl

@[simp] theorem State.clearTransients_q : s.clearTransients.q = s.q := rfl
@[simp] theorem State.clearTransients_f : s.clearTransients.f = s.f := rfl
@[simp] theorem State.clearTransients_root : s.clearTransients.root = s.root := rfl
@[simp] theorem State.clearTransients_inc : s.clearTransients.inc = s.inc := rfl
@[simp] theorem State.clearTransients_brv : s.clearTransients.brv = s.brv := rfl
@[simp] theorem State.clearTransients_err : s.clearTransients.err = s.err := rfl
@[simp] theorem State.clearTransients_sticky : s.clearTransients.sticky = s.sticky := rfl
@[simp] theorem State.clearTransients_zvalid : s.clearTransients.zvalid = s.zvalid := rfl
@[simp] theorem State.clearTransients_ecmd : s.clearTransients.ecmd = s.ecmd := rfl
@[simp] theorem State.clearTransients_x0 : s.clearTransients.x0 = s.x0 := rfl
@[simp] theorem State.clearTransients_x1 : s.clearTransients.x1 = s.x1 := rfl
@[simp] theorem State.clearTransients_x2 : s.clearTransients.x2 = s.x2 := rfl
@[simp] theorem State.clearTransients_x3 : s.clearTransients.x3 = s.x3 := rfl
@[simp] theorem State.clearTransients_res : s.clearTransients.res = s.res := rfl
@[simp] theorem State.clearTransients_zeta : s.clearTransients.zeta = s.zeta := rfl
@[simp] theorem State.clearTransients_poly : s.clearTransients.poly = s.poly := rfl
@[simp] theorem State.clearTransients_bytes : s.clearTransients.bytes = s.bytes := rfl
@[simp] theorem State.clearTransients_desc : s.clearTransients.desc = s.desc := rfl
@[simp] theorem State.clearTransients_scratch : s.clearTransients.scratch = [] := rfl
@[simp] theorem State.clearTransients_bitAcc : s.clearTransients.bitAcc = ⟨0, 0⟩ := rfl
@[simp] theorem State.clearTransients_nttTmp : s.clearTransients.nttTmp = ⟨0, 0, 0⟩ := rfl
@[simp] theorem State.clearTransients_pending : s.clearTransients.pending = s.pending := rfl
@[simp] theorem State.clearTransients_readValue : s.clearTransients.readValue = s.readValue := rfl

@[simp] theorem State.complete_q : s.complete.q = s.q := rfl
@[simp] theorem State.complete_f : s.complete.f = s.f := rfl
@[simp] theorem State.complete_root : s.complete.root = s.root := rfl
@[simp] theorem State.complete_inc : s.complete.inc = s.inc := rfl
@[simp] theorem State.complete_brv : s.complete.brv = s.brv := rfl
@[simp] theorem State.complete_err : s.complete.err = 0 := rfl
@[simp] theorem State.complete_sticky : s.complete.sticky = s.sticky := rfl
@[simp] theorem State.complete_zvalid : s.complete.zvalid = s.zvalid := rfl
@[simp] theorem State.complete_ecmd : s.complete.ecmd = s.ecmd := rfl
@[simp] theorem State.complete_x0 : s.complete.x0 = s.x0 := rfl
@[simp] theorem State.complete_x1 : s.complete.x1 = s.x1 := rfl
@[simp] theorem State.complete_x2 : s.complete.x2 = s.x2 := rfl
@[simp] theorem State.complete_x3 : s.complete.x3 = s.x3 := rfl
@[simp] theorem State.complete_res : s.complete.res = s.res := rfl
@[simp] theorem State.complete_zeta : s.complete.zeta = s.zeta := rfl
@[simp] theorem State.complete_poly : s.complete.poly = s.poly := rfl
@[simp] theorem State.complete_bytes : s.complete.bytes = s.bytes := rfl
@[simp] theorem State.complete_desc : s.complete.desc = s.desc := rfl
@[simp] theorem State.complete_scratch : s.complete.scratch = [] := rfl
@[simp] theorem State.complete_bitAcc : s.complete.bitAcc = ⟨0, 0⟩ := rfl
@[simp] theorem State.complete_nttTmp : s.complete.nttTmp = ⟨0, 0, 0⟩ := rfl
@[simp] theorem State.complete_pending : s.complete.pending = s.pending := rfl
@[simp] theorem State.complete_readValue : s.complete.readValue = s.readValue := rfl

@[simp] theorem State.raiseFault_q (c : FaultCode) (w : Word) : (s.raiseFault c w).q = s.q := rfl
@[simp] theorem State.raiseFault_f (c : FaultCode) (w : Word) : (s.raiseFault c w).f = s.f := rfl
@[simp] theorem State.raiseFault_root (c : FaultCode) (w : Word) : (s.raiseFault c w).root = s.root := rfl
@[simp] theorem State.raiseFault_inc (c : FaultCode) (w : Word) : (s.raiseFault c w).inc = s.inc := rfl
@[simp] theorem State.raiseFault_brv (c : FaultCode) (w : Word) : (s.raiseFault c w).brv = s.brv := rfl
@[simp] theorem State.raiseFault_err (c : FaultCode) (w : Word) : (s.raiseFault c w).err = c.code := rfl
@[simp] theorem State.raiseFault_sticky (c : FaultCode) (w : Word) : (s.raiseFault c w).sticky = true := rfl
@[simp] theorem State.raiseFault_zvalid (c : FaultCode) (w : Word) : (s.raiseFault c w).zvalid = s.zvalid := rfl
@[simp] theorem State.raiseFault_ecmd (c : FaultCode) (w : Word) : (s.raiseFault c w).ecmd = w := rfl
@[simp] theorem State.raiseFault_x0 (c : FaultCode) (w : Word) : (s.raiseFault c w).x0 = s.x0 := rfl
@[simp] theorem State.raiseFault_x1 (c : FaultCode) (w : Word) : (s.raiseFault c w).x1 = s.x1 := rfl
@[simp] theorem State.raiseFault_x2 (c : FaultCode) (w : Word) : (s.raiseFault c w).x2 = s.x2 := rfl
@[simp] theorem State.raiseFault_x3 (c : FaultCode) (w : Word) : (s.raiseFault c w).x3 = s.x3 := rfl
@[simp] theorem State.raiseFault_res (c : FaultCode) (w : Word) : (s.raiseFault c w).res = s.res := rfl
@[simp] theorem State.raiseFault_zeta (c : FaultCode) (w : Word) : (s.raiseFault c w).zeta = s.zeta := rfl
@[simp] theorem State.raiseFault_poly (c : FaultCode) (w : Word) : (s.raiseFault c w).poly = s.poly := rfl
@[simp] theorem State.raiseFault_bytes (c : FaultCode) (w : Word) : (s.raiseFault c w).bytes = s.bytes := rfl
@[simp] theorem State.raiseFault_desc (c : FaultCode) (w : Word) : (s.raiseFault c w).desc = s.desc := rfl
@[simp] theorem State.raiseFault_scratch (c : FaultCode) (w : Word) : (s.raiseFault c w).scratch = [] := rfl
@[simp] theorem State.raiseFault_bitAcc (c : FaultCode) (w : Word) : (s.raiseFault c w).bitAcc = ⟨0, 0⟩ := rfl
@[simp] theorem State.raiseFault_nttTmp (c : FaultCode) (w : Word) : (s.raiseFault c w).nttTmp = ⟨0, 0, 0⟩ := rfl
@[simp] theorem State.raiseFault_pending (c : FaultCode) (w : Word) : (s.raiseFault c w).pending = s.pending := rfl
@[simp] theorem State.raiseFault_readValue (c : FaultCode) (w : Word) : (s.raiseFault c w).readValue = s.readValue := rfl

end

end Sys2Proof.Machine
end

