-- ==== Sys2Proof/Laws/Exec.lean ====
section
/-! SUPPORT. What a command can do, said once: it ends in a next state, by completion or by fault entry, and its rule's own writes reach only
the parts of the state listed here. -/

namespace Sys2Proof.Machine

/-- What a command's rule gives (rule R10): the state with its own writes, or the fault code. -/
def resultOf (i : Instr) (s : State) : Except FaultCode State :=
  match i with
  | .nop => .ok s
  | .clrerr => .ok (s.setSticky false)
  | .mod => modResult s
  | .modM => modMResult s
  | .smod => smodResult s
  | .smodM => smodMResult s
  | .zgen => zgenResult s
  | .nttFwd pb => nttFwdResult pb s
  | .nttInv pb => nttInvResult pb s
  | .clen h => clenResult h s
  | .enc h pb vlen => encResult h pb vlen s
  | .dec h pb => decResult h pb s
  | .cmpb => cmpbResult s

theorem exec_eq_finish (i : Instr) (s : State) : exec i s = finish i s (resultOf i s) := by cases i <;> rfl

theorem exec_of_ok {i : Instr} {s u : State} (h : resultOf i s = .ok u) : exec i s = .next u.complete := by
  rw [exec_eq_finish, h]; rfl

theorem exec_of_error {i : Instr} {s : State} {c : FaultCode} (h : resultOf i s = .error c) :
    exec i s = .next (s.raiseFault c (encode i)) := by
  rw [exec_eq_finish, h]; rfl

/-- A command that ends in `t` has completed, or has entered a fault. -/
theorem exec_next_cases {i : Instr} {s t : State} (h : exec i s = .next t) :
    (∃ u, resultOf i s = .ok u ∧ t = u.complete) ∨ (∃ c, resultOf i s = .error c ∧ t = s.raiseFault c (encode i)) := by
  cases hr : resultOf i s with
  | ok u => rw [exec_of_ok hr] at h; exact .inl ⟨u, rfl, by injection h with h; exact h.symm⟩
  | error c => rw [exec_of_error hr] at h; exact .inr ⟨c, rfl, by injection h with h; exact h.symm⟩

theorem complete_eq_afterSuccess (s : State) : s.complete = afterSuccess s := rfl

theorem raiseFault_eq_afterFault (s : State) (c : FaultCode) (w : Word) : s.raiseFault c w = afterFault s c.code w := rfl

theorem FaultCode.code_ne_zero (c : FaultCode) : c.code ≠ 0 := by cases c <;> decide

/-- The parts of the state a command's own writes reach. -/
theorem resultOf_ok_shape {i : Instr} {s u : State} (h : resultOf i s = .ok u) :
    u = { s with res := u.res, zeta := u.zeta, zvalid := u.zvalid, poly := u.poly, bytes := u.bytes, sticky := u.sticky } := by
  cases i <;>
    simp only [resultOf, modResult, modMResult, smodResult, smodMResult, zgenResult, nttFwdResult, nttInvResult, clenResult,
      encResult, decResult, cmpbResult] at h
  all_goals repeat' split at h
  all_goals cases h
  all_goals rfl

/-- STICKY is written by CLRERR alone, ZVALID and ZETA by ZGEN alone (rules R27, R32). -/
theorem resultOf_ok_flags {i : Instr} {s u : State} (h : resultOf i s = .ok u) :
    u.sticky = (if i = .clrerr then false else s.sticky) ∧
    u.zvalid = (if i = .zgen then true else s.zvalid) ∧
    (i ≠ .zgen → u.zeta = s.zeta) := by
  cases i <;>
    simp only [resultOf, modResult, modMResult, smodResult, smodMResult, zgenResult, nttFwdResult, nttInvResult, clenResult,
      encResult, decResult, cmpbResult] at h
  all_goals repeat' split at h
  all_goals cases h
  all_goals simp

/-- The codes a command's rule can raise are those of rule R224. -/
theorem resultOf_error_allowed {i : Instr} {s : State} {c : FaultCode} (h : resultOf i s = .error c) :
    c.code.toNat ∈ allowedCodes i := by
  cases i <;>
    simp only [resultOf, modResult, modMResult, smodResult, smodMResult, zgenResult, nttFwdResult, nttInvResult, clenResult,
      encResult, decResult, cmpbResult] at h
  all_goals repeat' split at h
  all_goals cases h
  all_goals simp [allowedCodes, FaultCode.code]

/-- A command's rule reads none of ERR, STICKY, ECMD: after a fault it raises the same code again (rule R229). -/
theorem resultOf_error_again {i : Instr} {s : State} {c : FaultCode} (h : resultOf i s = .error c) (c' : FaultCode) (w : Word) :
    resultOf i (s.raiseFault c' w) = .error c := by
  cases i <;>
    simp only [resultOf, modResult, modMResult, smodResult, smodMResult, zgenResult, nttFwdResult, nttInvResult, clenResult,
      encResult, decResult, cmpbResult, QLegal, BrvLegal, CoderRangesOk, State.raiseFault_q, State.raiseFault_brv,
      State.raiseFault_x0, State.raiseFault_x1, State.raiseFault_x2, State.raiseFault_x3, State.raiseFault_desc,
      State.raiseFault_zvalid] at h ⊢
  all_goals repeat' split at h
  all_goals simp_all

end Sys2Proof.Machine
end

