-- ==== Sys2Proof/Laws/Memory.lean ====
section
/-! SUPPORT. The laws of memories: what a read sees after a write, that a write keeps the canonical form, and that a canonical memory is
determined by what it reads as. -/

namespace Sys2Proof.Machine

variable {w : Nat}

@[simp] theorem Memory.read_nil (a : Nat) : Memory.read ([] : Memory w) a = 0 := rfl

theorem Memory.read_cons (k : Nat) (v : BitVec w) (m : Memory w) (a : Nat) :
    Memory.read ((k, v) :: m) a = if k = a then v else Memory.read m a := rfl

/-- A read passes over a part that lists no pair for the index. -/
theorem Memory.read_append_of_forall_ne {m : Memory w} {a : Nat} (h : ∀ c ∈ m, c.1 ≠ a) (m' : Memory w) :
    Memory.read (m ++ m') a = Memory.read m' a := by
  induction m with
  | nil => rfl
  | cons c m ih =>
    obtain ⟨k, v⟩ := c
    have hk : k ≠ a := h (k, v) (by simp)
    simp only [List.cons_append, Memory.read_cons, if_neg hk]
    exact ih fun c hc => h c (by simp [hc])

theorem Memory.read_eq_zero_of_forall_ne {m : Memory w} {a : Nat} (h : ∀ c ∈ m, c.1 ≠ a) : Memory.read m a = 0 := by
  simpa using Memory.read_append_of_forall_ne h []

/-- A read does not see what follows a part, where what follows lists no pair for the index. -/
theorem Memory.read_append_left {m' : Memory w} {a : Nat} (h : ∀ c ∈ m', c.1 ≠ a) (m : Memory w) :
    Memory.read (m ++ m') a = Memory.read m a := by
  induction m with
  | nil => simpa using Memory.read_eq_zero_of_forall_ne h
  | cons c m ih =>
    obtain ⟨k, v⟩ := c
    simp only [List.cons_append, Memory.read_cons, ih]

theorem Memory.read_filter_of_pos {p : Nat → Prop} [DecidablePred p] {a : Nat} (ha : p a) (m : Memory w) :
    Memory.read (m.filter fun c => decide (p c.1)) a = Memory.read m a := by
  induction m with
  | nil => rfl
  | cons c m ih =>
    obtain ⟨k, v⟩ := c
    by_cases hk : p k
    · simp [hk, Memory.read_cons, ih]
    · have : k ≠ a := fun h => hk (h ▸ ha)
      simp [hk, Memory.read_cons, ih, this]

/-- The indices of the pairs written for `vs` from `base` on. -/
theorem Memory.mem_cells {base : Nat} {vs : List (BitVec w)} {c : Nat × BitVec w} (h : c ∈ Memory.cells base vs) :
    base ≤ c.1 ∧ c.1 < base + vs.length ∧ c.2 ≠ 0 := by
  induction vs generalizing base with
  | nil => simp [Memory.cells] at h
  | cons v vs ih =>
    simp only [Memory.cells] at h
    split at h
    · obtain ⟨h1, h2, h3⟩ := ih h
      refine ⟨by omega, by simp only [List.length_cons]; omega, h3⟩
    · rcases List.mem_cons.1 h with rfl | h
      · refine ⟨le_refl _, by simp, by assumption⟩
      · obtain ⟨h1, h2, h3⟩ := ih h
        refine ⟨by omega, by simp only [List.length_cons]; omega, h3⟩

theorem Memory.read_cells {base : Nat} {vs : List (BitVec w)} {i : Nat} (hi : i < vs.length) :
    Memory.read (Memory.cells base vs) (base + i) = vs[i] := by
  induction vs generalizing base i with
  | nil => simp at hi
  | cons v vs ih =>
    simp only [Memory.cells]
    cases i with
    | zero =>
      split
      · rename_i hv
        rw [Memory.read_eq_zero_of_forall_ne]
        · simp [hv]
        · intro c hc
          have := Memory.mem_cells hc
          omega
      · simp [Memory.read_cons]
    | succ i =>
      have hi' : i < vs.length := by simpa using hi
      have := ih (base := base + 1) hi'
      rw [show base + 1 + i = base + (i + 1) by omega] at this
      split
      · simpa using this
      · rw [Memory.read_cons, if_neg (by omega)]
        simpa using this

/-- Reading inside a range just written gives the value written there. -/
theorem Memory.read_writeRange_inside (m : Memory w) (base : Nat) (vs : List (BitVec w)) {i : Nat} (hi : i < vs.length) :
    Memory.read (Memory.writeRange m base vs) (base + i) = vs[i] := by
  unfold Memory.writeRange
  rw [List.append_assoc, Memory.read_append_of_forall_ne, Memory.read_append_left, Memory.read_cells hi]
  · intro c hc
    have := (List.mem_filter.1 hc).2
    simp only [decide_eq_true_eq] at this
    omega
  · intro c hc
    have := (List.mem_filter.1 hc).2
    simp only [decide_eq_true_eq] at this
    omega

/-- Reading outside a range just written gives what was there before. -/
theorem Memory.read_writeRange_outside (m : Memory w) (base : Nat) (vs : List (BitVec w)) {a : Nat}
    (ha : a < base ∨ base + vs.length ≤ a) : Memory.read (Memory.writeRange m base vs) a = Memory.read m a := by
  unfold Memory.writeRange
  rcases ha with ha | ha
  · rw [List.append_assoc, Memory.read_append_left, Memory.read_filter_of_pos (p := fun k => k < base) ha]
    intro c hc
    rcases List.mem_append.1 hc with hc | hc
    · have := Memory.mem_cells hc
      omega
    · have := (List.mem_filter.1 hc).2
      simp only [decide_eq_true_eq] at this
      omega
  · rw [Memory.read_append_of_forall_ne, Memory.read_filter_of_pos (p := fun k => base + vs.length ≤ k) ha]
    intro c hc
    rcases List.mem_append.1 hc with hc | hc
    · have := (List.mem_filter.1 hc).2
      simp only [decide_eq_true_eq] at this
      omega
    · have := Memory.mem_cells hc
      omega

theorem Memory.read_write_same (m : Memory w) (a : Nat) (v : BitVec w) : Memory.read (Memory.write m a v) a = v := by
  simpa [Memory.write] using Memory.read_writeRange_inside m a [v] (i := 0) (by simp)

theorem Memory.read_write_other (m : Memory w) {a b : Nat} (v : BitVec w) (h : b ≠ a) :
    Memory.read (Memory.write m a v) b = Memory.read m b :=
  Memory.read_writeRange_outside m a [v] (by simp only [List.length_cons, List.length_nil]; omega)

@[simp] theorem Memory.readRange_length (m : Memory w) (base n : Nat) : (Memory.readRange m base n).length = n := by
  simp [Memory.readRange]

@[simp] theorem Memory.readRange_getElem (m : Memory w) (base n : Nat) {i : Nat} (hi : i < (Memory.readRange m base n).length) :
    (Memory.readRange m base n)[i] = Memory.read m (base + i) := by
  simp [Memory.readRange]

/-- A range just written reads as the list written. -/
theorem Memory.readRange_writeRange_same (m : Memory w) (base : Nat) (vs : List (BitVec w)) :
    Memory.readRange (Memory.writeRange m base vs) base vs.length = vs := by
  apply List.ext_getElem (by simp)
  intro i h1 h2
  rw [Memory.readRange_getElem, Memory.read_writeRange_inside m base vs h2]

/-- A range apart from the one written reads as before. -/
theorem Memory.readRange_writeRange_apart (m : Memory w) (base : Nat) (vs : List (BitVec w)) {b n : Nat}
    (h : b + n ≤ base ∨ base + vs.length ≤ b) :
    Memory.readRange (Memory.writeRange m base vs) b n = Memory.readRange m b n := by
  apply List.ext_getElem (by simp)
  intro i h1 h2
  have hi : i < n := by simpa using h2
  rw [Memory.readRange_getElem, Memory.readRange_getElem, Memory.read_writeRange_outside m base vs (by omega)]

theorem Memory.cells_pairwise (base : Nat) (vs : List (BitVec w)) :
    (Memory.cells base vs).Pairwise (fun a b => a.1 < b.1) := by
  induction vs generalizing base with
  | nil => simp [Memory.cells]
  | cons v vs ih =>
    simp only [Memory.cells]
    split
    · exact ih (base + 1)
    · refine List.pairwise_cons.2 ⟨fun c hc => ?_, ih (base + 1)⟩
      have := Memory.mem_cells hc
      show base < c.1
      omega

/-- A write inside the memory keeps the canonical form. -/
theorem Memory.writeRange_wf {size : Nat} {m : Memory w} (h : Memory.wf size m) {base : Nat} {vs : List (BitVec w)}
    (hb : base + vs.length ≤ size) : Memory.wf size (Memory.writeRange m base vs) := by
  obtain ⟨hp, hv⟩ := h
  unfold Memory.writeRange
  refine ⟨?_, ?_⟩
  · rw [List.append_assoc, List.pairwise_append, List.pairwise_append]
    refine ⟨hp.filter _, ⟨Memory.cells_pairwise base vs, hp.filter _, ?_⟩, ?_⟩
    · intro a ha b hb'
      have h1 := Memory.mem_cells ha
      have h2 := (List.mem_filter.1 hb').2
      simp only [decide_eq_true_eq] at h2
      omega
    · intro a ha b hb'
      have h1 := (List.mem_filter.1 ha).2
      simp only [decide_eq_true_eq] at h1
      rcases List.mem_append.1 hb' with h2 | h2
      · have := Memory.mem_cells h2
        omega
      · have := (List.mem_filter.1 h2).2
        simp only [decide_eq_true_eq] at this
        omega
  · intro c hc
    rcases List.mem_append.1 hc with hc | hc
    · rcases List.mem_append.1 hc with hc | hc
      · exact hv c (List.mem_filter.1 hc).1
      · have := Memory.mem_cells hc
        exact ⟨by omega, this.2.2⟩
    · exact hv c (List.mem_filter.1 hc).1

theorem Memory.write_wf {size : Nat} {m : Memory w} (h : Memory.wf size m) {a : Nat} (ha : a < size) (v : BitVec w) :
    Memory.wf size (Memory.write m a v) :=
  Memory.writeRange_wf h (by simpa using ha)

theorem Memory.nil_wf (size : Nat) : Memory.wf size ([] : Memory w) := by simp [Memory.wf]

/-- The value of a listed pair of a canonical memory is what its index reads as. -/
theorem Memory.read_of_mem {size : Nat} {m : Memory w} (h : Memory.wf size m) {c : Nat × BitVec w} (hc : c ∈ m) :
    Memory.read m c.1 = c.2 := by
  induction m with
  | nil => simp at hc
  | cons d m ih =>
    obtain ⟨k, v⟩ := d
    obtain ⟨hp, hv⟩ := h
    rw [List.pairwise_cons] at hp
    rcases List.mem_cons.1 hc with rfl | hm
    · simp [Memory.read_cons]
    · have := hp.1 c hm
      rw [Memory.read_cons, if_neg (by simp only at this; omega)]
      exact ih ⟨hp.2, fun c hc => hv c (by simp [hc])⟩ hm

theorem Memory.read_beyond {size : Nat} {m : Memory w} (h : Memory.wf size m) {a : Nat} (ha : size ≤ a) :
    Memory.read m a = 0 :=
  Memory.read_eq_zero_of_forall_ne fun c hc => by have := (h.2 c hc).1; omega

/-- Equal memories are equal data: two canonical memories that read alike are the same list. -/
theorem Memory.ext_of_wf {size : Nat} {m m' : Memory w} (h : Memory.wf size m) (h' : Memory.wf size m')
    (hr : ∀ a, Memory.read m a = Memory.read m' a) : m = m' := by
  induction m generalizing m' with
  | nil =>
    cases m' with
    | nil => rfl
    | cons d m' =>
      have h1 := Memory.read_of_mem h' (c := d) (by simp)
      rw [← hr, Memory.read_nil] at h1
      exact absurd h1.symm (h'.2 d (by simp)).2
  | cons c m ih =>
    cases m' with
    | nil =>
      have h1 := Memory.read_of_mem h (c := c) (by simp)
      rw [hr, Memory.read_nil] at h1
      exact absurd h1.symm (h.2 c (by simp)).2
    | cons d m' =>
      obtain ⟨k, v⟩ := c
      obtain ⟨k', v'⟩ := d
      have hp := List.pairwise_cons.1 h.1
      have hp' := List.pairwise_cons.1 h'.1
      have hk : k = k' := by
        rcases Nat.lt_trichotomy k k' with hlt | heq | hgt
        · have h1 : Memory.read ((k', v') :: m') k = 0 := Memory.read_eq_zero_of_forall_ne fun e he => by
            rcases List.mem_cons.1 he with rfl | he
            · simp only; omega
            · have := hp'.1 e he; simp only at this; omega
          rw [← hr, Memory.read_cons, if_pos rfl] at h1
          exact absurd h1 (h.2 (k, v) (by simp)).2
        · exact heq
        · have h1 : Memory.read ((k, v) :: m) k' = 0 := Memory.read_eq_zero_of_forall_ne fun e he => by
            rcases List.mem_cons.1 he with rfl | he
            · simp only; omega
            · have := hp.1 e he; simp only at this; omega
          rw [hr, Memory.read_cons, if_pos rfl] at h1
          exact absurd h1 (h'.2 (k', v') (by simp)).2
      subst hk
      have hv : v = v' := by simpa [Memory.read_cons] using hr k
      subst hv
      have hm : m = m' := by
        refine ih ⟨hp.2, fun c hc => h.2 c (by simp [hc])⟩ ⟨hp'.2, fun c hc => h'.2 c (by simp [hc])⟩ fun a => ?_
        by_cases ha : k = a
        · subst ha
          rw [Memory.read_eq_zero_of_forall_ne fun e he => by have := hp.1 e he; simp only at this; omega,
            Memory.read_eq_zero_of_forall_ne fun e he => by have := hp'.1 e he; simp only at this; omega]
        · have := hr a
          simpa [Memory.read_cons, ha] using this
      rw [hm]

end Sys2Proof.Machine
end

