-- ==== Sys2Proof/Laws/Ntt.lean ====
section
/-! SUPPORT. The algebra of the transforms: lengths, ranges, linearity, and that a layer and its mirror undo each other up to the factor 2
(rules R130 to R138). -/

namespace Sys2Proof.Machine

/-- Every element times c, reduced. -/
def scale (q c : Int) (r : List Int) : List Int := r.map fun x => mod (c * x) q

@[simp] theorem scale_length (q c : Int) (r : List Int) : (scale q c r).length = r.length := by simp [scale]

theorem scale_append (q c : Int) (r r' : List Int) : scale q c (r ++ r') = scale q c r ++ scale q c r' := by simp [scale]

theorem scale_take (q c : Int) (r : List Int) (n : Nat) : scale q c (r.take n) = (scale q c r).take n := by
  simp [scale, List.map_take]

theorem scale_drop (q c : Int) (r : List Int) (n : Nat) : scale q c (r.drop n) = (scale q c r).drop n := by
  simp [scale, List.map_drop]

/-- `mod` forgets reductions inside a product. -/
theorem mod_mul_right (a b q : Int) : mod (a * mod b q) q = mod (a * b) q := by
  unfold mod
  rw [Int.mul_emod, Int.emod_emod_of_dvd _ (dvd_refl q), ← Int.mul_emod]

theorem mod_add_left (a b q : Int) : mod (mod a q + b) q = mod (a + b) q := Int.emod_add_emod a q b
theorem mod_add_right (a b q : Int) : mod (a + mod b q) q = mod (a + b) q := Int.add_emod_emod a b q
theorem mod_sub_left (a b q : Int) : mod (mod a q - b) q = mod (a - b) q := Int.emod_sub_emod a q b
theorem mod_sub_right (a b q : Int) : mod (a - mod b q) q = mod (a - b) q := Int.sub_emod_emod a b q

/-! ### Lengths -/

theorem fwdBlock_length (q z : Int) {as bs : List Int} (h : as.length = bs.length) :
    (fwdBlock q z as bs).1.length = as.length ∧ (fwdBlock q z as bs).2.length = as.length := by
  induction as generalizing bs with
  | nil => cases bs <;> simp [fwdBlock]
  | cons a as ih =>
    cases bs with
    | nil => simp at h
    | cons b bs =>
      have := ih (bs := bs) (by simpa using h)
      simp [fwdBlock, this]

theorem invBlock_length (q z : Int) {as bs : List Int} (h : as.length = bs.length) :
    (invBlock q z as bs).1.length = as.length ∧ (invBlock q z as bs).2.length = as.length := by
  induction as generalizing bs with
  | nil => cases bs <;> simp [invBlock]
  | cons a as ih =>
    cases bs with
    | nil => simp at h
    | cons b bs =>
      have := ih (bs := bs) (by simpa using h)
      simp [invBlock, this]

/-- The two halves of the first block of a layer. -/
theorem block_halves {len n : Nat} {r : List Int} (h : r.length = (n + 1) * (2 * len)) :
    (r.take len).length = len ∧ ((r.drop len).take len).length = len ∧ (r.drop (2 * len)).length = n * (2 * len) := by
  have hm : (n + 1) * (2 * len) = n * (2 * len) + 2 * len := Nat.succ_mul n (2 * len)
  simp only [List.length_take, List.length_drop]
  generalize n * (2 * len) = m at *
  omega

theorem fwdLayer_length (q : Int) (z : Nat → Int) (len n k : Nat) {r : List Int} (h : r.length = n * (2 * len)) :
    (fwdLayer q z len n k r).length = r.length := by
  induction n generalizing k r with
  | zero => rfl
  | succ n ih =>
    obtain ⟨h1, h2, h3⟩ := block_halves h
    have hb := fwdBlock_length q (z k) (h1.trans h2.symm)
    have hm : (n + 1) * (2 * len) = n * (2 * len) + 2 * len := Nat.succ_mul n (2 * len)
    simp only [fwdLayer, List.length_append, hb.1, hb.2, h1, ih (k + 1) h3, h3, h]
    omega

theorem invLayer_length (q : Int) (z : Nat → Int) (len n k : Nat) {r : List Int} (h : r.length = n * (2 * len)) :
    (invLayer q z len n k r).length = r.length := by
  induction n generalizing k r with
  | zero => rfl
  | succ n ih =>
    obtain ⟨h1, h2, h3⟩ := block_halves h
    have hb := invBlock_length q (z k) (h1.trans h2.symm)
    have hm : (n + 1) * (2 * len) = n * (2 * len) + 2 * len := Nat.succ_mul n (2 * len)
    simp only [invLayer, List.length_append, hb.1, hb.2, h1, ih (k - 1) h3, h3, h]
    omega

/-! ### A block and its mirror -/

/-- Butterflies are linear modulo Q, whatever representatives they are given. -/
theorem fwdBlock_scale (q z c : Int) (as bs : List Int) :
    fwdBlock q z (scale q c as) (scale q c bs) = (scale q c (fwdBlock q z as bs).1, scale q c (fwdBlock q z as bs).2) := by
  induction as generalizing bs with
  | nil => cases bs <;> simp [fwdBlock, scale]
  | cons a as ih =>
    cases bs with
    | nil => simp [fwdBlock, scale]
    | cons b bs =>
      have := ih bs
      simp only [scale, List.map_cons, fwdBlock] at this ⊢
      rw [this]
      simp only [mod_add_left, mod_add_right, mod_sub_left, mod_sub_right, mod_mul_right, Prod.mk.injEq, List.cons.injEq, and_true]
      constructor <;> congr 1 <;> ring

theorem invBlock_scale (q z c : Int) (as bs : List Int) :
    invBlock q z (scale q c as) (scale q c bs) = (scale q c (invBlock q z as bs).1, scale q c (invBlock q z as bs).2) := by
  induction as generalizing bs with
  | nil => cases bs <;> simp [invBlock, scale]
  | cons a as ih =>
    cases bs with
    | nil => simp [invBlock, scale]
    | cons b bs =>
      have := ih bs
      simp only [scale, List.map_cons, invBlock] at this ⊢
      rw [this]
      have hz : mod (z * (mod (c * b) q - mod (c * a) q)) q = mod (z * (c * b - c * a)) q := by
        rw [← mod_mul_right, mod_sub_left, mod_sub_right, mod_mul_right]
      simp only [hz, mod_add_left, mod_add_right, mod_mul_right, Prod.mk.injEq, List.cons.injEq, and_true]
      constructor <;> congr 1 <;> ring

/-- Two zetas that pair up to −1 modulo Q (rule R138 (i)). -/
def ZetaPair (q z z' : Int) : Prop := mod (z * z' + 1) q = 0

/-- Rule R138: an inverse butterfly after its forward one gives twice the pair. -/
theorem invBlock_fwdBlock {q z z' : Int} (hz : ZetaPair q z z') {as bs : List Int} (h : as.length = bs.length) :
    invBlock q z' (fwdBlock q z as bs).1 (fwdBlock q z as bs).2 = (scale q 2 as, scale q 2 bs) := by
  induction as generalizing bs with
  | nil => cases bs <;> simp_all [fwdBlock, invBlock, scale]
  | cons a as ih =>
    cases bs with
    | nil => simp at h
    | cons b bs =>
      have := ih (bs := bs) (by simpa using h)
      simp only [scale, List.map_cons, fwdBlock, invBlock] at this ⊢
      rw [this]
      have h1 : mod (mod (a + mod (z * b) q) q + mod (a - mod (z * b) q) q) q = mod (2 * a) q := by
        rw [mod_add_mod]
        congr 1; ring
      have h2 : mod (z' * (mod (a - mod (z * b) q) q - mod (a + mod (z * b) q) q)) q = mod (2 * b) q := by
        rw [← mod_mul_right, mod_sub_mod, mod_mul_right,
          show z' * (a - mod (z * b) q - (a + mod (z * b) q)) = -2 * z' * mod (z * b) q by ring, mod_mul_right,
          show -2 * z' * (z * b) = 2 * b - 2 * b * (z * z' + 1) by ring, ← mod_sub_mod, ← mod_mul_right (2 * b) (z * z' + 1), hz,
          Int.mul_zero, mod_zero, Int.sub_zero, mod_mod]
      simp only [h1, h2]

/-- Rule R138: a forward butterfly after its inverse one gives twice the pair. -/
theorem fwdBlock_invBlock {q z z' : Int} (hz : ZetaPair q z z') {as bs : List Int} (h : as.length = bs.length) :
    fwdBlock q z (invBlock q z' as bs).1 (invBlock q z' as bs).2 = (scale q 2 as, scale q 2 bs) := by
  induction as generalizing bs with
  | nil => cases bs <;> simp_all [fwdBlock, invBlock, scale]
  | cons a as ih =>
    cases bs with
    | nil => simp at h
    | cons b bs =>
      have := ih (bs := bs) (by simpa using h)
      simp only [scale, List.map_cons, fwdBlock, invBlock] at this ⊢
      rw [this]
      have ht : mod (z * mod (z' * (b - a)) q) q = mod (a - b) q := by
        rw [mod_mul_right]
        have h3 : z * (z' * (b - a)) = a - b + (b - a) * (z * z' + 1) := by ring
        rw [h3, ← mod_add_mod, ← mod_mul_right (b - a) (z * z' + 1), hz, Int.mul_zero, mod_zero, Int.add_zero, mod_mod]
      have h1 : mod (mod (a + b) q + mod (z * mod (z' * (b - a)) q) q) q = mod (2 * a) q := by
        rw [ht, mod_add_mod]; congr 1; ring
      have h2 : mod (mod (a + b) q - mod (z * mod (z' * (b - a)) q) q) q = mod (2 * b) q := by
        rw [ht, mod_sub_mod]; congr 1; ring
      simp only [h1, h2]

/-! ### A layer and its mirror -/

theorem fwdLayer_scale (q c : Int) (z : Nat → Int) (len n k : Nat) {r : List Int} (h : r.length = n * (2 * len)) :
    fwdLayer q z len n k (scale q c r) = scale q c (fwdLayer q z len n k r) := by
  induction n generalizing k r with
  | zero => rfl
  | succ n ih =>
    simp only [fwdLayer, ← scale_take, ← scale_drop, fwdBlock_scale, scale_append, ih (k + 1) (block_halves h).2.2]

theorem invLayer_scale (q c : Int) (z : Nat → Int) (len n k : Nat) {r : List Int} (h : r.length = n * (2 * len)) :
    invLayer q z len n k (scale q c r) = scale q c (invLayer q z len n k r) := by
  induction n generalizing k r with
  | zero => rfl
  | succ n ih =>
    simp only [invLayer, ← scale_take, ← scale_drop, invBlock_scale, scale_append, ih (k - 1) (block_halves h).2.2]

/-- The parts of a layer's result. -/
theorem append_halves {len : Nat} {a b c : List Int} (ha : a.length = len) (hb : b.length = len) :
    (a ++ b ++ c).take len = a ∧ ((a ++ b ++ c).drop len).take len = b ∧ (a ++ b ++ c).drop (2 * len) = c := by
  subst ha
  refine ⟨by simp, by simp [← hb], ?_⟩
  rw [show 2 * a.length = (a ++ b).length by simp [hb]; omega, List.drop_left]

theorem halves_append (len : Nat) (r : List Int) : r.take len ++ (r.drop len).take len ++ r.drop (2 * len) = r := by
  rw [List.append_assoc, show 2 * len = len + len by omega, ← List.drop_drop, List.take_append_drop, List.take_append_drop]

/-- Rules R132, R135, R138: an inverse layer after the forward layer of the same width, with zetas that pair up, gives twice the input. -/
theorem invLayer_fwdLayer {q : Int} {z z' : Nat → Int} {len n k k' : Nat} (hk : n ≤ k' + 1)
    (hz : ∀ s, s < n → ZetaPair q (z (k + s)) (z' (k' - s))) {r : List Int} (h : r.length = n * (2 * len)) :
    invLayer q z' len n k' (fwdLayer q z len n k r) = scale q 2 r := by
  induction n generalizing k k' r with
  | zero =>
    have : r = [] := by simpa using h
    subst this
    rfl
  | succ n ih =>
    obtain ⟨h1, h2, h3⟩ := block_halves h
    have hb := fwdBlock_length q (z k) (h1.trans h2.symm)
    simp only [invLayer, fwdLayer]
    obtain ⟨e1, e2, e3⟩ := append_halves (c := fwdLayer q z len n (k + 1) (r.drop (2 * len))) (hb.1.trans h1) (hb.2.trans h1)
    rw [e1, e2, e3, invBlock_fwdBlock (by simpa using hz 0 (by omega)) (h1.trans h2.symm),
      ih (by omega) (fun s hs => ?_) h3]
    · rw [← scale_append, ← scale_append, halves_append]
    · have := hz (s + 1) (by omega)
      rwa [show k + (s + 1) = k + 1 + s by omega, show k' - (s + 1) = k' - 1 - s by omega] at this

theorem fwdLayer_invLayer {q : Int} {z z' : Nat → Int} {len n k k' : Nat} (hk : n ≤ k' + 1)
    (hz : ∀ s, s < n → ZetaPair q (z (k + s)) (z' (k' - s))) {r : List Int} (h : r.length = n * (2 * len)) :
    fwdLayer q z len n k (invLayer q z' len n k' r) = scale q 2 r := by
  induction n generalizing k k' r with
  | zero =>
    have : r = [] := by simpa using h
    subst this
    rfl
  | succ n ih =>
    obtain ⟨h1, h2, h3⟩ := block_halves h
    have hb := invBlock_length q (z' k') (h1.trans h2.symm)
    simp only [invLayer, fwdLayer]
    obtain ⟨e1, e2, e3⟩ := append_halves (c := invLayer q z' len n (k' - 1) (r.drop (2 * len))) (hb.1.trans h1) (hb.2.trans h1)
    rw [e1, e2, e3, fwdBlock_invBlock (by simpa using hz 0 (by omega)) (h1.trans h2.symm),
      ih (by omega) (fun s hs => ?_) h3]
    · rw [← scale_append, ← scale_append, halves_append]
    · have := hz (s + 1) (by omega)
      rwa [show k + (s + 1) = k + 1 + s by omega, show k' - (s + 1) = k' - 1 - s by omega] at this

/-! ### All layers -/

/-- The widths of a list are layer widths: each block pair fits 256 coefficients exactly. -/
def WidthsOk (ws : List Nat) : Prop := ∀ len ∈ ws, blocksOf len * (2 * len) = 256

theorem widthsOk_layerWidths (inc : Bool) : WidthsOk (layerWidths inc) := by
  intro len h
  cases inc <;> simp only [layerWidths, Bool.false_eq_true, if_false, if_true] at h <;> revert len <;> decide

theorem WidthsOk.tail {len : Nat} {ws : List Nat} (h : WidthsOk (len :: ws)) : WidthsOk ws :=
  fun l hl => h l (by simp [hl])

theorem fwdLayers_length (q : Int) (z : Nat → Int) {ws : List Nat} (hw : WidthsOk ws) (k : Nat) {r : List Int}
    (h : r.length = 256) : (fwdLayers q z ws k r).length = 256 := by
  induction ws generalizing k r with
  | nil => exact h
  | cons len ws ih =>
    have h1 := fwdLayer_length q z len (blocksOf len) k (h.trans (hw len (by simp)).symm)
    exact ih hw.tail _ (h1.trans h)

theorem invLayers_length (q : Int) (z : Nat → Int) {ws : List Nat} (hw : WidthsOk ws) (k : Nat) {r : List Int}
    (h : r.length = 256) : (invLayers q z ws k r).length = 256 := by
  induction ws generalizing k r with
  | nil => exact h
  | cons len ws ih =>
    have h1 := invLayer_length q z len (blocksOf len) k (h.trans (hw len (by simp)).symm)
    exact ih hw.tail _ (h1.trans h)

theorem fwdLayers_scale (q c : Int) (z : Nat → Int) {ws : List Nat} (hw : WidthsOk ws) (k : Nat) {r : List Int}
    (h : r.length = 256) : fwdLayers q z ws k (scale q c r) = scale q c (fwdLayers q z ws k r) := by
  induction ws generalizing k r with
  | nil => rfl
  | cons len ws ih =>
    have h0 := h.trans (hw len (by simp)).symm
    simp only [fwdLayers]
    rw [fwdLayer_scale q c z len _ k h0, ih hw.tail _ ((fwdLayer_length q z len _ k h0).trans h)]

theorem invLayers_scale (q c : Int) (z : Nat → Int) {ws : List Nat} (hw : WidthsOk ws) (k : Nat) {r : List Int}
    (h : r.length = 256) : invLayers q z ws k (scale q c r) = scale q c (invLayers q z ws k r) := by
  induction ws generalizing k r with
  | nil => rfl
  | cons len ws ih =>
    have h0 := h.trans (hw len (by simp)).symm
    simp only [invLayers]
    rw [invLayer_scale q c z len _ k h0, ih hw.tail _ ((invLayer_length q z len _ k h0).trans h)]

theorem nttFwd_length (q : Int) (z : Nat → Int) (inc : Bool) {r : List Int} (h : r.length = 256) :
    (nttFwd q z inc r).length = 256 := fwdLayers_length q z (widthsOk_layerWidths inc) 1 h

theorem widthsOk_reverse {ws : List Nat} (h : WidthsOk ws) : WidthsOk ws.reverse :=
  fun l hl => h l (List.mem_reverse.1 hl)

theorem nttInv_length (q f : Int) (z : Nat → Int) (inc : Bool) {r : List Int} (h : r.length = 256) :
    (nttInv q f z inc r).length = 256 := by
  rw [nttInv, List.length_map]
  exact invLayers_length q z (widthsOk_reverse (widthsOk_layerWidths inc)) _ h

/-! ### Ranges -/

theorem fwdBlock_range {q : Int} (hq : 1 ≤ q) (z : Int) (as bs : List Int) :
    (∀ x ∈ (fwdBlock q z as bs).1, 0 ≤ x ∧ x < q) ∧ (∀ x ∈ (fwdBlock q z as bs).2, 0 ≤ x ∧ x < q) := by
  induction as generalizing bs with
  | nil => cases bs <;> simp [fwdBlock]
  | cons a as ih =>
    cases bs with
    | nil => simp [fwdBlock]
    | cons b bs =>
      have := ih bs
      simp only [fwdBlock, List.mem_cons, forall_eq_or_imp]
      exact ⟨⟨⟨mod_nonneg hq _, mod_lt hq _⟩, this.1⟩, ⟨mod_nonneg hq _, mod_lt hq _⟩, this.2⟩

theorem fwdLayer_range {q : Int} (hq : 1 ≤ q) (z : Nat → Int) (len n k : Nat) {r : List Int} (h : r.length = n * (2 * len)) :
    ∀ x ∈ fwdLayer q z len n k r, 0 ≤ x ∧ x < q := by
  induction n generalizing k r with
  | zero =>
    have : r = [] := by simpa using h
    subst this
    simp [fwdLayer]
  | succ n ih =>
    intro x hx
    have hb := fwdBlock_range hq (z k) (r.take len) ((r.drop len).take len)
    simp only [fwdLayer, List.mem_append] at hx
    rcases hx with (hx | hx) | hx
    · exact hb.1 x hx
    · exact hb.2 x hx
    · exact ih (k + 1) (block_halves h).2.2 x hx

theorem fwdLayers_range {q : Int} (hq : 1 ≤ q) (z : Nat → Int) {ws : List Nat} (hw : WidthsOk ws) (k : Nat) {r : List Int}
    (h : r.length = 256) (hr : ws = [] → ∀ x ∈ r, 0 ≤ x ∧ x < q) : ∀ x ∈ fwdLayers q z ws k r, 0 ≤ x ∧ x < q := by
  induction ws generalizing k r with
  | nil => exact hr rfl
  | cons len ws ih =>
    have h0 := h.trans (hw len (by simp)).symm
    exact ih hw.tail _ ((fwdLayer_length q z len _ k h0).trans h) fun _ => fwdLayer_range hq z len _ k h0

/-- Rule R131: every output coefficient of the forward transform is in [0, Q). -/
theorem nttFwd_range {q : Int} (hq : 1 ≤ q) (z : Nat → Int) (inc : Bool) {r : List Int} (h : r.length = 256) :
    ∀ x ∈ nttFwd q z inc r, 0 ≤ x ∧ x < q :=
  fwdLayers_range hq z (widthsOk_layerWidths inc) 1 h (by cases inc <;> simp [layerWidths])

/-- Rules R133, R134: every output coefficient of the inverse transform is in [0, Q). -/
theorem nttInv_range {q : Int} (hq : 1 ≤ q) (f : Int) (z : Nat → Int) (inc : Bool) (r : List Int) :
    ∀ x ∈ nttInv q f z inc r, 0 ≤ x ∧ x < q := by
  intro x hx
  obtain ⟨c, _, rfl⟩ := List.mem_map.1 hx
  exact ⟨mod_nonneg hq _, mod_lt hq _⟩

/-! ### Banks -/

@[simp] theorem readBank_length (poly : Memory 32) (b : Nat) : (readBank poly b).length = 256 := by simp [readBank]

theorem readBank_getElem (poly : Memory 32) (b : Nat) {i : Nat} (hi : i < (readBank poly b).length) :
    (readBank poly b)[i] = (Memory.read poly (256 * b + i)).toInt := by
  simp [readBank, polyIndex]

/-- A bank just written with 256 values that fit reads as those values (rule R38). -/
theorem readBank_writeBank_same (poly : Memory 32) (b : Nat) {r : List Int} (h : r.length = 256)
    (hr : ∀ x ∈ r, -2147483648 ≤ x ∧ x < 2147483648) : readBank (writeBank poly b r) b = r := by
  have h1 := Memory.readRange_writeRange_same poly (polyIndex b 0) (r.map (BitVec.ofInt 32))
  rw [List.length_map, h] at h1
  rw [readBank, writeBank, h1, List.map_map]
  conv_rhs => rw [← List.map_id r]
  exact List.map_congr_left fun x hx => toInt_ofInt_32 (hr x hx).1 (hr x hx).2

/-- Elements of POLY outside a bank just written read as before. -/
theorem read_writeBank_outside (poly : Memory 32) (b : Nat) {r : List Int} (h : r.length = 256) {a : Nat}
    (ha : a < 256 * b ∨ 256 * (b + 1) ≤ a) : Memory.read (writeBank poly b r) a = Memory.read poly a :=
  Memory.read_writeRange_outside poly (polyIndex b 0) _ (by simp only [polyIndex, List.length_map, h, ndeg]; omega)

theorem writeBank_wf {poly : Memory 32} (hp : Memory.wf 8192 poly) {b : Nat} (hb : b < 32) {r : List Int} (h : r.length = 256) :
    Memory.wf 8192 (writeBank poly b r) :=
  Memory.writeRange_wf hp (by simp only [polyIndex, List.length_map, h, ndeg]; omega)

end Sys2Proof.Machine
end

