-- ==== Sys2Proof/Laws/Decode.lean ====
section
/-! SUPPORT. The fields of a word as quotients and remainders, the number an encoded command stands for, and what a decoded word says. -/

namespace Sys2Proof

theorem bits_eq (w : Word) (hi lo : Nat) : bits w hi lo = w.toNat / 2 ^ lo % 2 ^ (hi - lo + 1) := by
  rw [bits, Nat.shiftRight_eq_div_pow]

theorem Instr.opcode_lt (i : Instr) : i.opcode < 128 := by cases i <;> simp [Instr.opcode]

theorem Instr.fields_lt {i : Instr} (h : i.wellFormed = true) : i.fields < 2 ^ 17 := by
  cases i <;> simp_all [Instr.wellFormed, Instr.fields] <;> omega

/-- The word of a command as a number: the opcode above its fields. -/
theorem encode_toNat {i : Instr} (h : i.wellFormed = true) : (encode i).toNat = 16777216 * i.opcode + i.fields := by
  have h1 := i.opcode_lt
  have h2 := Instr.fields_lt h
  rw [encode, BitVec.toNat_ofNat]
  omega

/-- Two words with one number are one word. -/
theorem word_eq_of_toNat {w v : Word} (h : w.toNat = v.toNat) : w = v := BitVec.eq_of_toNat_eq h

theorem formatZ_ok {w : Word} {i j : Instr} (h : formatZ w i = .ok j) : bits w 23 0 = 0 ∧ j = i := by
  unfold formatZ at h
  split at h <;> simp_all

theorem formatP_ok {w : Word} {mk : Nat → Instr} {j : Instr} (h : formatP w mk = .ok j) :
    bits w 23 5 = 0 ∧ j = mk (bits w 4 0) := by
  unfold formatP at h
  split at h <;> simp_all

theorem formatH_ok {w : Word} {mk : Nat → Instr} {j : Instr} (h : formatH w mk = .ok j) :
    bits w 23 4 = 0 ∧ j = mk (bits w 3 0) := by
  unfold formatH at h
  split at h <;> simp_all

theorem formatC_ok {w : Word} {mk : Nat → Nat → Nat → Instr} {j : Instr} (h : formatC w mk = .ok j) :
    bits w 23 17 = 0 ∧ j = mk (bits w 3 0) (bits w 8 4) (bits w 16 9) := by
  unfold formatC at h
  split at h <;> simp_all

theorem formatD_ok {w : Word} {mk : Nat → Nat → Instr} {j : Instr} (h : formatD w mk = .ok j) :
    bits w 23 9 = 0 ∧ j = mk (bits w 3 0) (bits w 8 4) := by
  unfold formatD at h
  split at h <;> simp_all

/-- The reserved bits of a command's format are 0 in a word, and its fields are the word's bits (rule R80). -/
def FieldsRead (w : Word) : Instr → Prop
  | .nttFwd pb | .nttInv pb => bits w 23 5 = 0 ∧ pb = bits w 4 0
  | .clen k => bits w 23 4 = 0 ∧ k = bits w 3 0
  | .enc k pb vlen => bits w 23 17 = 0 ∧ k = bits w 3 0 ∧ pb = bits w 8 4 ∧ vlen = bits w 16 9
  | .dec k pb => bits w 23 9 = 0 ∧ k = bits w 3 0 ∧ pb = bits w 8 4
  | .nop | .clrerr | .mod | .modM | .smod | .smodM | .zgen | .cmpb => bits w 23 0 = 0

/-- Everything a decoded word says: its opcode is the command's, its format's reserved bits are 0, and the fields are its bits. -/
theorem decodeAs_ok_cases {opc : Nat} {w : Word} {i : Instr} (h : decodeAs opc w = .ok i) :
    opc = i.opcode ∧ FieldsRead w i := by
  unfold decodeAs at h
  by_cases ho : opc = 0x00
  · rw [if_pos ho] at h; obtain ⟨h1, rfl⟩ := formatZ_ok h; exact ⟨ho, h1⟩
  rw [if_neg ho] at h; clear ho
  by_cases ho : opc = 0x01
  · rw [if_pos ho] at h; obtain ⟨h1, rfl⟩ := formatZ_ok h; exact ⟨ho, h1⟩
  rw [if_neg ho] at h; clear ho
  by_cases ho : opc = 0x10
  · rw [if_pos ho] at h; obtain ⟨h1, rfl⟩ := formatZ_ok h; exact ⟨ho, h1⟩
  rw [if_neg ho] at h; clear ho
  by_cases ho : opc = 0x11
  · rw [if_pos ho] at h; obtain ⟨h1, rfl⟩ := formatZ_ok h; exact ⟨ho, h1⟩
  rw [if_neg ho] at h; clear ho
  by_cases ho : opc = 0x12
  · rw [if_pos ho] at h; obtain ⟨h1, rfl⟩ := formatZ_ok h; exact ⟨ho, h1⟩
  rw [if_neg ho] at h; clear ho
  by_cases ho : opc = 0x13
  · rw [if_pos ho] at h; obtain ⟨h1, rfl⟩ := formatZ_ok h; exact ⟨ho, h1⟩
  rw [if_neg ho] at h; clear ho
  by_cases ho : opc = 0x20
  · rw [if_pos ho] at h; obtain ⟨h1, rfl⟩ := formatZ_ok h; exact ⟨ho, h1⟩
  rw [if_neg ho] at h; clear ho
  by_cases ho : opc = 0x30
  · rw [if_pos ho] at h; obtain ⟨h1, rfl⟩ := formatP_ok h; exact ⟨ho, h1, rfl⟩
  rw [if_neg ho] at h; clear ho
  by_cases ho : opc = 0x31
  · rw [if_pos ho] at h; obtain ⟨h1, rfl⟩ := formatP_ok h; exact ⟨ho, h1, rfl⟩
  rw [if_neg ho] at h; clear ho
  by_cases ho : opc = 0x40
  · rw [if_pos ho] at h; obtain ⟨h1, rfl⟩ := formatH_ok h; exact ⟨ho, h1, rfl⟩
  rw [if_neg ho] at h; clear ho
  by_cases ho : opc = 0x41
  · rw [if_pos ho] at h; obtain ⟨h1, rfl⟩ := formatC_ok h; exact ⟨ho, h1, rfl, rfl, rfl⟩
  rw [if_neg ho] at h; clear ho
  by_cases ho : opc = 0x42
  · rw [if_pos ho] at h; obtain ⟨h1, rfl⟩ := formatD_ok h; exact ⟨ho, h1, rfl, rfl⟩
  rw [if_neg ho] at h; clear ho
  by_cases ho : opc = 0x50
  · rw [if_pos ho] at h; obtain ⟨h1, rfl⟩ := formatZ_ok h; exact ⟨ho, h1⟩
  rw [if_neg ho] at h; clear ho
  exact absurd h (by simp)

/-- Everything a decoded word says. -/
theorem decode_ok_cases {w : Word} {i : Instr} (h : decode w = .ok i) :
    bits w 31 24 = i.opcode ∧ FieldsRead w i := decodeAs_ok_cases h

/-- The decoder, said once: a word is the command whose opcode it has, whose reserved bits are 0 in it, and whose fields are its bits. -/
theorem decode_ok_iff {w : Word} {i : Instr} : decode w = .ok i ↔ bits w 31 24 = i.opcode ∧ FieldsRead w i := by
  refine ⟨decode_ok_cases, fun ⟨h, hf⟩ => ?_⟩
  unfold decode
  cases i <;> rw [h] <;> simp only [Instr.opcode, decodeAs] <;> simp only [FieldsRead] at hf
  case nttFwd | nttInv => obtain ⟨h1, rfl⟩ := hf; simp [formatP, h1]
  case clen => obtain ⟨h1, rfl⟩ := hf; simp [formatH, h1]
  case enc => obtain ⟨h1, rfl, rfl, rfl⟩ := hf; simp [formatC, h1]
  case dec => obtain ⟨h1, rfl, rfl⟩ := hf; simp [formatD, h1]
  all_goals simp [formatZ, hf]

/-- A mask of ones above bit k keeps the multiple of 2^k. -/
theorem and_high_mask (w : Word) {k : Nat} (hk : k ≤ 32) :
    w.toNat &&& ((2 ^ (32 - k) - 1) * 2 ^ k) = w.toNat / 2 ^ k * 2 ^ k := by
  apply Nat.eq_of_testBit_eq
  intro j
  have hw : 32 ≤ j → w.toNat.testBit j = false := fun h =>
    Nat.testBit_eq_false_of_lt (lt_of_lt_of_le w.isLt (Nat.pow_le_pow_right (by decide) h))
  rw [Nat.testBit_and, Nat.testBit_mul_two_pow, Nat.testBit_mul_two_pow, Nat.testBit_two_pow_sub_one, Nat.testBit_div_two_pow]
  by_cases h1 : k ≤ j
  · by_cases h2 : j < 32
    · have : j - k < 32 - k := by omega
      simp [h1, this]
    · simp [h1, hw (by omega)]
  · simp [h1]

/-- A row's test of rule R88, as a statement about the word's number: its mask has ones above bit k. -/
theorem and_mask_eq_iff (w v : Word) {k mask : Nat} (hk : k ≤ 32) (hmask : mask = (2 ^ (32 - k) - 1) * 2 ^ k) :
    w &&& BitVec.ofNat 32 mask = v ↔ w.toNat / 2 ^ k * 2 ^ k = v.toNat := by
  have hlt : (2 ^ (32 - k) - 1) * 2 ^ k < 2 ^ 32 := by
    have h1 : 2 ^ (32 - k) * 2 ^ k = 2 ^ 32 := by rw [← pow_add]; congr 1; omega
    have h2 : 0 < 2 ^ k := by positivity
    rw [Nat.sub_mul]
    omega
  rw [← BitVec.toNat_inj, BitVec.toNat_and, BitVec.toNat_ofNat, hmask, Nat.mod_eq_of_lt hlt, and_high_mask w hk]

end Sys2Proof
end

