-- ==== Sys2Proof/Laws/Resolve.lean ====
section
/-! SUPPORT. `resolve` (rules R93 to R95, R151, R156): what it reads, that the bound on its depth is no limit, and the trees it gives. -/

namespace Sys2Proof.Machine

/-- The words of the descriptor of one handle agree. -/
def SameDescriptor (desc desc' : Memory 32) (h : Nat) : Prop := ∀ k, k < 9 → descWord desc h k = descWord desc' h k

theorem SameDescriptor.refl (desc : Memory 32) (h : Nat) : SameDescriptor desc desc h := fun _ _ => rfl

/-- The entries of a descriptor depend on its words and on the handles below it. -/
theorem resolveEntries_congr {desc desc' : Memory 32} {sub sub' : Nat → Option Coder} {h : Nat} (hd : SameDescriptor desc desc' h)
    (hs : ∀ g, g < h → sub g = sub' g) (n k : Nat) (hk : k + n ≤ 8) :
    resolveEntries desc sub h n k = resolveEntries desc' sub' h n k := by
  induction n generalizing k with
  | zero => rfl
  | succ n ih =>
    simp only [resolveEntries, hd (1 + k) (by omega), ih (k + 1) (by omega)]
    by_cases hn : entNh (descWord desc' h (1 + k)) < h
    · simp only [hs _ hn]
    · simp only [if_neg hn]

/-- One level of `resolve` depends on the words of its descriptor and on the handles below it. -/
theorem resolveLevel_congr {desc desc' : Memory 32} {sub sub' : Nat → Option Coder} {h : Nat} (hd : SameDescriptor desc desc' h)
    (hs : ∀ g, g < h → sub g = sub' g) : resolveLevel desc sub h = resolveLevel desc' sub' h := by
  unfold resolveLevel
  rw [hd 0 (by omega)]
  generalize descWord desc' h 0 = hd0
  simp only
  split
  · rfl
  · by_cases hl : hdrSplitLegal hd0 = true
    · have hn : hdrNent hd0 ≤ 8 := by
        simp only [hdrSplitLegal, nentMax, Bool.and_eq_true, decide_eq_true_eq] at hl
        omega
      simp only [if_pos hl, resolveEntries_congr hd hs (hdrNent hd0) 0 (by omega)]
    · simp only [if_neg hl]
  · by_cases he : hdrElem hd0 < h
    · simp only [hs _ he]
    · simp only [if_neg he]
  · rfl

/-- Any bound above the handle gives the same tree, and only the descriptors up to the handle are read (rule R95). -/
theorem resolveFuel_congr {desc desc' : Memory 32} (n n' h : Nat) (hn : h < n) (hn' : h < n')
    (hd : ∀ g, g ≤ h → SameDescriptor desc desc' g) : resolveFuel desc n h = resolveFuel desc' n' h := by
  induction n generalizing n' h with
  | zero => omega
  | succ n ih =>
    obtain ⟨m, rfl⟩ : ∃ m, n' = m + 1 := ⟨n' - 1, by omega⟩
    exact resolveLevel_congr (hd h (Nat.le_refl h)) fun g hg => ih m g (by omega) (by omega) fun g' hg' => hd g' (by omega)

/-- Rule R151: `resolve` is one level, over `resolve` of the handles below. -/
theorem resolve_eq_level (desc : Memory 32) (h : Nat) : resolve desc h = resolveLevel desc (resolve desc) h :=
  resolveLevel_congr (.refl desc h) fun g hg => resolveFuel_congr h (g + 1) g hg (Nat.lt_succ_self g) fun _ _ => .refl desc _

/-! ### The descriptor words as numbers -/

/-- Rules R92, R94: a word-legal BITS header. -/
theorem hdrBitsLegal_iff (w : Word) : hdrBitsLegal w = true ↔
    (w.toNat / 2 ^ 2 % 4 = 0 ∧ w.toNat / 2 ^ 11 % 2 = 0 ∧ w.toNat / 2 ^ 20 % 16 = 0) ∧
    (1 ≤ w.toNat / 2 ^ 4 % 32 ∧ w.toNat / 2 ^ 4 % 32 ≤ 31) ∧ w.toNat / 2 ^ 9 % 4 ≤ 1 ∧
    w.toNat / 2 ^ 12 % 16 = 0 ∧ w.toNat / 2 ^ 16 % 16 = 0 ∧ w.toNat / 2 ^ 24 % 256 = 0 := by
  simp [hdrBitsLegal, hdrReservedZero, hdrD, hdrCmode, hdrNent, hdrElem, hdrCount, bits_eq, and_assoc]

/-- Rules R92, R94: a word-legal SPLIT header. -/
theorem hdrSplitLegal_iff (w : Word) : hdrSplitLegal w = true ↔
    (w.toNat / 2 ^ 2 % 4 = 0 ∧ w.toNat / 2 ^ 11 % 2 = 0 ∧ w.toNat / 2 ^ 20 % 16 = 0) ∧
    w.toNat / 2 ^ 12 % 16 ≤ 8 ∧ w.toNat / 2 ^ 4 % 32 = 0 ∧ w.toNat / 2 ^ 9 % 4 = 0 ∧ w.toNat / 2 ^ 16 % 16 = 0 ∧
    w.toNat / 2 ^ 24 % 256 = 0 := by
  simp [hdrSplitLegal, hdrReservedZero, hdrD, hdrCmode, hdrNent, hdrElem, hdrCount, bits_eq, and_assoc]

/-- Rules R92, R94: a word-legal VEC header. -/
theorem hdrVecLegal_iff (w : Word) : hdrVecLegal w = true ↔
    (w.toNat / 2 ^ 2 % 4 = 0 ∧ w.toNat / 2 ^ 11 % 2 = 0 ∧ w.toNat / 2 ^ 20 % 16 = 0) ∧
    w.toNat / 2 ^ 4 % 32 = 0 ∧ w.toNat / 2 ^ 9 % 4 = 0 ∧ w.toNat / 2 ^ 12 % 16 = 0 := by
  simp [hdrVecLegal, hdrReservedZero, hdrD, hdrCmode, hdrNent, bits_eq, and_assoc]

/-- An entry before the others. -/
def Entries.cons : Entry → Entries → Entries
  | .raw n, es => .raw n es
  | .nested c, es => .nested c es

/-- What an entry word says (rules R93, R94, R151): a raw length, or a smaller handle that resolves. -/
def EntryReads (sub : Nat → Option Coder) (h : Nat) (w : Word) (e : Entry) : Prop :=
  w.toNat / 2 ^ 16 % 2 ^ 15 = 0 ∧
    ((w.toNat / 2 ^ 31 = 0 ∧ e = .raw (w.toNat % 2 ^ 16)) ∨
      (w.toNat / 2 ^ 31 = 1 ∧ w.toNat / 2 ^ 4 % 2 ^ 12 = 0 ∧ w.toNat % 16 < h ∧ ∃ c, sub (w.toNat % 16) = some c ∧ e = .nested c))

theorem Entries.toList_cons (e : Entry) (es : Entries) : (Entries.cons e es).toList = e :: es.toList := by cases e <;> rfl

theorem entLegal_iff (w : Word) : entLegal w = true ↔
    w.toNat / 2 ^ 16 % 2 ^ 15 = 0 ∧ (w.toNat / 2 ^ 31 = 0 ∨ w.toNat / 2 ^ 4 % 2 ^ 12 = 0) := by
  have := w.isLt
  simp only [entLegal, entNested, bits_eq, Bool.and_eq_true, Bool.or_eq_true, decide_eq_true_eq]
  omega

/-- One more entry: what its word says, before the others. -/
theorem resolveEntries_succ {desc : Memory 32} {sub : Nat → Option Coder} {h n k : Nat} {es : Entries} :
    resolveEntries desc sub h (n + 1) k = some es ↔
      ∃ e es', es = Entries.cons e es' ∧ EntryReads sub h (descWord desc h (1 + k)) e ∧
        resolveEntries desc sub h n (k + 1) = some es' := by
  have hw := (descWord desc h (1 + k)).isLt
  have hn : entNested (descWord desc h (1 + k)) = (descWord desc h (1 + k)).toNat / 2 ^ 31 := by
    simp only [entNested, bits_eq]; omega
  simp only [resolveEntries, entLegal_iff, hn]
  generalize descWord desc h (1 + k) = w at hw
  unfold EntryReads
  have hr : entRawLen w = w.toNat % 2 ^ 16 := by simp [entRawLen, bits_eq]
  have hh : entNh w = w.toNat % 16 := by simp [entNh, bits_eq]
  rw [hr, hh]
  constructor
  · intro he
    split at he
    · rename_i hl
      split at he
      · rename_i h0
        obtain ⟨es', h1, rfl⟩ := Option.map_eq_some_iff.1 he
        exact ⟨.raw _, es', rfl, ⟨hl.1, .inl ⟨h0, rfl⟩⟩, h1⟩
      · rename_i h0
        split at he
        · rename_i hlt
          split at he
          · rename_i c es' hc h1
            injection he with he
            exact ⟨.nested c, es', he.symm, ⟨hl.1, .inr ⟨by omega, hl.2.resolve_left h0, hlt, c, hc, rfl⟩⟩, h1⟩
          · cases he
        · cases he
    · cases he
  · rintro ⟨e, es', rfl, ⟨h0, ⟨h1, rfl⟩ | ⟨h1, h2, h3, c, hc, rfl⟩⟩, hes⟩
    · rw [if_pos ⟨h0, .inl h1⟩, if_pos h1, hes]
      rfl
    · rw [if_pos ⟨h0, .inr h2⟩, if_neg (by omega), if_pos h3, hc, hes]
      rfl

/-- Rule R151: the entries a SPLIT descriptor gives are those its words say, one for one. -/
theorem resolveEntries_eq_some_iff {desc : Memory 32} {sub : Nat → Option Coder} {h : Nat} (n k : Nat) (es : Entries) :
    resolveEntries desc sub h n k = some es ↔
      es.toList.length = n ∧ ∀ j, j < n → ∃ e, es.toList[j]? = some e ∧ EntryReads sub h (descWord desc h (1 + (k + j))) e := by
  induction n generalizing k es with
  | zero =>
    simp only [resolveEntries, Option.some.injEq, List.length_eq_zero_iff, Nat.not_lt_zero, false_implies, implies_true, and_true]
    cases es <;> simp [Entries.toList]
  | succ n ih =>
    rw [resolveEntries_succ]
    constructor
    · rintro ⟨e, es', rfl, he, hes⟩
      obtain ⟨hl, hj⟩ := (ih (k + 1) es').1 hes
      refine ⟨by cases e <;> simp [Entries.cons, Entries.toList, hl], fun j hjn => ?_⟩
      cases j with
      | zero => exact ⟨e, by cases e <;> rfl, he⟩
      | succ j =>
        obtain ⟨e', h1, h2⟩ := hj j (by omega)
        exact ⟨e', by cases e <;> exact h1, by rwa [show k + (j + 1) = k + 1 + j by omega]⟩
    · rintro ⟨hl, hj⟩
      obtain ⟨e, es', rfl⟩ : ∃ e es', es = Entries.cons e es' := by
        cases es with
        | nil => simp [Entries.toList] at hl
        | raw m es' => exact ⟨.raw m, es', rfl⟩
        | nested c es' => exact ⟨.nested c, es', rfl⟩
      rw [Entries.toList_cons] at hl hj
      obtain ⟨e', h1, h2⟩ := hj 0 (by omega)
      obtain rfl : e = e' := by simpa using h1
      refine ⟨e, es', rfl, h2, (ih (k + 1) es').2 ⟨by simpa using hl, fun j hjn => ?_⟩⟩
      obtain ⟨e', h3, h4⟩ := hj (j + 1) (by omega)
      exact ⟨e', by simpa using h3, by rwa [show k + 1 + j = k + (j + 1) by omega]⟩

/-! ### The trees -/

theorem sized_some {c c' : Coder} (h : sized c = some c') : c' = c ∧ c.blen ≤ 8192 := by
  unfold sized at h
  split at h
  · rename_i hb
    injection h with h
    exact ⟨h.symm, hb⟩
  · cases h

theorem bits_lt (w : Word) (hi lo : Nat) : bits w hi lo < 2 ^ (hi - lo + 1) := Nat.mod_lt _ (by positivity)

theorem resolveEntries_legal {desc : Memory 32} {sub : Nat → Option Coder} (hs : ∀ g c, sub g = some c → c.Legal) (h n k : Nat)
    {es : Entries} (he : resolveEntries desc sub h n k = some es) : es.Legal ∧ es.count = n := by
  induction n generalizing k es with
  | zero =>
    injection he with he
    subst he
    simp [Entries.Legal, Entries.count]
  | succ n ih =>
    simp only [resolveEntries] at he
    split at he
    · split at he
      · obtain ⟨es', h1, rfl⟩ := Option.map_eq_some_iff.1 he
        obtain ⟨h2, h3⟩ := ih (k + 1) h1
        have := bits_lt (descWord desc h (1 + k)) 15 0
        simp only [Entries.Legal, Entries.count, h3, h2, and_true]
        unfold entRawLen
        omega
      · split at he
        · split at he
          · rename_i c es' hc h1
            injection he with he
            subst he
            obtain ⟨h2, h3⟩ := ih (k + 1) h1
            exact ⟨⟨hs _ _ hc, h2⟩, by simp [Entries.count, h3]⟩
          · cases he
        · cases he
    · cases he

theorem resolveLevel_legal {desc : Memory 32} {sub : Nat → Option Coder} (hs : ∀ g c, sub g = some c → c.Legal) (h : Nat) {c : Coder}
    (hc : resolveLevel desc sub h = some c) : c.Legal ∧ c.blen ≤ 8192 := by
  simp only [resolveLevel] at hc
  split at hc
  · split at hc
    · rename_i hl
      obtain ⟨rfl, hb⟩ := sized_some hc
      simp only [hdrBitsLegal, dMax, Bool.and_eq_true, decide_eq_true_eq] at hl
      exact ⟨⟨by omega, by omega⟩, hb⟩
    · cases hc
  · split at hc
    · rename_i hl
      split at hc
      · rename_i es he
        obtain ⟨rfl, hb⟩ := sized_some hc
        obtain ⟨h1, h2⟩ := resolveEntries_legal hs h _ _ he
        simp only [hdrSplitLegal, nentMax, Bool.and_eq_true, decide_eq_true_eq] at hl
        exact ⟨⟨h1, by omega, by simpa [Coder.blen] using hb⟩, hb⟩
      · cases hc
    · cases hc
  · split at hc
    · split at hc
      · split at hc
        · rename_i e he
          obtain ⟨rfl, hb⟩ := sized_some hc
          have := bits_lt (descWord desc h 0) 31 24
          exact ⟨⟨hs _ _ he, by unfold hdrCount; omega, by simpa [Coder.blen] using hb⟩, hb⟩
        · cases hc
      · cases hc
    · cases hc
  · cases hc

/-- Rules R150, R151, R156: a valid handle's tree is legal and fits BYTES. -/
theorem resolveFuel_legal {desc : Memory 32} (n h : Nat) {c : Coder} (hc : resolveFuel desc n h = some c) :
    c.Legal ∧ c.blen ≤ 8192 := by
  induction n generalizing h c with
  | zero => cases hc
  | succ n ih => exact resolveLevel_legal (fun g c hg => (ih g hg).1) h hc

theorem resolve_legal {desc : Memory 32} {h : Nat} {c : Coder} (hc : resolve desc h = some c) : c.Legal ∧ c.blen ≤ 8192 :=
  resolveFuel_legal _ _ hc

end Sys2Proof.Machine
end

