-- ==== Sys2Proof/Laws/CoderCommands.lean ====
section
/-! SUPPORT. The coder commands: the sizes of what they write, the banks they read and write, and their checks one by one (rules R155 to R157,
R162, R164). -/

namespace Sys2Proof.Machine

@[simp] theorem readBanks_length (poly : Memory 32) (b n : Nat) : (readBanks poly b n).length = n := by
  induction n generalizing b with
  | zero => rfl
  | succ n ih => simp [readBanks, ih]

theorem readBanks_full (poly : Memory 32) (b n : Nat) : AllFull (readBanks poly b n) := by
  induction n generalizing b with
  | zero => intro p hp; simp [readBanks] at hp
  | succ n ih =>
    intro p hp
    rcases List.mem_cons.1 hp with rfl | hp
    · exact readBank_length poly b
    · exact ih (b + 1) p hp

theorem readBanks_getElem (poly : Memory 32) (b n : Nat) {i : Nat} (hi : i < (readBanks poly b n).length) :
    (readBanks poly b n)[i] = readBank poly (b + i) := by
  induction n generalizing b i with
  | zero => simp at hi
  | succ n ih =>
    cases i with
    | zero => rfl
    | succ i =>
      simp only [readBanks, List.getElem_cons_succ]
      rw [ih (b + 1) (by simpa [readBanks] using hi), show b + 1 + i = b + (i + 1) by omega]

/-- The polynomials of the banks from `b` on, as a list of lists of coefficients. -/
theorem readBanks_eq (s : State) (b n : Nat) :
    readBanks s.poly b n = (List.range n).map fun m => (List.range 256).map (coef s (b + m)) := by
  apply List.ext_getElem (by simp)
  intro i h1 h2
  rw [readBanks_getElem, List.getElem_map, List.getElem_range]
  apply List.ext_getElem (by simp)
  intro j h3 h4
  rw [readBank_getElem, List.getElem_map, List.getElem_range, coef]

theorem readBytes_eq (s : State) (base : Int) (n : Nat) :
    readBytes s.bytes base n = (List.range n).map fun k => byteAt s (base.toNat + k) := by
  apply List.ext_getElem (by simp [readBytes])
  intro i h1 h2
  simp [readBytes, byteAt]

@[simp] theorem readBytes_length (bytes : Memory 8) (base : Int) (n : Nat) : (readBytes bytes base n).length = n := by
  simp [readBytes]

/-- Elements of POLY outside the banks written read as before. -/
theorem read_writeBanks_outside (poly : Memory 32) (b : Nat) {ps : List (List Int)} (hp : AllFull ps) {a : Nat}
    (ha : a < 256 * b ∨ 256 * (b + ps.length) ≤ a) : Memory.read (writeBanks poly b ps) a = Memory.read poly a := by
  induction ps generalizing poly b with
  | nil => rfl
  | cons p ps ih =>
    simp only [List.length_cons] at ha
    have h1 : p.length = 256 := hp p (by simp)
    simp only [writeBanks]
    rw [ih (writeBank poly b p) (b + 1) (fun q hq => hp q (by simp [hq])) (by omega), read_writeBank_outside poly b h1 (by omega)]

theorem writeBanks_wf {poly : Memory 32} (h : Memory.wf 8192 poly) {b : Nat} {ps : List (List Int)} (hp : AllFull ps)
    (hb : b + ps.length ≤ 32) : Memory.wf 8192 (writeBanks poly b ps) := by
  induction ps generalizing poly b with
  | nil => exact h
  | cons p ps ih =>
    simp only [List.length_cons] at hb
    exact ih (writeBank_wf h (by omega) (hp p (by simp))) (fun q hq => hp q (by simp [hq])) (by omega)

/-- Banks just written with values that fit read as those values. -/
theorem readBanks_writeBanks_same (poly : Memory 32) (b : Nat) {ps : List (List Int)} (hp : AllFull ps)
    (hr : ∀ p ∈ ps, ∀ x ∈ p, -2147483648 ≤ x ∧ x < 2147483648) : readBanks (writeBanks poly b ps) b ps.length = ps := by
  induction ps generalizing poly b with
  | nil => rfl
  | cons p ps ih =>
    have h1 : p.length = 256 := hp p (by simp)
    have h2 : AllFull ps := fun q hq => hp q (by simp [hq])
    simp only [writeBanks, List.length_cons, readBanks]
    rw [ih _ (b + 1) h2 fun q hq => hr q (by simp [hq])]
    congr 1
    rw [← readBank_writeBank_same poly b h1 (hr p (by simp))]
    apply List.ext_getElem (by simp)
    intro i h3 h4
    simp only [readBank_length] at h3
    simp only [readBank_getElem]
    rw [read_writeBanks_outside _ _ h2 (by omega), readBank_writeBank_same poly b h1 (hr p (by simp))]

/-- Rule R164: ENC writes exactly blen bytes. -/
theorem encodedString_length {c : Coder} (pb : Nat) (s : State) : (encodedString c pb s).length = c.blen :=
  (Coder.enc_exact s.modulus c _ _ ⟨by simp, readBanks_full _ _ _, by simp⟩).1

/-- Rule R164: DEC writes exactly npoly banks and nraw bytes. -/
theorem decodedValue_sizes {c : Coder} (hc : c.Legal) (s : State) :
    (decodedValue c s).1.length = c.npoly ∧ AllFull (decodedValue c s).1 ∧ (decodedValue c s).2.length = c.nraw :=
  Coder.dec_exact s.modulus c hc _ (by simp)

/-! ### The checks of ENC and DEC -/

/-- The VLEN test of the model is the one of rule R183. -/
theorem Coder.vlenOk_iff (c : Coder) (vlen : Nat) : c.vlenOk vlen = true ↔ RequiredVlen c vlen := by
  cases c <;> simp [Coder.vlenOk, RequiredVlen]

/-- ENC has passed every check of rule R157. -/
theorem encResult_ok {h pb vlen : Nat} {s u : State} (hu : encResult h pb vlen s = .ok u) :
    ∃ c, resolve s.desc h = some c ∧ (c.hasCentered = true → QLegal s) ∧ s.x1.toInt = c.blen ∧ c.vlenOk vlen = true ∧
      CoderRangesOk c pb s ∧
      u = (s.setBytes (Memory.writeRange s.bytes s.x0.toInt.toNat (encodedString c pb s))).setRes c.blen := by
  unfold encResult at hu
  split at hu
  · cases hu
  · rename_i c hc
    split at hu
    · cases hu
    · rename_i h1
      split at hu
      · cases hu
      · rename_i h2
        split at hu
        · cases hu
        · rename_i h3
          split at hu
          · cases hu
          · rename_i h4
            injection hu with hu
            exact ⟨c, hc, fun hh => by by_contra hq; exact h1 ⟨hh, hq⟩, by simpa using h2, by simpa using h3, not_not.1 h4, hu.symm⟩

/-- DEC has passed every check of rule R162. -/
theorem decResult_ok {h pb : Nat} {s u : State} (hu : decResult h pb s = .ok u) :
    ∃ c, resolve s.desc h = some c ∧ (c.hasCentered = true → QLegal s) ∧ s.x1.toInt = c.blen ∧ CoderRangesOk c pb s ∧
      u = ((s.setPoly (writeBanks s.poly pb (decodedValue c s).1)).setBytes
        (Memory.writeRange s.bytes s.x2.toInt.toNat (decodedValue c s).2)).setRes c.blen := by
  unfold decResult at hu
  split at hu
  · cases hu
  · rename_i c hc
    split at hu
    · cases hu
    · rename_i h1
      split at hu
      · cases hu
      · rename_i h2
        split at hu
        · cases hu
        · rename_i h4
          injection hu with hu
          exact ⟨c, hc, fun hh => by by_contra hq; exact h1 ⟨hh, hq⟩, by simpa using h2, not_not.1 h4, hu.symm⟩

theorem encResult_of_checks {h pb vlen : Nat} {s : State} {c : Coder} (hc : resolve s.desc h = some c)
    (hq : c.hasCentered = true → QLegal s) (h1 : s.x1.toInt = c.blen) (h2 : c.vlenOk vlen = true) (h3 : CoderRangesOk c pb s) :
    encResult h pb vlen s = .ok ((s.setBytes (Memory.writeRange s.bytes s.x0.toInt.toNat (encodedString c pb s))).setRes c.blen) := by
  unfold encResult
  rw [hc]
  simp only
  rw [if_neg fun hh => hh.2 (hq hh.1), if_neg (by simpa using h1), if_neg (by simpa using h2), if_neg (not_not.2 h3)]

theorem decResult_of_checks {h pb : Nat} {s : State} {c : Coder} (hc : resolve s.desc h = some c)
    (hq : c.hasCentered = true → QLegal s) (h1 : s.x1.toInt = c.blen) (h3 : CoderRangesOk c pb s) :
    decResult h pb s = .ok (((s.setPoly (writeBanks s.poly pb (decodedValue c s).1)).setBytes
      (Memory.writeRange s.bytes s.x2.toInt.toNat (decodedValue c s).2)).setRes c.blen) := by
  unfold decResult
  rw [hc]
  simp only
  rw [if_neg fun hh => hh.2 (hq hh.1), if_neg (by simpa using h1), if_neg (not_not.2 h3)]

end Sys2Proof.Machine
end

