-- ==== Sys2Proof/Laws/Comparator.lean ====
section
/-! SUPPORT. The comparator's accumulator is zero exactly for equal buffers (rules R200, R201). -/

namespace Sys2Proof.Machine

/-- A byte of differences already seen stays seen. -/
theorem cmpAcc_eq_zero_iff (acc : Byte) {as bs : List Byte} (h : as.length = bs.length) :
    cmpAcc acc as bs = 0 ↔ acc = 0 ∧ as = bs := by
  induction as generalizing acc bs with
  | nil => cases bs <;> simp_all [cmpAcc]
  | cons a as ih =>
    cases bs with
    | nil => simp at h
    | cons b bs =>
      rw [cmpAcc, ih _ (by simpa using h), List.cons.injEq, ← and_assoc]
      refine and_congr_left fun _ => ?_
      change acc ||| (a ^^^ b) = 0#8 ↔ acc = 0#8 ∧ a = b
      rw [BitVec.or_eq_zero_iff, BitVec.xor_eq_zero_iff]

/-- The result of CMPB is 1 exactly for equal buffers, and 0 otherwise. -/
theorem cmpBuffers_eq (a b : List Byte) : cmpBuffers a b = if a = b then 1 else 0 := by
  unfold cmpBuffers
  by_cases hl : a.length = b.length
  · rw [if_neg (not_not.2 hl)]
    simp only [cmpAcc_eq_zero_iff 0 hl, true_and]
  · rw [if_pos hl, if_neg fun h => hl (by rw [h])]

end Sys2Proof.Machine
end

