-- ==== Sys2Proof/Laws/Step.lean ====
section
/-! SUPPORT. What a step can do, said once, and what a host write can change. -/

namespace Sys2Proof.Machine

/-- The next state of a command word: that of its command, or BAD_CMD. -/
theorem issue_next_cases {w : Word} {s t : State} (h : issue w s = .next t) :
    (∃ i, decode w = .ok i ∧ exec i s = .next t) ∨ ((∃ e, decode w = .error e) ∧ t = s.raiseFault .badCmd w) := by
  unfold issue at h
  split at h
  · exact .inl ⟨_, ‹_›, h⟩
  · exact .inr ⟨⟨_, ‹_›⟩, by injection h with h; exact h.symm⟩

/-- A step that ends in `t` was idle, or took one event: a host read, a host write to an element that is not CMD, a command issue, or a
reset. -/
theorem step_next_cases {s t : State} (h : step s = .next t) :
    (s.pending = [] ∧ t = s) ∨
    (∃ tgt v rest, s.pending = .read tgt :: rest ∧ hostRead (s.setPending rest) tgt = some v ∧
      t = (s.setPending rest).setReadValue (some v)) ∨
    (∃ tgt v rest, s.pending = .write tgt v :: rest ∧ tgt.inSpace = true ∧ tgt.fits v = true ∧ tgt ≠ .reg 0x0C ∧
      t = hostWrite (s.setPending rest) tgt v) ∨
    (∃ v rest, s.pending = .write (.reg 0x0C) v :: rest ∧ (0 ≤ v ∧ v < 2 ^ 32) ∧ issue (BitVec.ofInt 32 v) (s.setPending rest) = .next t) ∨
    (∃ rest, s.pending = .reset :: rest ∧ t = (s.setPending rest).afterReset) := by
  unfold step at h
  split at h
  · rename_i hp
    injection h with h
    exact .inl ⟨hp, h.symm⟩
  · rename_i e rest hp
    cases e with
    | read tgt =>
      simp only [perform] at h
      split at h
      · rename_i v hv
        injection h with h
        exact .inr (.inl ⟨tgt, v, rest, hp, hv, h.symm⟩)
      · cases h
    | write tgt v =>
      simp only [perform] at h
      split at h
      · rename_i h1
        split at h
        · rename_i h2
          split at h
          · rename_i h3
            subst h3
            exact .inr (.inr (.inr (.inl ⟨v, rest, hp, by simpa [Target.fits, regOfNumber, Reg.isLong] using h2, h⟩)))
          · rename_i h3
            injection h with h
            exact .inr (.inr (.inl ⟨tgt, v, rest, hp, h1, h2, h3, h.symm⟩))
        · cases h
      · cases h
    | reset =>
      injection h with h
      exact .inr (.inr (.inr (.inr ⟨rest, hp, h.symm⟩)))

/-- What no host write changes: ERR, STICKY, ECMD, RES, ZETA, the transients, the environment's fields. -/
theorem hostWrite_frame (s : State) (tgt : Target) (v : Int) :
    hostWrite s tgt v =
      { hostWrite s tgt v with
        err := s.err, sticky := s.sticky, ecmd := s.ecmd, res := s.res, zeta := s.zeta, scratch := s.scratch,
        bitAcc := s.bitAcc, nttTmp := s.nttTmp, pending := s.pending, readValue := s.readValue } := by
  cases tgt with
  | reg n =>
    simp only [hostWrite]
    split
    · rename_i r _
      cases r <;> rfl
    · rfl
  | zeta _ => rfl
  | poly _ _ => rfl
  | bytes _ => rfl
  | desc _ _ => rfl

@[simp] theorem hostWrite_err (s : State) (tgt : Target) (v : Int) : (hostWrite s tgt v).err = s.err := by
  rw [hostWrite_frame]
@[simp] theorem hostWrite_sticky (s : State) (tgt : Target) (v : Int) : (hostWrite s tgt v).sticky = s.sticky := by
  rw [hostWrite_frame]
@[simp] theorem hostWrite_ecmd (s : State) (tgt : Target) (v : Int) : (hostWrite s tgt v).ecmd = s.ecmd := by
  rw [hostWrite_frame]
@[simp] theorem hostWrite_res (s : State) (tgt : Target) (v : Int) : (hostWrite s tgt v).res = s.res := by
  rw [hostWrite_frame]
@[simp] theorem hostWrite_zeta (s : State) (tgt : Target) (v : Int) : (hostWrite s tgt v).zeta = s.zeta := by
  rw [hostWrite_frame]
@[simp] theorem hostWrite_scratch (s : State) (tgt : Target) (v : Int) : (hostWrite s tgt v).scratch = s.scratch := by
  rw [hostWrite_frame]
@[simp] theorem hostWrite_bitAcc (s : State) (tgt : Target) (v : Int) : (hostWrite s tgt v).bitAcc = s.bitAcc := by
  rw [hostWrite_frame]
@[simp] theorem hostWrite_nttTmp (s : State) (tgt : Target) (v : Int) : (hostWrite s tgt v).nttTmp = s.nttTmp := by
  rw [hostWrite_frame]
@[simp] theorem hostWrite_pending (s : State) (tgt : Target) (v : Int) : (hostWrite s tgt v).pending = s.pending := by
  rw [hostWrite_frame]
@[simp] theorem hostWrite_readValue (s : State) (tgt : Target) (v : Int) : (hostWrite s tgt v).readValue = s.readValue := by
  rw [hostWrite_frame]

/-- A host write clears ZVALID, or leaves it and with it Q, ROOT and BRV (rule R43). -/
theorem hostWrite_table (s : State) (tgt : Target) (v : Int) :
    (hostWrite s tgt v).zvalid = false ∨
    ((hostWrite s tgt v).zvalid = s.zvalid ∧ (hostWrite s tgt v).q = s.q ∧ (hostWrite s tgt v).root = s.root ∧
      (hostWrite s tgt v).inc = s.inc ∧ (hostWrite s tgt v).brv = s.brv) := by
  cases tgt with
  | reg n =>
    simp only [hostWrite]
    split
    · rename_i r _
      cases r <;> simp [writeReg]
    · simp
  | zeta _ => simp [hostWrite]
  | poly _ _ => simp [hostWrite]
  | bytes _ => simp [hostWrite]
  | desc _ _ => simp [hostWrite]

end Sys2Proof.Machine
end

