-- ==== Sys2Proof/Laws/Invariants.lean ====
section
/-! SUPPORT. The host's writes and the commands keep every memory canonical and inside its space (rules R32 to R35, R60, R68). -/

namespace Sys2Proof.Machine

/-- A host write inside the spaces keeps the memories canonical. -/
theorem hostWrite_memories {s : State} {t : Target} {v : Int} (ht : t.inSpace = true) (h : MemoriesCanonical s) :
    MemoriesCanonical (hostWrite s t v) := by
  obtain ⟨h1, h2, h3, h4⟩ := h
  cases t with
  | reg n =>
    simp only [hostWrite]
    split
    · rename_i r _
      cases r <;> exact ⟨h1, h2, h3, h4⟩
    · exact ⟨h1, h2, h3, h4⟩
  | zeta i => exact ⟨h1, h2, h3, h4⟩
  | poly b i =>
    simp only [Target.inSpace, npolyMax, ndeg, Bool.and_eq_true, decide_eq_true_eq] at ht
    exact ⟨h1, Memory.write_wf h2 (by simp only [polyIndex, ndeg]; omega) _, h3, h4⟩
  | bytes o =>
    simp only [Target.inSpace, bytesSz, decide_eq_true_eq] at ht
    exact ⟨h1, h2, Memory.write_wf h3 ht _, h4⟩
  | desc g k =>
    simp only [Target.inSpace, ncoder, descWords, Bool.and_eq_true, decide_eq_true_eq] at ht
    exact ⟨h1, h2, h3, Memory.write_wf h4 (by simp only [descIndex, descWords]; omega) _⟩

/-- A range that passed `range_ok`, as natural numbers. -/
theorem rangeOk_nat {base : Int} {n : Nat} (h : RangeOk base n) : base.toNat + n ≤ 8192 := by
  obtain ⟨_, h2, h3⟩ := h
  simp only [bytesSz] at h3
  omega

/-- A command's own writes keep the memories canonical. -/
theorem resultOf_memories {i : Instr} (hi : i.wellFormed = true) {s u : State} (hu : resultOf i s = .ok u)
    (h : MemoriesCanonical s) : MemoriesCanonical u := by
  obtain ⟨h1, h2, h3, h4⟩ := h
  cases i with
  | nop => cases hu; exact ⟨h1, h2, h3, h4⟩
  | clrerr => cases hu; exact ⟨h1, h2, h3, h4⟩
  | mod => simp only [resultOf, modResult] at hu; split at hu <;> cases hu; exact ⟨h1, h2, h3, h4⟩
  | modM => simp only [resultOf, modMResult] at hu; split at hu <;> cases hu; exact ⟨h1, h2, h3, h4⟩
  | smod => simp only [resultOf, smodResult] at hu; split at hu <;> cases hu; exact ⟨h1, h2, h3, h4⟩
  | smodM => simp only [resultOf, smodMResult] at hu; split at hu <;> cases hu; exact ⟨h1, h2, h3, h4⟩
  | zgen =>
    simp only [resultOf, zgenResult] at hu
    split at hu
    · split at hu <;> cases hu
      exact ⟨Memory.writeRange_wf h1 (by simp [zetaTable]), h2, h3, h4⟩
    · cases hu
  | nttFwd pb =>
    simp only [resultOf, nttFwdResult] at hu
    split at hu <;> cases hu
    simp only [Instr.wellFormed, decide_eq_true_eq] at hi
    exact ⟨h1, writeBank_wf h2 hi (nttFwd_length _ _ _ (readBank_length _ _)), h3, h4⟩
  | nttInv pb =>
    simp only [resultOf, nttInvResult] at hu
    split at hu <;> cases hu
    simp only [Instr.wellFormed, decide_eq_true_eq] at hi
    exact ⟨h1, writeBank_wf h2 hi (nttInv_length _ _ _ _ (readBank_length _ _)), h3, h4⟩
  | clen g =>
    simp only [resultOf, clenResult] at hu
    split at hu <;> cases hu
    exact ⟨h1, h2, h3, h4⟩
  | enc g pb vlen =>
    obtain ⟨c, -, -, -, -, hr, rfl⟩ := encResult_ok hu
    exact ⟨h1, h2, Memory.writeRange_wf h3 (by rw [encodedString_length]; exact rangeOk_nat hr.1), h4⟩
  | dec g pb =>
    obtain ⟨c, hc, -, -, hr, rfl⟩ := decResult_ok hu
    obtain ⟨d1, d2, d3⟩ := decodedValue_sizes (resolve_legal hc).1 s
    exact ⟨h1, writeBanks_wf h2 d2 (by rw [d1]; exact hr.2.2.2),
      Memory.writeRange_wf h3 (by rw [d3]; exact rangeOk_nat hr.2.1), h4⟩
  | cmpb =>
    simp only [resultOf, cmpbResult] at hu
    split at hu <;> cases hu
    exact ⟨h1, h2, h3, h4⟩

/-- A decoded command is well formed. -/
theorem wellFormed_of_decode {w : Word} {i : Instr} (h : decode w = .ok i) : i.wellFormed = true := by
  have hf := (decode_ok_cases h).2
  have hb := fun hi lo => bits_lt w hi lo
  have h1 := hb 4 0
  have h2 := hb 3 0
  have h3 := hb 8 4
  have h4 := hb 16 9
  cases i <;> simp_all [FieldsRead, Instr.wellFormed]

end Sys2Proof.Machine
end

