-- ==== Sys2Proof/Laws/Zeta.lean ====
section
/-! SUPPORT. The laws of bit reversal (rules R120, R121) and of the table ZGEN writes (rules R122, R124). -/

namespace Sys2Proof.Machine

theorem bitOf_lt_two (i k : Nat) : bitOf i k < 2 := Nat.mod_lt _ (by decide)

theorem bitOf_succ (i k : Nat) : bitOf i (k + 1) = bitOf (i / 2) k := by
  rw [bitOf, bitOf, Nat.div_div_eq_div_mul, pow_succ']

@[simp] theorem bitrev_zero (i : Nat) : bitrev i 0 = 0 := rfl

/-- The recursion behind the sum of rule R120: the lowest bit goes to the top, the others are reversed below it. -/
theorem bitrev_succ (i w : Nat) : bitrev i (w + 1) = i % 2 * 2 ^ w + bitrev (i / 2) w := by
  unfold bitrev
  rw [List.range_succ_eq_map, List.map_cons, List.sum_cons, List.map_map]
  congr 1
  · simp [bitOf]
  · congr 1
    apply List.map_congr_left
    intro k hk
    have : k < w := List.mem_range.1 hk
    simp only [Function.comp, Nat.succ_eq_add_one, bitOf_succ]
    congr 2
    omega

theorem bitrev_lt (i w : Nat) : bitrev i w < 2 ^ w := by
  induction w generalizing i with
  | zero => simp
  | succ w ih =>
    rw [bitrev_succ, pow_succ]
    have h1 := ih (i / 2)
    have h2 : i % 2 * 2 ^ w ≤ 1 * 2 ^ w := Nat.mul_le_mul_right _ (by omega)
    omega

/-- Bits at or above w do not enter (rule R121). -/
theorem bitrev_mod (i w : Nat) : bitrev (i % 2 ^ w) w = bitrev i w := by
  induction w generalizing i with
  | zero => simp
  | succ w ih =>
    rw [bitrev_succ, bitrev_succ]
    have h1 : i % 2 ^ (w + 1) % 2 = i % 2 := by
      rw [pow_succ', Nat.mod_mul_right_mod]
    have h2 : i % 2 ^ (w + 1) / 2 = i / 2 % 2 ^ w := by
      rw [pow_succ', Nat.mod_mul_right_div_self]
    rw [h1, h2, ih]

/-- The highest bit of the low w + 1 goes to the bottom. -/
theorem bitrev_top (i w : Nat) : bitrev i (w + 1) = 2 * bitrev i w + bitOf i w := by
  induction w generalizing i with
  | zero => simp [bitrev_succ, bitOf]
  | succ w ih =>
    rw [bitrev_succ, ih, bitrev_succ i w, bitOf_succ, pow_succ]
    ring

theorem testBit_bitrev (i w k : Nat) (hk : k < w) : (bitrev i w).testBit (w - 1 - k) = i.testBit k := by
  induction w generalizing i k with
  | zero => omega
  | succ w ih =>
    rw [bitrev_succ]
    have hlt := bitrev_lt (i / 2) w
    cases k with
    | zero =>
      rw [Nat.add_sub_cancel, Nat.sub_zero, Nat.testBit_eq_decide_div_mod_eq, Nat.testBit_eq_decide_div_mod_eq, Nat.add_comm,
        Nat.add_mul_div_right _ _ (by positivity), Nat.div_eq_of_lt hlt]
      simp
    | succ k =>
      have hk' : k < w := by omega
      have hb : w + 1 - 1 - (k + 1) < w := by omega
      rw [show i % 2 * 2 ^ w + bitrev (i / 2) w = 2 ^ w * (i % 2) + bitrev (i / 2) w by ring,
        Nat.testBit_two_pow_mul_add _ hlt, if_pos hb, show w + 1 - 1 - (k + 1) = w - 1 - k by omega, ih _ _ hk',
        Nat.testBit_succ]

/-- Reversing twice gives back the low w bits (rule R120). -/
theorem bitrev_bitrev (i w : Nat) : bitrev (bitrev i w) w = i % 2 ^ w := by
  apply Nat.eq_of_testBit_eq
  intro k
  rw [Nat.testBit_mod_two_pow]
  by_cases hk : k < w
  · have h1 := testBit_bitrev (bitrev i w) w (w - 1 - k) (by omega)
    have h2 := testBit_bitrev i w k hk
    rw [show w - 1 - (w - 1 - k) = k by omega] at h1
    simp [h1, h2, hk]
  · have : bitrev (bitrev i w) w < 2 ^ k := lt_of_lt_of_le (bitrev_lt _ _) (Nat.pow_le_pow_right (by decide) (by omega))
    simp [hk, Nat.testBit_eq_false_of_lt this]

/-- The exponents of the two entries that pair up add to 2^w (rule R124). -/
theorem bitrev_pair {w e j : Nat} (he : e < w) (hj : j < 2 ^ e) :
    bitrev (2 ^ e + j) w + bitrev (2 * 2 ^ e - 1 - j) w = 2 ^ w := by
  induction e generalizing w j with
  | zero =>
    obtain ⟨w, rfl⟩ : ∃ v, w = v + 1 := ⟨w - 1, by omega⟩
    have : j = 0 := by simpa using hj
    subst this
    have h0 : bitrev 0 w = 0 := by
      clear he
      induction w with
      | zero => rfl
      | succ w ih => rw [bitrev_succ]; simpa using ih
    simp only [pow_zero, Nat.add_zero, Nat.mul_one, Nat.sub_zero, Nat.reduceSub, bitrev_succ, Nat.reduceMod, Nat.reduceDiv, h0,
      Nat.one_mul]
    rw [pow_succ]
    omega
  | succ e ih =>
    obtain ⟨w, rfl⟩ : ∃ v, w = v + 1 := ⟨w - 1, by omega⟩
    have hp : 2 ^ (e + 1) = 2 * 2 ^ e := pow_succ' 2 e
    have hpos : 0 < 2 ^ e := by positivity
    have hj2 : j / 2 < 2 ^ e := by omega
    have := ih (w := w) (j := j / 2) (by omega) hj2
    rw [bitrev_succ, bitrev_succ]
    have a1 : (2 ^ (e + 1) + j) / 2 = 2 ^ e + j / 2 := by omega
    have a2 : (2 * 2 ^ (e + 1) - 1 - j) / 2 = 2 * 2 ^ e - 1 - j / 2 := by omega
    have a3 : (2 ^ (e + 1) + j) % 2 = j % 2 := by omega
    have a4 : (2 * 2 ^ (e + 1) - 1 - j) % 2 = 1 - j % 2 := by omega
    rw [a1, a2, a3, a4, pow_succ]
    rcases Nat.mod_two_eq_zero_or_one j with h | h <;> rw [h] <;> omega

@[simp] theorem zetaTable_length (root brv : Nat) (q : Int) : (zetaTable root brv q).length = 256 := by simp [zetaTable]

/-- The element ZGEN writes at index i < 256, as a value (rule R122). -/
theorem zgen_read {s : State} (hq : QLegal s) (root brv : Nat) (m : Memory 32) {i : Nat} (hi : i < 256) :
    uval (Memory.read (Memory.writeRange m 0 (zetaTable root brv s.modulus)) i) = zetaValue root brv s.modulus i := by
  have h1 : (1 : Int) ≤ s.modulus := by have := hq.1; simp only [State.modulus, uval]; omega
  have h2 : s.modulus ≤ 2147483647 := by have := hq.2; simp only [State.modulus, uval, qMax] at *; omega
  have := Memory.read_writeRange_inside m 0 (zetaTable root brv s.modulus) (i := i) (by simpa using hi)
  rw [Nat.zero_add] at this
  rw [this]
  simp only [zetaTable, List.getElem_map, List.getElem_range]
  exact uval_ofInt (mod_nonneg h1 _) (by have := mod_lt h1 ((root ^ bitrev i brv : Nat) : Int); simp only [zetaValue]; omega)

end Sys2Proof.Machine
end

