-- ==== Sys2Proof/Laws/NttEvaluation.lean ====
section
/-! SUPPORT. What the forward transform computes (rule R141): each layer keeps, block by block, the value of the bank's polynomial at the
roots that belong to the block. -/

namespace Sys2Proof.Machine

theorem fwdBlock_getD (q z : Int) {as bs : List Int} (h : as.length = bs.length) {i : Nat} (hi : i < as.length) :
    (fwdBlock q z as bs).1.getD i 0 = mod (as.getD i 0 + mod (z * bs.getD i 0) q) q ∧
    (fwdBlock q z as bs).2.getD i 0 = mod (as.getD i 0 - mod (z * bs.getD i 0) q) q := by
  induction as generalizing bs i with
  | nil => simp at hi
  | cons a as ih =>
    cases bs with
    | nil => simp at h
    | cons b bs =>
      cases i with
      | zero => simp [fwdBlock]
      | succ i => simpa [fwdBlock] using ih (by simpa using h) (by simpa using hi)

/-- A forward layer, coefficient by coefficient: `o` is the place in the lower half of block `s`. -/
theorem fwdLayer_getD (q : Int) (z : Nat → Int) (len n k : Nat) {r : List Int} (h : r.length = n * (2 * len)) {s o : Nat}
    (hs : s < n) (ho : o < len) :
    (fwdLayer q z len n k r).getD (2 * len * s + o) 0 =
      mod (r.getD (2 * len * s + o) 0 + mod (z (k + s) * r.getD (2 * len * s + len + o) 0) q) q ∧
    (fwdLayer q z len n k r).getD (2 * len * s + len + o) 0 =
      mod (r.getD (2 * len * s + o) 0 - mod (z (k + s) * r.getD (2 * len * s + len + o) 0) q) q := by
  induction n generalizing k r s with
  | zero => omega
  | succ n ih =>
    obtain ⟨h1, h2, h3⟩ := block_halves h
    have hb := fwdBlock_length q (z k) (h1.trans h2.symm)
    have hm : (n + 1) * (2 * len) = n * (2 * len) + 2 * len := Nat.succ_mul n (2 * len)
    cases s with
    | zero =>
      obtain ⟨g1, g2⟩ := fwdBlock_getD q (z k) (h1.trans h2.symm) (i := o) (by omega)
      have e1 : (r.take len).getD o 0 = r.getD o 0 := by
        simp [List.getD, ho]
      have e2 : ((r.drop len).take len).getD o 0 = r.getD (len + o) 0 := by
        simp [List.getD, ho]
      rw [e1, e2] at g1 g2
      simp only [fwdLayer, Nat.mul_zero, Nat.zero_add, Nat.add_zero]
      constructor
      · rw [← g1, List.append_assoc, List.getD_append _ _ _ _ (by rw [hb.1, h1]; exact ho)]
      · rw [← g2, List.append_assoc, List.getD_append_right _ _ _ _ (by rw [hb.1, h1]; omega), hb.1, h1, Nat.add_sub_cancel_left,
          List.getD_append _ _ _ _ (by rw [hb.2, h1]; exact ho)]
    | succ s =>
      have hi := ih (k + 1) h3 (s := s) (by omega)
      have hl : ((fwdBlock q (z k) (r.take len) ((r.drop len).take len)).1 ++
          (fwdBlock q (z k) (r.take len) ((r.drop len).take len)).2).length = 2 * len := by
        rw [List.length_append, hb.1, hb.2, h1]; omega
      have hd : ∀ a, (r.drop (2 * len)).getD a 0 = r.getD (2 * len + a) 0 := fun a => by simp [List.getD]
      simp only [hd, ← Nat.add_assoc] at hi
      have ea : 2 * len * (s + 1) = 2 * len + 2 * len * s := by ring
      simp only [fwdLayer, ea]
      rw [List.getD_append_right _ _ _ _ (by rw [hl]; omega), List.getD_append_right _ _ _ _ (by rw [hl]; omega), hl,
        show 2 * len + 2 * len * s + o - 2 * len = 2 * len * s + o by omega,
        show 2 * len + 2 * len * s + len + o - 2 * len = 2 * len * s + len + o by omega, hi.1, hi.2,
        show k + 1 + s = k + (s + 1) by omega]
      exact ⟨rfl, rfl⟩

/-- The polynomial of the coefficients c, f + c, 2f + c, ... of the block of width w that starts at `base`, at the point g. -/
def blockEval (f c : Nat) (g : Int) (r : List Int) (base w : Nat) : Int :=
  ∑ m ∈ Finset.range (w / f), r.getD (base + f * m + c) 0 * g ^ m

/-- One layer keeps the value at a root g of its half block: g^(len/f) is the block's zeta in the lower half, its negative in the upper. -/
theorem blockEval_layer (q : Int) (z : Nat → Int) {f len n k : Nat} (hf : 0 < f) {b : Nat} (hlen : len = f * b) {r : List Int}
    (h : r.length = n * (2 * len)) {c s : Nat} (hc : c < f) (hs : s < n) (g : Int) :
    (q ∣ g ^ b - z (k + s) → q ∣ blockEval f c g (fwdLayer q z len n k r) (2 * len * s) len - blockEval f c g r (2 * len * s) (2 * len)) ∧
    (q ∣ g ^ b + z (k + s) →
      q ∣ blockEval f c g (fwdLayer q z len n k r) (2 * len * s + len) len - blockEval f c g r (2 * len * s) (2 * len)) := by
  have hb : len / f = b := by rw [hlen, Nat.mul_div_cancel_left _ hf]
  have hb2 : 2 * len / f = b + b := by rw [hlen, show 2 * (f * b) = f * (b + b) by ring, Nat.mul_div_cancel_left _ hf]
  have hsplit : blockEval f c g r (2 * len * s) (2 * len) =
      ∑ m ∈ Finset.range b, (r.getD (2 * len * s + f * m + c) 0 + g ^ b * r.getD (2 * len * s + len + (f * m + c)) 0) * g ^ m := by
    rw [blockEval, hb2, Finset.sum_range_add, ← Finset.sum_add_distrib]
    refine Finset.sum_congr rfl fun m _ => ?_
    rw [show 2 * len * s + f * (b + m) + c = 2 * len * s + len + (f * m + c) by rw [hlen]; ring, pow_add]
    ring
  have hcell : ∀ m, m ∈ Finset.range b → f * m + c < len := by
    intro m hm
    have h1 : f * (m + 1) ≤ f * b := Nat.mul_le_mul_left f (Finset.mem_range.1 hm)
    rw [Nat.mul_add, Nat.mul_one] at h1
    omega
  constructor
  · intro hz
    rw [hsplit, blockEval, hb, ← Finset.sum_sub_distrib]
    refine Finset.dvd_sum fun m hm => ?_
    have := (fwdLayer_getD q z len n k h hs (hcell m hm)).1
    rw [Nat.add_assoc (2 * len * s), this]
    generalize r.getD (2 * len * s + (f * m + c)) 0 = x
    generalize r.getD (2 * len * s + len + (f * m + c)) 0 = y
    rw [mod_add_right, ← sub_mul]
    refine Dvd.dvd.mul_right ?_ _
    have h2 : mod (x + z (k + s) * y) q - (x + g ^ b * y) =
        -((x + z (k + s) * y) - mod (x + z (k + s) * y) q) - (g ^ b - z (k + s)) * y := by ring
    rw [h2]
    exact dvd_sub ((dvd_sub_mod _ q).neg_right) (hz.mul_right y)
  · intro hz
    rw [hsplit, blockEval, hb, ← Finset.sum_sub_distrib]
    refine Finset.dvd_sum fun m hm => ?_
    have := (fwdLayer_getD q z len n k h hs (hcell m hm)).2
    rw [Nat.add_assoc (2 * len * s + len), this, Nat.add_assoc (2 * len * s) (f * m) c]
    generalize r.getD (2 * len * s + (f * m + c)) 0 = x
    generalize r.getD (2 * len * s + len + (f * m + c)) 0 = y
    rw [mod_sub_right, ← sub_mul]
    refine Dvd.dvd.mul_right ?_ _
    have h2 : mod (x - z (k + s) * y) q - (x + g ^ b * y) =
        -((x - z (k + s) * y) - mod (x - z (k + s) * y) q) - (g ^ b + z (k + s)) * y := by ring
    rw [h2]
    exact dvd_sub ((dvd_sub_mod _ q).neg_right) (hz.mul_right y)

/-- The same, by the index i of an output coefficient: its block before the layer and its half block after it. -/
theorem blockEval_layer_at (q : Int) (z : Nat → Int) {f len : Nat} (hf : 0 < f) {b : Nat} (hlen : len = f * b) (hl : 0 < len)
    (hw : blocksOf len * (2 * len) = 256) {r : List Int} (h : r.length = 256) {c i : Nat} (hc : c < f) (hi : i < 256) (k : Nat) (g : Int)
    (hg : q ∣ g ^ b - (if i % (2 * len) < len then z (k + i / (2 * len)) else -z (k + i / (2 * len)))) :
    q ∣ blockEval f c g (fwdLayer q z len (blocksOf len) k r) (len * (i / len)) len
      - blockEval f c g r (2 * len * (i / (2 * len))) (2 * len) := by
  have hs : i / (2 * len) < blocksOf len := by
    rw [Nat.div_lt_iff_lt_mul (by omega), hw]; exact hi
  have hdm := Nat.div_add_mod i (2 * len)
  have hlt := Nat.mod_lt i (show 0 < 2 * len by omega)
  obtain ⟨h1, h2⟩ := blockEval_layer q z (k := k) hf hlen (h.trans hw.symm) hc hs g
  split at hg
  · rename_i ho
    have hb : len * (i / len) = 2 * len * (i / (2 * len)) := by
      have : i / len = 2 * (i / (2 * len)) := by
        apply Nat.div_eq_of_lt_le
        · rw [Nat.mul_comm 2, Nat.mul_assoc, Nat.mul_comm]; omega
        · rw [Nat.add_mul, Nat.one_mul, Nat.mul_comm 2, Nat.mul_assoc, Nat.mul_comm]; omega
      rw [this]; ring
    rw [hb]
    exact h1 hg
  · rename_i ho
    have hb : len * (i / len) = 2 * len * (i / (2 * len)) + len := by
      have : i / len = 2 * (i / (2 * len)) + 1 := by
        have e : (2 * (i / (2 * len)) + 1) * len = 2 * len * (i / (2 * len)) + len := by ring
        apply Nat.div_eq_of_lt_le
        · rw [e]; omega
        · rw [Nat.add_mul _ 1, Nat.one_mul, e]; omega
      rw [this]; ring
    rw [hb]
    exact h2 (by simpa using hg)

/-- All the layers of a list of widths, each of which halves the block. `d` is the width of the blocks before the first layer. -/
theorem blockEval_layers (q : Int) (z : Nat → Int) {f : Nat} (hf : 0 < f) {ws : List Nat} (hw : WidthsOk ws) {d : Nat}
    (hd : ∀ len, ws.head? = some len → d = 2 * len) (hchain : ws.IsChain (fun a b => a = 2 * b)) (hlast : ∀ len, len ∈ ws → f ∣ len ∧ 0 < len)
    (k : Nat) {r : List Int} (h : r.length = 256) {c i : Nat} (hc : c < f) (hi : i < 256) (g : Int)
    (hg : ∀ len kk, (len, kk) ∈ ws.zip (ws.scanl (fun a l => a + blocksOf l) k) →
      q ∣ g ^ (len / f) - (if i % (2 * len) < len then z (kk + i / (2 * len)) else -z (kk + i / (2 * len)))) :
    q ∣ blockEval f c g (fwdLayers q z ws k r) ((ws.getLast?.getD d) * (i / ws.getLast?.getD d)) (ws.getLast?.getD d)
      - blockEval f c g r (d * (i / d)) d := by
  induction ws generalizing d k r with
  | nil => simp [fwdLayers]
  | cons len ws ih =>
    obtain rfl := hd len rfl
    obtain ⟨hfl, hpos⟩ := hlast len (by simp)
    have h0 := hw len (by simp)
    have hlay := fwdLayer_length q z len (blocksOf len) k (h.trans h0.symm)
    have h1 := blockEval_layer_at q z hf (b := len / f) (Nat.mul_div_cancel' hfl).symm hpos h0 h hc hi k g
      (hg len k (by simp [List.scanl_cons]))
    have h2 := ih hw.tail (d := len) (by
        intro l hl'
        cases ws with
        | nil => simp at hl'
        | cons w ws => simp at hl'; subst hl'; simpa using (List.isChain_cons_cons.1 hchain).1)
      (List.IsChain.tail hchain) (fun l hl' => hlast l (by simp [hl'])) (k + blocksOf len) (hlay.trans h)
      (fun l kk hm => hg l kk (by simp [List.scanl_cons, hm]))
    have e : (len :: ws).getLast?.getD (2 * len) = ws.getLast?.getD len := by
      cases ws <;> simp [List.getLast?_cons]
    rw [e]
    have := dvd_add h2 h1
    simpa [fwdLayers] using this

/-- Each layer's zeta exponent, checked for every coefficient: the exponent of the point times the width of the layer is that of the block's
zeta, plus half the order of the root in the upper half. `f` is the width of the last layer, `w` the bit-reversal width. -/
def exponentsAgree (f w : Nat) (layers : List (Nat × Nat)) : Bool :=
  (List.range 256).all fun i => layers.all fun p =>
    (2 * bitrev (i / f) w + 1) * (p.1 / f) % 2 ^ (w + 1) =
      (bitrev (p.2 + i / (2 * p.1)) w + if i % (2 * p.1) < p.1 then 0 else 2 ^ w) % 2 ^ (w + 1)

theorem exponentsAgree_complete :
    exponentsAgree 1 8 [(128, 1), (64, 2), (32, 4), (16, 8), (8, 16), (4, 32), (2, 64), (1, 128)] = true := by decide +kernel

theorem exponentsAgree_incomplete :
    exponentsAgree 2 7 [(128, 1), (64, 2), (32, 4), (16, 8), (8, 16), (4, 32), (2, 64)] = true := by decide +kernel

/-- Powers of a root whose 2^w-th power is −1 depend on the exponent modulo 2^(w+1) only. -/
theorem pow_congr_of_root {q root : Int} {w : Nat} (hr : q ∣ root ^ 2 ^ w + 1) {a b : Nat} (h : a % 2 ^ (w + 1) = b % 2 ^ (w + 1)) :
    q ∣ root ^ a - root ^ b := by
  have h1 : root ^ 2 ^ (w + 1) ≡ 1 [ZMOD q] := by
    have : root ^ 2 ^ (w + 1) - 1 = (root ^ 2 ^ w + 1) * (root ^ 2 ^ w - 1) := by rw [pow_succ 2 w, pow_mul]; ring
    exact (Int.modEq_iff_dvd.2 (by rw [this]; exact hr.mul_right _)).symm
  have h2 : ∀ n, root ^ n ≡ root ^ (n % 2 ^ (w + 1)) [ZMOD q] := fun n => by
    conv_lhs => rw [← Nat.div_add_mod n (2 ^ (w + 1)), pow_add, pow_mul]
    simpa using ((h1.pow (n / 2 ^ (w + 1))).mul_right (root ^ (n % 2 ^ (w + 1))))
  have h3 : root ^ b ≡ root ^ a [ZMOD q] := (h2 b).trans ((by rw [h] : root ^ (b % 2 ^ (w + 1)) ≡ root ^ (a % 2 ^ (w + 1)) [ZMOD q]).trans (h2 a).symm)
  exact h3.dvd

/-- The condition of `blockEval_layers`, for a table of the powers of a root. -/
theorem layer_condition {q root : Int} {z : Nat → Int} {f w : Nat} {layers : List (Nat × Nat)} (ha : exponentsAgree f w layers = true)
    (hr : q ∣ root ^ 2 ^ w + 1) (hz : ∀ k, k < 256 → q ∣ z k - root ^ bitrev k w)
    (hk : ∀ p ∈ layers, ∀ i, i < 256 → p.2 + i / (2 * p.1) < 256) {i len kk : Nat} (hi : i < 256) (hm : (len, kk) ∈ layers) :
    q ∣ (root ^ (2 * bitrev (i / f) w + 1)) ^ (len / f)
      - (if i % (2 * len) < len then z (kk + i / (2 * len)) else -z (kk + i / (2 * len))) := by
  have hb := (List.all_eq_true.1 ((List.all_eq_true.1 ha) i (by simpa using hi))) (len, kk) hm
  simp only [decide_eq_true_eq] at hb
  have hz' := hz _ (hk (len, kk) hm i hi)
  simp only at hz'
  have hp := pow_congr_of_root hr hb
  rw [← pow_mul]
  split at hp
  · rename_i ho
    rw [if_pos ho]
    have := dvd_sub hp hz'
    simpa using this
  · rename_i ho
    rw [if_neg ho]
    rw [pow_add] at hp
    have h4 := dvd_add hp (hr.mul_left (root ^ bitrev (kk + i / (2 * len)) w))
    have h5 := dvd_add h4 hz'
    generalize root ^ bitrev (kk + i / (2 * len)) w = e at h5
    generalize root ^ 2 ^ w = d at h5
    generalize root ^ ((2 * bitrev (i / f) w + 1) * (len / f)) = t at h5 ⊢
    generalize z (kk + i / (2 * len)) = y at h5 ⊢
    have : t - -y = t - e * d + e * (d + 1) + (y - e) := by ring
    rw [this]
    exact h5

theorem blockEval_last {f : Nat} (hf : 0 < f) (g : Int) (r : List Int) (i : Nat) :
    blockEval f (i % f) g r (f * (i / f)) f = r.getD i 0 := by
  have : f / f = 1 := Nat.div_self hf
  rw [blockEval, this, Finset.sum_range_one, Nat.mul_zero, Nat.add_zero, Nat.div_add_mod, pow_zero, Int.mul_one]

/-- Rule R141, the complete variant: coefficient i is the value of the bank's polynomial at ROOT^(2·bitrev(i, 8) + 1). -/
theorem nttFwd_complete_eval {q root : Int} {z : Nat → Int} (hr : q ∣ root ^ 2 ^ 8 + 1) (hz : ∀ k, k < 256 → q ∣ z k - root ^ bitrev k 8)
    {r : List Int} (h : r.length = 256) {i : Nat} (hi : i < 256) :
    q ∣ (nttFwd q z false r).getD i 0 - ∑ j ∈ Finset.range 256, r.getD j 0 * (root ^ (2 * bitrev i 8 + 1)) ^ j := by
  have hk : ∀ p ∈ [(128, 1), (64, 2), (32, 4), (16, 8), (8, 16), (4, 32), (2, 64), (1, 128)], ∀ i, i < 256 → p.2 + i / (2 * p.1) < 256 := by
    intro p hp i hi
    simp only [List.mem_cons, List.not_mem_nil, or_false] at hp
    rcases hp with rfl | rfl | rfl | rfl | rfl | rfl | rfl | rfl <;> simp only <;> omega
  have := blockEval_layers q z (f := 1) (by decide) (widthsOk_layerWidths false) (d := 256) (by simp [layerWidths]) (by simp [layerWidths])
    (by simp [layerWidths]) 1 h (c := 0) (i := i) (by decide) hi (root ^ (2 * bitrev (i / 1) 8 + 1))
    (fun len kk hm => layer_condition exponentsAgree_complete hr hz hk hi (by
      simpa [layerWidths, blocksOf, List.scanl_cons] using hm))
  have hl := blockEval_last (f := 1) (by decide) (root ^ (2 * bitrev (i / 1) 8 + 1)) (nttFwd q z false r) i
  simp only [layerWidths, Bool.false_eq_true, if_false, List.getLast?_cons, List.getLast?_nil, Option.getD_some, Option.getD_none,
    Nat.mod_one, Nat.div_one, Nat.one_mul] at this hl
  rw [nttFwd, layerWidths] at hl ⊢
  simp only [Bool.false_eq_true, if_false] at hl ⊢
  rw [← hl]
  simpa [blockEval, Nat.div_eq_of_lt hi] using this

/-- Rule R141, the incomplete variant: the pair of coefficients 2i and 2i + 1 is the remainder of the bank's polynomial divided by
X² − ROOT^(2·bitrev(i, 7) + 1), coefficient by coefficient (`c` is 0 or 1). -/
theorem nttFwd_incomplete_eval {q root : Int} {z : Nat → Int} (hr : q ∣ root ^ 2 ^ 7 + 1) (hz : ∀ k, k < 256 → q ∣ z k - root ^ bitrev k 7)
    {r : List Int} (h : r.length = 256) {i c : Nat} (hi : i < 128) (hc : c < 2) :
    q ∣ (nttFwd q z true r).getD (2 * i + c) 0
      - ∑ j ∈ Finset.range 128, r.getD (2 * j + c) 0 * (root ^ (2 * bitrev i 7 + 1)) ^ j := by
  have hk : ∀ p ∈ [(128, 1), (64, 2), (32, 4), (16, 8), (8, 16), (4, 32), (2, 64)], ∀ i, i < 256 → p.2 + i / (2 * p.1) < 256 := by
    intro p hp i hi
    simp only [List.mem_cons, List.not_mem_nil, or_false] at hp
    rcases hp with rfl | rfl | rfl | rfl | rfl | rfl | rfl <;> simp only <;> omega
  have hd : (2 * i + c) / 2 = i := by omega
  have hm : (2 * i + c) % 2 = c := by omega
  have := blockEval_layers q z (f := 2) (by decide) (widthsOk_layerWidths true) (d := 256) (by simp [layerWidths]) (by simp [layerWidths])
    (by simp [layerWidths]) 1 h (c := c) (i := 2 * i + c) hc (by omega) (root ^ (2 * bitrev ((2 * i + c) / 2) 7 + 1))
    (fun len kk hm => layer_condition exponentsAgree_incomplete hr hz hk (by omega) (by
      simpa [layerWidths, blocksOf, List.scanl_cons] using hm))
  have hl := blockEval_last (f := 2) (by decide) (root ^ (2 * bitrev ((2 * i + c) / 2) 7 + 1)) (nttFwd q z true r) (2 * i + c)
  simp only [layerWidths, if_true, List.getLast?_cons, List.getLast?_nil, Option.getD_some, Option.getD_none, hd, hm] at this hl
  rw [nttFwd, layerWidths] at hl ⊢
  simp only [if_true] at hl ⊢
  rw [← hl]
  simpa [blockEval, show (2 * i + c) / 256 = 0 by omega] using this

end Sys2Proof.Machine
end

