-- ==== Sys2Proof/Laws/NttLayers.lean ====
section
/-! SUPPORT. The transforms as a whole: they undo each other under the conditions of rule R138, and what zetas and what residues they
depend on (rules R131 to R135). -/

namespace Sys2Proof.Machine

/-- The blocks of all the layers of a list of widths, which is the number of zetas they consume. -/
def totalBlocks (ws : List Nat) : Nat := (ws.map blocksOf).sum

theorem invLayers_append (q : Int) (z : Nat → Int) (ws ws' : List Nat) (k : Nat) (r : List Int) :
    invLayers q z (ws ++ ws') k r = invLayers q z ws' (k - totalBlocks ws) (invLayers q z ws k r) := by
  induction ws generalizing k r with
  | nil => rfl
  | cons len ws ih =>
    simp only [List.cons_append, invLayers, ih, totalBlocks, List.map_cons, List.sum_cons]
    congr 1
    omega

theorem totalBlocks_reverse (ws : List Nat) : totalBlocks ws.reverse = totalBlocks ws := by
  simp [totalBlocks, List.map_reverse, List.sum_reverse]

/-- Condition (i) of rule R138 on every layer, the first of which starts at zeta index k. -/
def PairsFrom (q : Int) (z : Nat → Int) : List Nat → Nat → Prop
  | [], _ => True
  | len :: ws, k =>
    (∀ s, s < blocksOf len → ZetaPair q (z (k + s)) (z (k + blocksOf len - 1 - s))) ∧ PairsFrom q z ws (k + blocksOf len)

theorem scale_scale (q c d : Int) (r : List Int) : scale q c (scale q d r) = scale q (c * d) r := by
  simp only [scale, List.map_map]
  exact List.map_congr_left fun x _ => by simp only [Function.comp_apply, mod_mul_right]; congr 1; ring

/-- Rule R138, first direction, before the scaling pass: all inverse layers after all forward layers give 2^L times the input. -/
theorem invLayers_fwdLayers {q : Int} {z : Nat → Int} {ws : List Nat} (hw : WidthsOk ws) {k : Nat} (hk : 1 ≤ k)
    (hp : PairsFrom q z ws k) {r : List Int} (h : r.length = 256) (hr : ws ≠ []) :
    invLayers q z ws.reverse (k + totalBlocks ws - 1) (fwdLayers q z ws k r) = scale q (2 ^ ws.length) r := by
  induction ws generalizing k r with
  | nil => exact absurd rfl hr
  | cons len ws ih =>
    have h0 := h.trans (hw len (by simp)).symm
    have hl := (fwdLayer_length q z len _ k h0).trans h
    have he : k + totalBlocks (len :: ws) - 1 = k + blocksOf len + totalBlocks ws - 1 := by
      simp only [totalBlocks, List.map_cons, List.sum_cons]; omega
    have hmir := invLayer_fwdLayer (q := q) (z := z) (z' := z) (len := len) (n := blocksOf len) (k := k)
      (k' := k + blocksOf len - 1) (by omega) (fun s hs => hp.1 s hs) h0
    rw [List.reverse_cons, invLayers_append, totalBlocks_reverse, he, fwdLayers,
      show k + blocksOf len + totalBlocks ws - 1 - totalBlocks ws = k + blocksOf len - 1 by omega]
    by_cases hn : ws = []
    · subst hn
      simp only [List.reverse_nil, fwdLayers, invLayers, hmir, List.length_cons, List.length_nil]
      norm_num
    · rw [ih hw.tail (by omega) hp.2 hl hn]
      simp only [invLayers]
      rw [invLayer_scale q _ z len _ _ ((fwdLayer_length q z len _ k h0).trans h0), hmir, scale_scale, List.length_cons, pow_succ]

/-- Rule R138, second direction, before the scaling pass. -/
theorem fwdLayers_invLayers {q : Int} {z : Nat → Int} {ws : List Nat} (hw : WidthsOk ws) {k : Nat} (hk : 1 ≤ k)
    (hp : PairsFrom q z ws k) {r : List Int} (h : r.length = 256) (hr : ws ≠ []) :
    fwdLayers q z ws k (invLayers q z ws.reverse (k + totalBlocks ws - 1) r) = scale q (2 ^ ws.length) r := by
  induction ws generalizing k r with
  | nil => exact absurd rfl hr
  | cons len ws ih =>
    have he : k + totalBlocks (len :: ws) - 1 = k + blocksOf len + totalBlocks ws - 1 := by
      simp only [totalBlocks, List.map_cons, List.sum_cons]; omega
    have hin := invLayers_length q z (widthsOk_reverse hw.tail) (k + blocksOf len + totalBlocks ws - 1) h
    have hmir := fun (r' : List Int) (h' : r'.length = 256) =>
      fwdLayer_invLayer (q := q) (z := z) (z' := z) (len := len) (n := blocksOf len) (k := k)
        (k' := k + blocksOf len - 1) (by omega) (fun s hs => hp.1 s hs) (h'.trans (hw len (by simp)).symm)
    rw [List.reverse_cons, invLayers_append, totalBlocks_reverse, he, fwdLayers,
      show k + blocksOf len + totalBlocks ws - 1 - totalBlocks ws = k + blocksOf len - 1 by omega]
    simp only [invLayers]
    rw [hmir _ hin]
    by_cases hn : ws = []
    · subst hn
      simp [fwdLayers, invLayers]
    · rw [fwdLayers_scale q _ z hw.tail _ hin, ih hw.tail (by omega) hp.2 h hn, scale_scale, List.length_cons, pow_succ]
      congr 1; ring

/-- The number of layers (rule R130). -/
theorem layerWidths_length (inc : Bool) : (layerWidths inc).length = if inc then 7 else 8 := by cases inc <;> rfl

theorem invStart_eq (inc : Bool) : invStart inc = 1 + totalBlocks (layerWidths inc) - 1 := by cases inc <;> rfl

theorem layerWidths_ne_nil (inc : Bool) : layerWidths inc ≠ [] := by cases inc <;> decide

/-- Condition (i) of rule R138 as the rule says it, for B = 2^e, gives the pairs of every layer. -/
theorem pairsFrom_layerWidths {q : Int} {z : Nat → Int} (inc : Bool)
    (hz : ∀ e, e < (if inc then 7 else 8) → ∀ j, j < 2 ^ e → ZetaPair q (z (2 ^ e + j)) (z (2 * 2 ^ e - 1 - j))) :
    PairsFrom q z (layerWidths inc) 1 := by
  have h : ∀ e, e < (if inc then 7 else 8) → ∀ s, s < 2 ^ e → ZetaPair q (z (2 ^ e + s)) (z (2 ^ e + 2 ^ e - 1 - s)) := by
    intro e he s hs
    have := hz e he s hs
    rwa [show 2 * 2 ^ e = 2 ^ e + 2 ^ e by ring] at this
  cases inc
  · exact ⟨h 0 (by decide), h 1 (by decide), h 2 (by decide), h 3 (by decide), h 4 (by decide), h 5 (by decide), h 6 (by decide),
      h 7 (by decide), trivial⟩
  · exact ⟨h 0 (by decide), h 1 (by decide), h 2 (by decide), h 3 (by decide), h 4 (by decide), h 5 (by decide), h 6 (by decide),
      trivial⟩

/-- Scaling by 2^L and then by its inverse F leaves the residue (condition (ii) of rule R138). -/
theorem scale_inverse {q f c : Int} (hf : mod (f * c - 1) q = 0) (r : List Int) :
    (scale q c r).map (fun x => mod (f * x) q) = r.map fun x => mod x q := by
  simp only [scale, List.map_map]
  refine List.map_congr_left fun x _ => ?_
  simp only [Function.comp_apply, mod_mul_right]
  rw [show f * (c * x) = x + x * (f * c - 1) by ring, ← mod_add_mod, ← mod_mul_right x, hf, Int.mul_zero, mod_zero, Int.add_zero, mod_mod]

/-- Rule R138: NTT.INV after NTT.FWD. -/
theorem nttInv_nttFwd {q f : Int} {z : Nat → Int} {inc : Bool} (hp : PairsFrom q z (layerWidths inc) 1)
    (hf : mod (f * 2 ^ (layerWidths inc).length - 1) q = 0) {r : List Int} (h : r.length = 256) :
    nttInv q f z inc (nttFwd q z inc r) = r.map fun x => mod x q := by
  rw [nttInv, nttFwd, invStart_eq, invLayers_fwdLayers (widthsOk_layerWidths inc) (by omega) hp h (layerWidths_ne_nil inc),
    scale_inverse hf]

/-- Rule R138: NTT.FWD after NTT.INV. -/
theorem nttFwd_nttInv {q f : Int} {z : Nat → Int} {inc : Bool} (hp : PairsFrom q z (layerWidths inc) 1)
    (hf : mod (f * 2 ^ (layerWidths inc).length - 1) q = 0) {r : List Int} (h : r.length = 256) :
    nttFwd q z inc (nttInv q f z inc r) = r.map fun x => mod x q := by
  have hw := widthsOk_layerWidths inc
  have hl := invLayers_length q z (widthsOk_reverse hw) (invStart inc) h
  have hs : nttInv q f z inc r = scale q f (invLayers q z (layerWidths inc).reverse (invStart inc) r) := rfl
  rw [hs, nttFwd, fwdLayers_scale q f z hw 1 hl, invStart_eq,
    fwdLayers_invLayers hw (by omega) hp h (layerWidths_ne_nil inc)]
  exact scale_inverse hf r

/-! ### What the transforms depend on -/

theorem fwdLayer_congr {q : Int} {z z' : Nat → Int} {len n k : Nat} (hz : ∀ s, s < n → z (k + s) = z' (k + s)) (r : List Int) :
    fwdLayer q z len n k r = fwdLayer q z' len n k r := by
  induction n generalizing k r with
  | zero => rfl
  | succ n ih =>
    simp only [fwdLayer]
    rw [show z k = z' k by simpa using hz 0 (by omega), ih fun s hs => by
      have := hz (s + 1) (by omega); rwa [show k + (s + 1) = k + 1 + s by omega] at this]

theorem invLayer_congr {q : Int} {z z' : Nat → Int} {len n k : Nat} (hz : ∀ s, s < n → z (k - s) = z' (k - s)) (r : List Int) :
    invLayer q z len n k r = invLayer q z' len n k r := by
  induction n generalizing k r with
  | zero => rfl
  | succ n ih =>
    simp only [invLayer]
    rw [show z k = z' k by simpa using hz 0 (by omega), ih fun s hs => by
      have := hz (s + 1) (by omega); rwa [show k - (s + 1) = k - 1 - s by omega] at this]

/-- Forward layers from index k on read the zetas k, k + 1, ... only, as many as there are blocks (rule R132). -/
theorem fwdLayers_congr {q : Int} {z z' : Nat → Int} {ws : List Nat} {k : Nat}
    (hz : ∀ i, k ≤ i → i < k + totalBlocks ws → z i = z' i) (r : List Int) :
    fwdLayers q z ws k r = fwdLayers q z' ws k r := by
  induction ws generalizing k r with
  | nil => rfl
  | cons len ws ih =>
    simp only [totalBlocks, List.map_cons, List.sum_cons] at hz
    simp only [fwdLayers]
    rw [fwdLayer_congr fun s hs => hz (k + s) (by omega) (by omega), ih fun i h1 h2 => hz i (by omega) (by simp only [totalBlocks] at h2; omega)]

/-- Inverse layers from index k on read the zetas k, k − 1, ... only (rule R135). -/
theorem invLayers_congr {q : Int} {z z' : Nat → Int} {ws : List Nat} {k : Nat} (hk : totalBlocks ws ≤ k)
    (hz : ∀ i, i ≤ k → k - totalBlocks ws < i → z i = z' i) (r : List Int) :
    invLayers q z ws k r = invLayers q z' ws k r := by
  induction ws generalizing k r with
  | nil => rfl
  | cons len ws ih =>
    simp only [totalBlocks, List.map_cons, List.sum_cons] at hz hk
    simp only [invLayers]
    rw [invLayer_congr fun s hs => hz (k - s) (by omega) (by omega),
      ih (k := k - blocksOf len) (by simp only [totalBlocks]; omega) fun i h1 h2 => hz i (by omega) (by simp only [totalBlocks] at h2; omega)]

/-- Butterflies see the residues of their inputs only. -/
theorem fwdBlock_residues (q z : Int) (as bs : List Int) :
    fwdBlock q z (scale q 1 as) (scale q 1 bs) = fwdBlock q z as bs := by
  induction as generalizing bs with
  | nil => cases bs <;> rfl
  | cons a as ih =>
    cases bs with
    | nil => rfl
    | cons b bs =>
      have := ih bs
      simp only [scale, List.map_cons, fwdBlock, Int.one_mul] at this ⊢
      rw [this, mod_add_left, mod_sub_left, mod_mul_right]

theorem invBlock_residues (q z : Int) (as bs : List Int) :
    invBlock q z (scale q 1 as) (scale q 1 bs) = invBlock q z as bs := by
  induction as generalizing bs with
  | nil => cases bs <;> rfl
  | cons a as ih =>
    cases bs with
    | nil => rfl
    | cons b bs =>
      have := ih bs
      simp only [scale, List.map_cons, invBlock, Int.one_mul] at this ⊢
      rw [this, mod_add_mod, ← mod_mul_right z (mod b q - mod a q), mod_sub_mod, mod_mul_right]

theorem fwdLayer_residues (q : Int) (z : Nat → Int) (len n k : Nat) (hn : 0 < n) {r : List Int} (h : r.length = n * (2 * len)) :
    fwdLayer q z len n k (scale q 1 r) = fwdLayer q z len n k r := by
  induction n generalizing k r with
  | zero => omega
  | succ n ih =>
    simp only [fwdLayer, ← scale_take, ← scale_drop, fwdBlock_residues]
    rcases Nat.eq_zero_or_pos n with rfl | hn
    · have := (block_halves h).2.2
      rw [Nat.zero_mul, List.length_eq_zero_iff] at this
      simp [this, scale, fwdLayer]
    · rw [ih (k + 1) hn (block_halves h).2.2]

theorem invLayer_residues (q : Int) (z : Nat → Int) (len n k : Nat) (hn : 0 < n) {r : List Int} (h : r.length = n * (2 * len)) :
    invLayer q z len n k (scale q 1 r) = invLayer q z len n k r := by
  induction n generalizing k r with
  | zero => omega
  | succ n ih =>
    simp only [invLayer, ← scale_take, ← scale_drop, invBlock_residues]
    rcases Nat.eq_zero_or_pos n with rfl | hn
    · have := (block_halves h).2.2
      rw [Nat.zero_mul, List.length_eq_zero_iff] at this
      simp [this, scale, invLayer]
    · rw [ih (k - 1) hn (block_halves h).2.2]

/-- Rules R131, R133: both transforms see the residues of the bank only. -/
theorem nttFwd_residues (q : Int) (z : Nat → Int) (inc : Bool) {r : List Int} (h : r.length = 256) :
    nttFwd q z inc (scale q 1 r) = nttFwd q z inc r := by
  cases inc <;> simp only [nttFwd, layerWidths, fwdLayers, Bool.false_eq_true, if_false, if_true] <;>
    rw [fwdLayer_residues q z 128 _ 1 (by decide) h]

theorem nttInv_residues (q f : Int) (z : Nat → Int) (inc : Bool) {r : List Int} (h : r.length = 256) :
    nttInv q f z inc (scale q 1 r) = nttInv q f z inc r := by
  cases inc
  · simp only [nttInv, layerWidths, Bool.false_eq_true, if_false, List.reverse_cons, List.reverse_nil, List.nil_append,
      List.cons_append, invLayers]
    rw [invLayer_residues q z 1 _ _ (by decide) h]
  · simp only [nttInv, layerWidths, if_true, List.reverse_cons, List.reverse_nil, List.nil_append, List.cons_append, invLayers]
    rw [invLayer_residues q z 2 _ _ (by decide) h]

end Sys2Proof.Machine
end

