-- ==== Sys2Proof/Laws/NttLoops.lean ====
section
/-! SUPPORT. The block-wise transforms of the model and the in-place loops of the pseudocode of rules R131 and R133 agree. -/

namespace Sys2Proof.Machine

theorem getD_mid (pre post : List Int) (x : Int) : (pre ++ x :: post).getD pre.length 0 = x := by
  simp [List.getD]

theorem set_mid (pre post : List Int) (x y : Int) : (pre ++ x :: post).set pre.length y = pre ++ y :: post := by
  rw [List.set_append_right _ _ (Nat.le_refl _)]; simp

theorem getD_far (pre mid post : List Int) (x y : Int) {len : Nat} (hl : mid.length + 1 = len) :
    (pre ++ x :: (mid ++ y :: post)).getD (pre.length + len) 0 = y := by
  simp [← hl]

theorem set_far (pre mid post : List Int) (x y v : Int) {len : Nat} (hl : mid.length + 1 = len) :
    (pre ++ x :: (mid ++ y :: post)).set (pre.length + len) v = pre ++ x :: (mid ++ v :: post) := by
  simp [← hl]

/-- The three assignments of a forward butterfly on the pair (x, y) that lies len apart. -/
theorem loopFwdButterfly_eq (q z : Int) (pre mid post : List Int) (x y : Int) {len : Nat} (hl : mid.length + 1 = len) :
    loopFwdButterfly q z len pre.length (pre ++ x :: (mid ++ y :: post)) =
      pre ++ mod (x + mod (z * y) q) q :: (mid ++ mod (x - mod (z * y) q) q :: post) := by
  simp only [loopFwdButterfly, getD_far pre mid post x y hl, set_far pre mid post x y _ hl, getD_mid, set_mid]

/-- The three assignments of an inverse butterfly. -/
theorem loopInvButterfly_eq (q z : Int) (pre mid post : List Int) (x y : Int) {len : Nat} (hl : mid.length + 1 = len) :
    loopInvButterfly q z len pre.length (pre ++ x :: (mid ++ y :: post)) =
      pre ++ mod (x + y) q :: (mid ++ mod (z * (y - x)) q :: post) := by
  simp only [loopInvButterfly, getD_far pre mid post _ y hl, set_far pre mid post _ y _ hl, getD_mid, set_mid]

theorem loopBlock_zero (f : Nat → List Int → List Int) (start : Nat) (r : List Int) : loopBlock f start 0 r = r := rfl

theorem loopBlock_succ (f : Nat → List Int → List Int) (start n : Nat) (r : List Int) :
    loopBlock f start (n + 1) r = loopBlock f (start + 1) n (f start r) := by
  simp only [loopBlock, List.range_succ_eq_map, List.foldl_cons, List.foldl_map, Nat.add_zero]
  congr 1
  funext r d
  rw [show start + d.succ = start + 1 + d by omega]

/-- The inner loop over the pairs of a block, from any pair on: `mid` are the coefficients between the two runs still to do. -/
theorem loopBlock_fwd (q z : Int) (as bs : List Int) (h : as.length = bs.length) (pre mid post : List Int) {len : Nat}
    (hl : as.length + mid.length = len) :
    loopBlock (loopFwdButterfly q z len) pre.length as.length (pre ++ as ++ mid ++ bs ++ post) =
      pre ++ (fwdBlock q z as bs).1 ++ mid ++ (fwdBlock q z as bs).2 ++ post := by
  induction as generalizing bs pre mid with
  | nil => cases bs <;> simp_all [fwdBlock, loopBlock_zero]
  | cons a as ih =>
    cases bs with
    | nil => simp at h
    | cons b bs =>
      simp only [List.length_cons] at h hl
      have h1 := loopFwdButterfly_eq q z pre (as ++ mid) (bs ++ post) a b (len := len) (by simp only [List.length_append]; omega)
      have h2 := ih bs (by omega) (pre ++ [mod (a + mod (z * b) q) q]) (mid ++ [mod (a - mod (z * b) q) q])
        (by simp only [List.length_append, List.length_cons, List.length_nil]; omega)
      simp only [List.append_assoc, List.cons_append, List.nil_append, List.length_append, List.length_cons, List.length_nil] at h1 h2 ⊢
      rw [loopBlock_succ, h1, h2]
      simp [fwdBlock]

theorem loopBlock_inv (q z : Int) (as bs : List Int) (h : as.length = bs.length) (pre mid post : List Int) {len : Nat}
    (hl : as.length + mid.length = len) :
    loopBlock (loopInvButterfly q z len) pre.length as.length (pre ++ as ++ mid ++ bs ++ post) =
      pre ++ (invBlock q z as bs).1 ++ mid ++ (invBlock q z as bs).2 ++ post := by
  induction as generalizing bs pre mid with
  | nil => cases bs <;> simp_all [invBlock, loopBlock_zero]
  | cons a as ih =>
    cases bs with
    | nil => simp at h
    | cons b bs =>
      simp only [List.length_cons] at h hl
      have h1 := loopInvButterfly_eq q z pre (as ++ mid) (bs ++ post) a b (len := len) (by simp only [List.length_append]; omega)
      have h2 := ih bs (by omega) (pre ++ [mod (a + b) q]) (mid ++ [mod (z * (b - a)) q])
        (by simp only [List.length_append, List.length_cons, List.length_nil]; omega)
      simp only [List.append_assoc, List.cons_append, List.nil_append, List.length_append, List.length_cons, List.length_nil] at h1 h2 ⊢
      rw [loopBlock_succ, h1, h2]
      simp [invBlock]

/-- The loop over the blocks of a forward layer, from block m on: the zeta index counts up, the layer's result grows behind `pre`. -/
theorem loopFwdLayer (q : Int) (z : Nat → Int) (len n k m : Nat) (pre r : List Int) (hp : pre.length = 2 * len * m)
    (h : r.length = n * (2 * len)) :
    (List.range' m n).foldl (fun kr s => (kr.1 + 1, loopBlock (loopFwdButterfly q (z kr.1) len) (2 * len * s) len kr.2)) (k, pre ++ r)
      = (k + n, pre ++ fwdLayer q z len n k r) := by
  induction n generalizing k m pre r with
  | zero => simp [fwdLayer]
  | succ n ih =>
    obtain ⟨h1, h2, h3⟩ := block_halves h
    have hb := fwdBlock_length q (z k) (h1.trans h2.symm)
    have hblk := loopBlock_fwd q (z k) (r.take len) ((r.drop len).take len) (h1.trans h2.symm) pre [] (r.drop (2 * len))
      (len := len) (by simp only [h1, List.length_nil]; omega)
    simp only [List.append_nil, h1, hp] at hblk
    rw [show pre ++ r.take len ++ (r.drop len).take len ++ r.drop (2 * len) = pre ++ r by
      rw [List.append_assoc, List.append_assoc, ← List.append_assoc (r.take len), halves_append]] at hblk
    rw [List.range'_succ, List.foldl_cons]
    simp only [hblk]
    rw [ih (k + 1) (m + 1) _ _ (by simp only [List.length_append, hb.1, hb.2, h1, hp]; ring) h3]
    simp only [fwdLayer, List.append_assoc]
    congr 1
    omega

theorem loopInvLayer (q : Int) (z : Nat → Int) (len n k m : Nat) (pre r : List Int) (hp : pre.length = 2 * len * m)
    (h : r.length = n * (2 * len)) :
    (List.range' m n).foldl (fun kr s => (kr.1 - 1, loopBlock (loopInvButterfly q (z kr.1) len) (2 * len * s) len kr.2)) (k, pre ++ r)
      = (k - n, pre ++ invLayer q z len n k r) := by
  induction n generalizing k m pre r with
  | zero => simp [invLayer]
  | succ n ih =>
    obtain ⟨h1, h2, h3⟩ := block_halves h
    have hb := invBlock_length q (z k) (h1.trans h2.symm)
    have hblk := loopBlock_inv q (z k) (r.take len) ((r.drop len).take len) (h1.trans h2.symm) pre [] (r.drop (2 * len))
      (len := len) (by simp only [h1, List.length_nil]; omega)
    simp only [List.append_nil, h1, hp] at hblk
    rw [show pre ++ r.take len ++ (r.drop len).take len ++ r.drop (2 * len) = pre ++ r by
      rw [List.append_assoc, List.append_assoc, ← List.append_assoc (r.take len), halves_append]] at hblk
    rw [List.range'_succ, List.foldl_cons]
    simp only [hblk]
    rw [ih (k - 1) (m + 1) _ _ (by simp only [List.length_append, hb.1, hb.2, h1, hp]; ring) h3]
    simp only [invLayer, List.append_assoc]
    congr 1
    omega

/-- One round of `while len > LB`. -/
theorem loopFwd_step (q : Int) (z : Nat → Int) {lb len : Nat} (fuel k : Nat) {r : List Int} (hlen : len > lb)
    (hw : blocksOf len * (2 * len) = 256) (h : r.length = 256) :
    loopFwd q z lb (fuel + 1) len k r = loopFwd q z lb fuel (len / 2) (k + blocksOf len) (fwdLayer q z len (blocksOf len) k r) := by
  have := loopFwdLayer q z len (128 / len) k 0 [] r (by simp) (h.trans hw.symm)
  simp only [List.nil_append, ← List.range_eq_range'] at this
  simp only [loopFwd, if_pos hlen, this, blocksOf]

theorem loopFwd_stop (q : Int) (z : Nat → Int) {lb len : Nat} (fuel k : Nat) (r : List Int) (hlen : ¬ len > lb) :
    loopFwd q z lb (fuel + 1) len k r = r := by simp only [loopFwd, if_neg hlen]

/-- One round of `while len <= 128`. -/
theorem loopInv_step (q : Int) (z : Nat → Int) {len : Nat} (fuel k : Nat) {r : List Int} (hlen : len ≤ 128)
    (hw : blocksOf len * (2 * len) = 256) (h : r.length = 256) :
    loopInv q z (fuel + 1) len k r = loopInv q z fuel (2 * len) (k - blocksOf len) (invLayer q z len (blocksOf len) k r) := by
  have := loopInvLayer q z len (128 / len) k 0 [] r (by simp) (h.trans hw.symm)
  simp only [List.nil_append, ← List.range_eq_range'] at this
  simp only [loopInv, if_pos hlen, this, blocksOf]

theorem loopInv_stop (q : Int) (z : Nat → Int) {len : Nat} (fuel k : Nat) (r : List Int) (hlen : ¬ len ≤ 128) :
    loopInv q z (fuel + 1) len k r = r := by simp only [loopInv, if_neg hlen]

/-- The widths `while len > LB; len <- len >> 1` runs through from `len` on. -/
def Halving (lb : Nat) : List Nat → Nat → Prop
  | [], len => ¬ len > lb
  | w :: ws, len => w = len ∧ len > lb ∧ Halving lb ws (len / 2)

/-- The widths `while len <= 128; len <- len << 1` runs through from `len` on. -/
def Doubling : List Nat → Nat → Prop
  | [], len => ¬ len ≤ 128
  | w :: ws, len => w = len ∧ len ≤ 128 ∧ Doubling ws (2 * len)

theorem fwdLayers_eq_loop (q : Int) (z : Nat → Int) {lb : Nat} {ws : List Nat} (hw : WidthsOk ws) {fuel len : Nat}
    (hf : ws.length < fuel) (hh : Halving lb ws len) (k : Nat) {r : List Int} (h : r.length = 256) :
    fwdLayers q z ws k r = loopFwd q z lb fuel len k r := by
  obtain ⟨m, rfl⟩ : ∃ m, fuel = m + 1 := ⟨fuel - 1, by omega⟩
  induction ws generalizing m len k r with
  | nil => exact (loopFwd_stop q z m k r hh).symm
  | cons w ws ih =>
    obtain ⟨rfl, h1, h2⟩ := hh
    simp only [List.length_cons] at hf
    obtain ⟨m', rfl⟩ : ∃ m', m = m' + 1 := ⟨m - 1, by omega⟩
    have hl := (fwdLayer_length q z w (blocksOf w) k (h.trans (hw w (by simp)).symm)).trans h
    rw [loopFwd_step q z (m' + 1) k h1 (hw w (by simp)) h, fwdLayers, ih hw.tail h2 _ hl m' (by omega)]

theorem invLayers_eq_loop (q : Int) (z : Nat → Int) {ws : List Nat} (hw : WidthsOk ws) {fuel len : Nat}
    (hf : ws.length < fuel) (hh : Doubling ws len) (k : Nat) {r : List Int} (h : r.length = 256) :
    invLayers q z ws k r = loopInv q z fuel len k r := by
  obtain ⟨m, rfl⟩ : ∃ m, fuel = m + 1 := ⟨fuel - 1, by omega⟩
  induction ws generalizing m len k r with
  | nil => exact (loopInv_stop q z m k r hh).symm
  | cons w ws ih =>
    obtain ⟨rfl, h1, h2⟩ := hh
    simp only [List.length_cons] at hf
    obtain ⟨m', rfl⟩ : ∃ m', m = m' + 1 := ⟨m - 1, by omega⟩
    have hl := (invLayer_length q z w (blocksOf w) k (h.trans (hw w (by simp)).symm)).trans h
    rw [loopInv_step q z (m' + 1) k h1 (hw w (by simp)) h, invLayers, ih hw.tail h2 _ hl m' (by omega)]

/-- Rule R131: the block-wise forward transform is the loop of the rule. -/
theorem nttFwd_eq_loop (q : Int) (z : Nat → Int) (inc : Bool) {r : List Int} (h : r.length = 256) :
    nttFwd q z inc r = loopFwd q z (if inc then 1 else 0) 9 128 1 r :=
  fwdLayers_eq_loop q z (widthsOk_layerWidths inc) (by cases inc <;> decide) (by cases inc <;> simp [layerWidths, Halving]) 1 h

/-- Rule R133: the block-wise inverse layers are the loop of the rule. -/
theorem invLayers_eq_loopInv (q : Int) (z : Nat → Int) (inc : Bool) {r : List Int} (h : r.length = 256) :
    invLayers q z (layerWidths inc).reverse (invStart inc) r =
      loopInv q z 9 (if inc then 2 else 1) (if inc then 127 else 255) r :=
  invLayers_eq_loop q z (widthsOk_reverse (widthsOk_layerWidths inc)) (by cases inc <;> decide)
    (by cases inc <;> simp [layerWidths, Doubling]) _ h

end Sys2Proof.Machine
end

