-- ==== Sys2Proof/Laws/PerInstr.lean ====
section
/-! SUPPORT. Statements made for each command as syntax, one lemma a constructor. -/

namespace Sys2Proof.Laws.EncodeFields

/-- The word of a command has the command's opcode in bits 31:24, its fields in their places, and 0 in every reserved bit (rules R80,
R81). -/
def Statement (i : Instr) : Prop :=
  i.wellFormed = true → bits (encode i) 31 24 = i.opcode ∧ Sys2Proof.FieldsRead (encode i) i

theorem nop : Statement .nop := fun _ => ⟨by decide, (by decide : bits _ 23 0 = 0)⟩
theorem clrerr : Statement .clrerr := fun _ => ⟨by decide, (by decide : bits _ 23 0 = 0)⟩
theorem mod : Statement .mod := fun _ => ⟨by decide, (by decide : bits _ 23 0 = 0)⟩
theorem modM : Statement .modM := fun _ => ⟨by decide, (by decide : bits _ 23 0 = 0)⟩
theorem smod : Statement .smod := fun _ => ⟨by decide, (by decide : bits _ 23 0 = 0)⟩
theorem smodM : Statement .smodM := fun _ => ⟨by decide, (by decide : bits _ 23 0 = 0)⟩
theorem zgen : Statement .zgen := fun _ => ⟨by decide, (by decide : bits _ 23 0 = 0)⟩
theorem cmpb : Statement .cmpb := fun _ => ⟨by decide, (by decide : bits _ 23 0 = 0)⟩

theorem nttFwd (pb : Nat) : Statement (.nttFwd pb) := fun h => by
  have he := encode_toNat h
  simp only [Instr.wellFormed, decide_eq_true_eq, Instr.opcode, Instr.fields] at h he
  simp only [FieldsRead, Instr.opcode, bits_eq, he]
  omega

theorem nttInv (pb : Nat) : Statement (.nttInv pb) := fun h => by
  have he := encode_toNat h
  simp only [Instr.wellFormed, decide_eq_true_eq, Instr.opcode, Instr.fields] at h he
  simp only [FieldsRead, Instr.opcode, bits_eq, he]
  omega

theorem clen (k : Nat) : Statement (.clen k) := fun h => by
  have he := encode_toNat h
  simp only [Instr.wellFormed, decide_eq_true_eq, Instr.opcode, Instr.fields] at h he
  simp only [FieldsRead, Instr.opcode, bits_eq, he]
  omega

theorem enc (k pb vlen : Nat) : Statement (.enc k pb vlen) := fun h => by
  have he := encode_toNat h
  simp only [Instr.wellFormed, Bool.and_eq_true, decide_eq_true_eq, Instr.opcode, Instr.fields] at h he
  simp only [FieldsRead, Instr.opcode, bits_eq, he]
  omega

theorem dec (k pb : Nat) : Statement (.dec k pb) := fun h => by
  have he := encode_toNat h
  simp only [Instr.wellFormed, Bool.and_eq_true, decide_eq_true_eq, Instr.opcode, Instr.fields] at h he
  simp only [FieldsRead, Instr.opcode, bits_eq, he]
  omega

end Sys2Proof.Laws.EncodeFields
end

