-- ==== Sys2Proof/Tests/Slice0.lean ====
section
/-! SUPPORT. Tests of the model, each with its expected result from the spec (95_test_vectors.md and the encodings of 30_encoding.md), and
one witness of the hypotheses of each statement. -/

namespace Sys2Proof.Tests

open Sys2Proof Sys2Proof.Machine

-- Each kernel evaluation below waits for all declarations before it; one after the other, they hold one thread instead of one each.
set_option Elab.async false

/-- The state a command or a step ends in (the reset state where it does not end in one). -/
def next (o : Host.Outcome State Fault Refusal) : State :=
  match o with
  | .next t => t
  | _ => State.reset

/-- Every command ends in a next state, the one `next` gives. -/
theorem exec_next (i : Instr) (s : State) : exec i s = .next (next (exec i s)) := by
  rw [exec_eq_finish]
  cases resultOf i s <;> rfl

/-- Does a step end in a next state? -/
def isNext (o : Host.Outcome State Fault Refusal) : Bool :=
  match o with
  | .next _ => true
  | _ => false

theorem eq_next {o : Host.Outcome State Fault Refusal} (h : isNext o = true) : o = .next (next o) := by
  cases o <;> simp_all [isNext, next]

/-! ### WellFormed: an ill-formed term for each check -/

theorem test_wf_nttFwd_bank : (Instr.nttFwd 32).wellFormed = false := by decide
theorem test_wf_nttInv_bank : (Instr.nttInv 32).wellFormed = false := by decide
theorem test_wf_clen_handle : (Instr.clen 16).wellFormed = false := by decide
theorem test_wf_enc_handle : (Instr.enc 16 0 0).wellFormed = false := by decide
theorem test_wf_enc_bank : (Instr.enc 0 32 0).wellFormed = false := by decide
theorem test_wf_enc_vlen : (Instr.enc 0 0 256).wellFormed = false := by decide
theorem test_wf_dec_handle : (Instr.dec 16 0).wellFormed = false := by decide
theorem test_wf_dec_bank : (Instr.dec 0 32).wellFormed = false := by decide

/-! ### Decode: words written out from the formats of rule R80 and the opcodes of rule R88 -/

theorem test_decode_nop : decode 0b00000000000000000000000000000000 = .ok .nop := by decide
theorem test_decode_clrerr : decode 0b00000001000000000000000000000000 = .ok .clrerr := by decide
theorem test_decode_mod : decode 0b00010000000000000000000000000000 = .ok .mod := by decide
theorem test_decode_modM : decode 0b00010001000000000000000000000000 = .ok .modM := by decide
theorem test_decode_smod : decode 0b00010010000000000000000000000000 = .ok .smod := by decide
theorem test_decode_smodM : decode 0b00010011000000000000000000000000 = .ok .smodM := by decide
theorem test_decode_zgen : decode 0b00100000000000000000000000000000 = .ok .zgen := by decide
/-- Format P: ppppp = 10011 is bank 19. -/
theorem test_decode_nttFwd : decode 0b00110000000000000000000000010011 = .ok (.nttFwd 19) := by decide
theorem test_decode_nttInv : decode 0b00110001000000000000000000001110 = .ok (.nttInv 14) := by decide
/-- Format H: hhhh = 1011 is handle 11. -/
theorem test_decode_clen : decode 0b01000000000000000000000000001011 = .ok (.clen 11) := by decide
/-- Format C: v vvvvvvv = 1 0000010, p pppp = 0 0101, hhhh = 0110. -/
theorem test_decode_enc : decode 0b01000001000000010000010001010110 = .ok (.enc 6 5 130) := by decide
theorem test_decode_dec : decode 0b01000010000000000000000111110010 = .ok (.dec 2 31) := by decide
theorem test_decode_cmpb : decode 0b01010000000000000000000000000000 = .ok .cmpb := by decide
/-- The words of program P4 (section 3 of 95_test_vectors.md): ENC h1, p4, v2 and ENC h0, p4, v1. -/
theorem test_decode_p4 : decode 0x41000441 = .ok (.enc 1 4 2) ∧ decode 0x41000240 = .ok (.enc 0 4 1) := by decide
/-- Rule R89: an unassigned opcode, a reserved bit of each format, a DEC word with VLEN = 1. -/
theorem test_decode_illegal :
    decode 0x02000000 = .error .unassignedOpcode ∧ decode 0xFF000000 = .error .unassignedOpcode ∧
    decode 0x10000001 = .error .reservedBit ∧ decode 0x30000020 = .error .reservedBit ∧
    decode 0x40000010 = .error .reservedBit ∧ decode 0x41020000 = .error .reservedBit ∧
    decode 0x42000212 = .error .reservedBit := by decide

theorem test_decodeTableWord : decodeTableWord 32 0x31000007 = some (.nttInv 7) ∧ decodeTableWord 32 0x31000027 = none := by decide

/-- The next step after `withFetchWord` runs the word: MOD on the reset state is BAD_PARAM, because Q = 0 (section 2.1). -/
theorem test_withFetchWord :
    (next (step (State.reset.withFetchWord 32 0x10000000))).err = 5 ∧
    (next (step (State.reset.withFetchWord 32 0x10000000))).ecmd = 0x10000000 ∧
    (next (step (State.reset.withFetchWord 32 0x10000000))).pending = [] := by decide +kernel

/-! ### States of the reference parameter sets (rule R6) -/

/-- PS-K before ZGEN. -/
def psK : State := { State.reset with q := 3329, f := 3303, root := 17, inc := true, brv := 7 }

/-- PS-D before ZGEN. -/
def psD : State := { State.reset with q := 8380417, f := 8347681, root := 1753, inc := false, brv := 8 }

/-- PS-K with the table ZGEN builds. -/
def tableK : State := next (exec .zgen psK)

/-- PS-D with the table ZGEN builds. -/
def tableD : State := next (exec .zgen psD)

/-- Bank `b` of POLY holds the coefficients given, from index 0 on. -/
def withBank (s : State) (b : Nat) (p : List Int) : State := { s with poly := writeBank [] b p }

/-- The descriptors of programs P2 and P3: h0 = BITS(12, IDENT), h1 = SPLIT([RAW(32), NESTED(h0)]), h2 = VEC(h1, 2),
h3 = VEC(h0, 22). -/
def descs : Memory 32 :=
  [(0, 0x000000C1), (9, 0x00002002), (10, 0x00000020), (11, 0x80000000), (18, 0x02010003), (27, 0x16000003)]

/-- The operands of an ENC or DEC. -/
def coderState (x0 x1 x2 : Long) : State := { State.reset with desc := descs, x0 := x0, x1 := x1, x2 := x2 }

/-! ### One command at a time -/

/-- Program P3, step 3. -/
theorem test_nop_clears_err : (next (exec .nop { State.reset with err := 1, sticky := true })).status = 0x100 := by decide

/-- Program P3, step 4: CLRERR leaves ECMD. -/
theorem test_clrerr_clears_sticky :
    (next (exec .clrerr { State.reset with sticky := true, ecmd := 0x42000011 })).status = 0 ∧
    (next (exec .clrerr { State.reset with sticky := true, ecmd := 0x42000011 })).ecmd = 0x42000011 := by decide

/-- Section 2.1: a = −2^63 with Q = 3329. -/
theorem test_mod_min : (next (exec .mod { psK with x0 := BitVec.ofInt 64 (-9223372036854775808) })).res.toInt = 1835 := by
  decide +kernel
/-- Section 2.1: Q = 2^31 is illegal. -/
theorem test_mod_illegal_q : (next (exec .mod { psK with q := 0x80000000 })).err = 5 := by decide +kernel

theorem test_smod_min : (next (exec .smod { psK with x0 := BitVec.ofInt 64 (-9223372036854775808) })).res.toInt = -1494 := by
  decide +kernel
theorem test_smod_just_above_half : (next (exec .smod { psK with x0 := 1665 })).res.toInt = -1664 := by decide +kernel

theorem test_modM_negative : (next (exec .modM { psK with x0 := BitVec.ofInt 64 (-5), x1 := 10 })).res.toInt = 5 := by decide +kernel
theorem test_modM_zero_modulus :
    (next (exec .modM { psK with x0 := 5, res := 6 })).err = 5 ∧ (next (exec .modM { psK with x0 := 5, res := 6 })).res = 6 := by
  decide +kernel

theorem test_smodM_above_half : (next (exec .smodM { psK with x0 := 6, x1 := 10 })).res.toInt = -4 := by decide +kernel
/-- The half of an even modulus stays positive. -/
theorem test_smodM_half : (next (exec .smodM { psK with x0 := 15, x1 := 10 })).res.toInt = 5 := by decide +kernel

/-- Section 2.2, PS-K: entries 1, 64, 127 and the repeat from 128 on. -/
theorem test_zgen_K :
    Memory.readRange tableK.zeta 127 3 = [2154, 1, 1729] ∧ Memory.read tableK.zeta 64 = 17 ∧ tableK.zvalid = true := by decide +kernel
/-- Section 2.2, PS-D. -/
theorem test_zgen_D :
    Memory.readRange tableD.zeta 0 3 = [1, 4808194, 3765607] ∧ Memory.readRange tableD.zeta 254 2 = [1054478, 7648983] := by
  decide +kernel

/-- Section 2.3, PS-K: the bank p = i. -/
theorem test_nttFwd_K :
    ((readBank (next (exec (.nttFwd 2) (withBank tableK 2 ((List.range 256).map fun i => (i : Int))))).poly 2).take 8) =
      [2429, 2845, 425, 795, 1865, 1356, 624, 31] := by decide +kernel
/-- Section 2.3, PS-D: the bank (0, 1, 0, ...). -/
theorem test_nttFwd_D :
    ((readBank (next (exec (.nttFwd 0) (withBank tableD 0 [0, 1]))).poly 0).take 4) = [1753, 8378664, 6444997, 1935420] := by
  decide +kernel

/-- Section 2.3, PS-K: delta. -/
theorem test_nttInv_K :
    ((readBank (next (exec (.nttInv 31) (withBank tableK 31 [1]))).poly 31).take 4) = [3303, 0, 2740, 0] := by decide +kernel
/-- Section 2.3, PS-D: delta. -/
theorem test_nttInv_D :
    ((readBank (next (exec (.nttInv 0) (withBank tableD 0 [1]))).poly 0).drop 252) = [1360841, 6488070, 7877373, 7103706] := by
  decide +kernel

/-- Program P2, step 4. -/
theorem test_clen_split : (next (exec (.clen 1) (coderState 0 0 0))).res = 416 := by decide +kernel
/-- Program P3, step 12: VEC(h0, 22) has 8448 bytes. -/
theorem test_clen_too_long : (next (exec (.clen 3) (coderState 0 0 0))).err = 6 := by decide +kernel

/-- Program P2, step 7: a raw part of 32 bytes, then 12-bit groups. -/
theorem test_enc_split :
    Memory.readRange (next (exec (.enc 1 0 0) { withBank (coderState 64 416 0) 0 [0xABC, 0xDEF] with bytes := [(31, 0xBF)] })).bytes 94 6 =
      [0, 0xBF, 0xBC, 0xFA, 0xDE, 0] := by decide +kernel
/-- Program P4, steps 2 and 4: VLEN is the count of the VEC. -/
theorem test_enc_vlen :
    (next (exec (.enc 2 0 3) (coderState 0 832 1000))).err = 1 ∧ (next (exec (.enc 2 0 2) (coderState 0 832 1000))).res = 832 := by
  decide +kernel

/-- Rule R162's example. -/
theorem test_dec_bits :
    ((readBank (next (exec (.dec 0 1) { coderState 0 384 0 with bytes := [(0, 0x01), (1, 0x20)] })).poly 1).take 3) = [1, 2, 0] := by
  decide +kernel
/-- Program P3, steps 5 and 6: the raw area may touch the string, not overlap it. -/
theorem test_dec_overlap :
    (next (exec (.dec 1 1) (coderState 0 416 400))).err = 7 ∧ (next (exec (.dec 1 1) (coderState 0 416 416))).err = 0 := by
  decide +kernel

/-- Section 2.6: the buffers of CMPB. -/
def cmpState (x0 x1 x2 x3 : Long) : State :=
  { State.reset with
    bytes := [(0, 1), (1, 2), (2, 3), (3, 4), (16, 1), (17, 2), (18, 3), (19, 5)], x0 := x0, x1 := x1, x2 := x2, x3 := x3 }

theorem test_cmpb :
    (next (exec .cmpb (cmpState 0 4 16 4))).res = 0 ∧ (next (exec .cmpb (cmpState 0 3 16 3))).res = 1 ∧
    (next (exec .cmpb (cmpState 0 4 16 3))).res = 0 ∧ (next (exec .cmpb (cmpState 8192 0 0 0))).res = 1 := by decide +kernel
theorem test_cmpb_range : (next (exec .cmpb (cmpState 8190 4 16 3))).err = 7 := by decide +kernel

/-! ### The host port -/

/-- Program P6, step 7: a write of CTRL clears ZVALID even with the same value. -/
theorem test_ctrl_write :
    (hostWrite { psD with zvalid := true } (.reg 3) 0x80).zvalid = false ∧
    hostRead (hostWrite psK (.reg 3) 0xFFFFFFFF) (.reg 3) = some 0xF1 := by decide +kernel

/-- The memory laws on concrete data: writing 0 removes the pair. -/
theorem test_memory_write_zero : Memory.write [(3, 7#8), (5, 9#8)] 5 0 = [(3, 7#8)] ∧ Memory.read [(3, 7#8)] 5 = 0 := by decide

theorem test_reset_memories_canonical : MemoriesCanonical State.reset := by unfold MemoriesCanonical; decide

/-! ### Witnesses of the hypotheses of the statements -/

theorem wit_DecodeOfEncodeIsTheCommand : (Instr.enc 15 31 255).wellFormed = true := by decide
theorem wit_EncodeOfDecodeIsTheWord : decode 0x4101FFFF = .ok (.enc 15 31 255) := by decide
theorem wit_DecodeFollowsMatchAndMask : OpcodeRow.mk "ENC" 0x41000000 0xFFFE0000 ∈ opcodeTable := by decide
theorem wit_IllegalWordFaultsWithBadCmd : ∀ row ∈ opcodeTable, 0x42000200#32 &&& row.mask ≠ row.matchWord := by decide

/-- The words of the clauses on single formats. -/
theorem wit_reserved_bit_words :
    (0xFF000000#32).toNat / 2 ^ 24 ∉ [0x00, 0x01, 0x10, 0x11, 0x12, 0x13, 0x20, 0x30, 0x31, 0x40, 0x41, 0x42, 0x50] ∧
    ((0x42000212#32).toNat / 2 ^ 24 = 0x42 ∧ (0x42000212#32).toNat / 2 ^ 9 % 2 ^ 8 ≠ 0) ∧
    0x4101FFFF#32 &&& 0xFFFE0000 = 0x41000000 ∧
    ((0x00800000#32).toNat / 2 ^ 24 = 0x00 ∧ 0x00800000#32 ≠ 0x00000000) ∧
    ((0x01000001#32).toNat / 2 ^ 24 = 0x01 ∧ 0x01000001#32 ≠ 0x01000000) ∧
    ((0x10000001#32).toNat / 2 ^ 24 = 0x10 ∧ 0x10000001#32 ≠ 0x10000000) ∧
    ((0x20800000#32).toNat / 2 ^ 24 = 0x20 ∧ 0x20800000#32 ≠ 0x20000000) ∧
    ((0x40000010#32).toNat / 2 ^ 24 = 0x40 ∧ 16 ≤ (0x40000010#32).toNat % 2 ^ 24) ∧
    ((0x50000001#32).toNat / 2 ^ 24 = 0x50 ∧ 0x50000001#32 ≠ 0x50000000) := by decide

theorem wit_StepRunsTheDecodedCommand :
    ({ State.reset with pending := [.write (.reg 0x0C) 0x13000000, .reset] } : State).pending =
      .write (.reg 0x0C) ((0x13000000#32).toNat : Int) :: [.reset] ∧
    decode 0x13000000 = .ok .smodM ∧ State.reset.pending = [] := by decide

theorem wit_HostReadHasNoSideEffect :
    ({ psK with pending := [.read (.reg 8)] } : State).pending = .read (.reg 8) :: [] ∧
    (∀ n ∈ [0x00, 0x01, 0x02, 0x03, 0x04, 0x08, 0x09, 0x0C, 0x10, 0x11, 0x12, 0x13, 0x18], (Target.reg n).inSpace = true) ∧
    (Target.poly 31 255).inSpace = true ∧ (Target.desc 15 8).inSpace = true ∧
    (Target.bytes 8191).inSpace = true ∧ (Target.zeta 255).inSpace = true := ⟨rfl, by decide⟩

theorem wit_AccessOutsideTheInterfaceIsRefused : (Target.poly 32 0).inSpace = false ∧ (Target.poly 0 256).inSpace = false ∧
    (Target.bytes 8192).inSpace = false ∧ (Target.desc 15 9).inSpace = false ∧ (Target.reg 5).inSpace = false ∧
    (Target.bytes 8191).inSpace = true ∧ (Target.bytes 8191).fits 256 = false ∧ (Target.poly 0 0).fits 2147483648 = false := by decide

theorem wit_HostReadSeesTheLatestWrite :
    ({ psK with pending := [.write (.bytes 8191) 255, .read (.bytes 8191)] } : State).pending =
      .write (.bytes 8191) 255 :: .read (.bytes 8191) :: [] ∧ (Target.bytes 8191).inSpace = true ∧ (Target.reg 4).inSpace = true ∧
    (Target.reg 0x10).fits (-9223372036854775808) = true ∧ (Target.reg 3).fits 0xFFFFFFFF = true ∧
    (Target.poly 31 255).fits (-2147483648) = true ∧ (Target.zeta 255).fits 0 = true ∧ (Target.bytes 8191).fits 255 = true ∧
    (Target.desc 15 8).fits 0xFFFFFFFF = true ∧ (Target.reg 0x18).fits 9223372036854775807 = true := ⟨rfl, by decide⟩

theorem wit_ConfigurationWriteClearsZvalid : (Target.reg 2).inSpace = true ∧ (Target.reg 2).fits 0xFFFFFFFF = true ∧
    Target.reg 2 ≠ .reg 0x0C ∧ Target.reg 2 ∈ [Target.reg 0, .reg 2, .reg 3] ∧ Target.reg 1 ∉ [Target.reg 0, .reg 2, .reg 3] := by decide

theorem wit_ResetClearsEverything : ({ psK with pending := [.reset] } : State).pending = .reset :: [] := rfl

/-- A command that faults, for the statements about faults, and its second execution. -/
theorem wit_FaultChangesOnlyStatusAndEcmd :
    exec .mod State.reset = .next (next (exec .mod State.reset)) ∧ (next (exec .mod State.reset)).err ≠ 0 :=
  ⟨exec_next _ _, by decide +kernel⟩
theorem wit_FaultingCommandFaultsAgain :
    exec (.clen 15) psK = .next (next (exec (.clen 15) psK)) ∧ (next (exec (.clen 15) psK)).err ≠ 0 :=
  ⟨exec_next _ _, by decide +kernel⟩

/-- A CLRERR step that clears STICKY, a faulting step that changes ECMD, a reset step that does both. -/
theorem wit_StickyAndEcmdChangeOnlyAsTheRulesSay :
    isNext (step { psK with sticky := true, pending := [.write (.reg 0x0C) 0x01000000] }) = true ∧
    (next (step { psK with sticky := true, pending := [.write (.reg 0x0C) 0x01000000] })).sticky = false ∧
    (next (step { psK with pending := [.write (.reg 0x0C) 0x02000000] })).ecmd = 0x02000000 ∧
    (next (step { psK with ecmd := 7, sticky := true, pending := [.reset] })).ecmd = 0 := by decide +kernel

/-- A ZGEN step that sets ZVALID, a write to ROOT that clears it. -/
theorem wit_ZvalidChangesOnlyAsTheRulesSay :
    (next (step { psK with pending := [.write (.reg 0x0C) 0x20000000] })).zvalid = true ∧ psK.zvalid = false ∧
    (next (step { psK with zvalid := true, pending := [.write (.reg 2) 17] })).zvalid = false := by decide +kernel

/-- Commands that succeed, for the statements about completion, frames and invariants. -/
theorem wit_SuccessLeavesStickyAndEcmd :
    exec .zgen psK = .next tableK ∧ tableK.err = 0 ∧
    exec .clrerr State.reset = .next (next (exec .clrerr State.reset)) ∧ (next (exec .clrerr State.reset)).err = 0 :=
  ⟨exec_next _ _, by decide +kernel, exec_next _ _, by decide +kernel⟩
theorem wit_CommandsNeverWriteHostOwnedState : exec .zgen psD = .next tableD := exec_next _ _
theorem wit_OnlyTheNamedCommandsWriteAMemory :
    exec (.nttFwd 31) tableK = .next (next (exec (.nttFwd 31) tableK)) ∧ Instr.nttFwd 31 ≠ .zgen :=
  ⟨exec_next _ _, by decide⟩

theorem tableK_valid : TableValid tableK := by unfold TableValid; decide +kernel
theorem tableD_valid : TableValid tableD := by unfold TableValid; decide +kernel

/-- A step that executes ZGEN, from a state that meets every invariant. -/
def zgenPending : State := { psK with pending := [.write (.reg 0x0C) 0x20000000] }

theorem wit_StepKeepsMemoriesCanonical :
    step zgenPending = .next (next (step zgenPending)) ∧ MemoriesCanonical zgenPending :=
  ⟨eq_next (by decide +kernel), by unfold MemoriesCanonical; decide +kernel⟩
theorem wit_StepKeepsTransientsZero :
    step zgenPending = .next (next (step zgenPending)) ∧ TransientsZero zgenPending :=
  ⟨eq_next (by decide +kernel), by unfold TransientsZero; decide +kernel⟩
theorem wit_StepKeepsTheTableValid :
    step zgenPending = .next (next (step zgenPending)) ∧ TableValid zgenPending ∧ TableValid tableK ∧ tableK.zvalid = true :=
  ⟨eq_next (by decide +kernel), fun h => absurd h (by decide), tableK_valid, by decide +kernel⟩
theorem wit_StepKeepsTheFaultRecord :
    step { zgenPending with err := 5, sticky := true, ecmd := 0x10000000 } =
      .next (next (step { zgenPending with err := 5, sticky := true, ecmd := 0x10000000 })) ∧
    ErrLegal { zgenPending with err := 5, sticky := true, ecmd := 0x10000000 } ∧
    FaultRecorded { zgenPending with err := 5, sticky := true, ecmd := 0x10000000 } := by
  exact ⟨eq_next (by decide +kernel), by unfold ErrLegal FaultRecorded; decide +kernel⟩

theorem wit_StatusWordAfterHousekeeping :
    exec .nop tableK = .next (next (exec .nop tableK)) ∧ exec .clrerr tableK = .next (next (exec .clrerr tableK)) :=
  ⟨exec_next _ _, exec_next _ _⟩

/-- The moduli of the laws of `mod` and `smod`: the least one, the least even one, an odd one. -/
theorem wit_ReductionLaws : (1 : Int) ≤ 1 ∧ (1 : Int) ≤ 2 ∧ (1 : Int) ≤ 3329 := by decide

/-- Rules R112 and R114 at the bounds of Q: 1 and 2^31 − 1 are legal, 0 and 2^31 are not. -/
theorem wit_ModReducesByQ :
    ModulusLegal { State.reset with q := 1 } ∧ ModulusLegal { State.reset with q := 2147483647 } ∧
    ¬ ModulusLegal State.reset ∧ ¬ ModulusLegal { State.reset with q := 2147483648 } := by decide
/-- Rules R113 and R115 at the bounds of x[1]. -/
theorem wit_ModMReducesByX1 :
    0 < ({ State.reset with x1 := 1 } : State).x1.toInt ∧ 0 < ({ State.reset with x1 := 0x7FFFFFFFFFFFFFFF } : State).x1.toInt ∧
    State.reset.x1.toInt ≤ 0 ∧ ({ State.reset with x1 := 0x8000000000000000 } : State).x1.toInt ≤ 0 := by decide

theorem wit_BitrevIsTheStandardReversal : (1 : Nat) ≤ 1 ∧ (1 : Nat) ≤ 7 ∧ (1 : Nat) ≤ 8 := by decide
theorem wit_ZgenBuildsTheTable :
    (ModulusLegal psK ∧ psK.brv.toNat = 7) ∧ (ModulusLegal psD ∧ psD.brv.toNat = 8) ∧
    ¬ (ModulusLegal { psK with brv := 9 } ∧ (({ psK with brv := 9 } : State).brv.toNat = 7 ∨ ({ psK with brv := 9 } : State).brv.toNat = 8)) := by
  decide
theorem wit_ZgenTableProperties :
    exec .zgen psK = .next tableK ∧ tableK.err = 0 ∧ psK.brv.toNat = 7 ∧
    ((psK.root.toNat ^ 2 ^ psK.brv.toNat + 1 : Nat) : Int) % psK.q.toNat = 0 ∧
    ((psD.root.toNat ^ 2 ^ psD.brv.toNat + 1 : Nat) : Int) % psD.q.toNat = 0 :=
  ⟨exec_next _ _, by decide +kernel⟩

/-- Both variants, at the last bank. -/
theorem wit_TransformsCompleteOnOneBank :
    (31 < 32) ∧ tableK.zvalid = true ∧ ModulusLegal tableK ∧ tableD.zvalid = true ∧ ModulusLegal tableD := by decide +kernel
theorem wit_TransformsWithoutTableAreNotReady : State.reset.zvalid = false := rfl
theorem wit_ForwardTransformIsTheInPlaceLoop :
    (tableK.inc = true ∧ tableK.zvalid = true ∧ ModulusLegal tableK) ∧ (tableD.inc = false ∧ tableD.zvalid = true ∧ ModulusLegal tableD) ∧
    exec (.nttFwd 31) tableK = .next (next (exec (.nttFwd 31) tableK)) ∧
    exec (.nttFwd 31) tableD = .next (next (exec (.nttFwd 31) tableD)) :=
  ⟨by decide +kernel, by decide +kernel, exec_next _ _, exec_next _ _⟩
theorem wit_InverseTransformIsTheInPlaceLoop :
    (tableK.inc = true ∧ tableK.zvalid = true ∧ ModulusLegal tableK) ∧ (tableD.inc = false ∧ tableD.zvalid = true ∧ ModulusLegal tableD) ∧
    exec (.nttInv 31) tableK = .next (next (exec (.nttInv 31) tableK)) ∧
    exec (.nttInv 31) tableD = .next (next (exec (.nttInv 31) tableD)) :=
  ⟨by decide +kernel, by decide +kernel, exec_next _ _, exec_next _ _⟩
theorem wit_TransformsUndoEachOther :
    tableK.zvalid = true ∧ ModulusLegal tableK ∧ TablePairs tableK ∧ ScaleInverse tableK ∧
    tableD.zvalid = true ∧ ModulusLegal tableD ∧ TablePairs tableD ∧ ScaleInverse tableD := by
  unfold TablePairs ScaleInverse; decide +kernel
theorem wit_ForwardTransformEvaluatesThePolynomial :
    (tableK.zvalid = true ∧ TableValid tableK ∧ ((tableK.root.toNat ^ 2 ^ tableK.brv.toNat + 1 : Nat) : Int) % tableK.q.toNat = 0 ∧
      tableK.inc = true ∧ tableK.brv.toNat = 7) ∧
    (tableD.zvalid = true ∧ TableValid tableD ∧ ((tableD.root.toNat ^ 2 ^ tableD.brv.toNat + 1 : Nat) : Int) % tableD.q.toNat = 0 ∧
      tableD.inc = false ∧ tableD.brv.toNat = 8) ∧
    exec (.nttFwd 0) tableK = .next (next (exec (.nttFwd 0) tableK)) ∧ exec (.nttFwd 0) tableD = .next (next (exec (.nttFwd 0) tableD)) := by
  exact ⟨⟨by decide +kernel, tableK_valid, by decide +kernel⟩, ⟨by decide +kernel, tableD_valid, by decide +kernel⟩, exec_next _ _,
    exec_next _ _⟩
theorem wit_TransformsDependOnlyOnResidues :
    (∀ j, j < 256 → mod (coef (withBank tableK 0 [3330]) 0 j) 3329 = mod (coef (withBank tableK 0 [1]) 0 j) 3329) ∧
    (∃ p, withBank tableK 0 [1] = { withBank tableK 0 [3330] with poly := p }) ∧
    exec (.nttFwd 0) (withBank tableK 0 [3330]) = .next (next (exec (.nttFwd 0) (withBank tableK 0 [3330]))) ∧
    exec (.nttFwd 0) (withBank tableK 0 [1]) = .next (next (exec (.nttFwd 0) (withBank tableK 0 [1]))) :=
  ⟨by decide +kernel, ⟨_, rfl⟩, exec_next _ _, exec_next _ _⟩
theorem wit_TransformsReadOnlyTheirZetas :
    tableK.zvalid = true ∧ (∀ k, k < 128 → 1 ≤ k → Memory.read (Memory.write tableK.zeta 0 9) k = Memory.read tableK.zeta k) ∧
    Memory.read (Memory.write tableK.zeta 0 9) 0 ≠ Memory.read tableK.zeta 0 := by decide +kernel
theorem wit_TransformsOfConstantBanks :
    exec (.nttFwd 0) (withBank tableK 0 [-1]) = .next (next (exec (.nttFwd 0) (withBank tableK 0 [-1]))) ∧
    exec (.nttInv 0) (withBank tableK 0 [-1]) = .next (next (exec (.nttInv 0) (withBank tableK 0 [-1]))) ∧
    (∀ j, j < 256 → 1 ≤ j → coef (withBank tableK 0 [-1]) 0 j = 0) ∧ (∀ j, j < 256 → coef tableK 0 j = 0) ∧
    ({ tableK with f := 0 } : State).f = 0 :=
  ⟨exec_next _ _, exec_next _ _, by decide +kernel, by decide +kernel, rfl⟩

/-- The coder of handle 1 of `descs`, and that of handle 2. -/
def splitCoder : Coder := .split (.raw 32 (.nested (.bits 12 .ident) .nil))

theorem wit_resolve_split : resolve descs 1 = some splitCoder := by rfl
theorem wit_resolve_vec : resolve descs 2 = some (.vec splitCoder 2) := by rfl
theorem wit_resolve_invalid : resolve descs 3 = none ∧ resolve descs 15 = none := by constructor <;> rfl
theorem wit_resolve_centered : resolve [(0, 0x000002C1)] 0 = some (.bits 12 .centered) := by rfl


/-- Rule R94, one broken word each: KIND = 0; a reserved bit (2, 11, 20); BITS with D = 0, with CMODE = 2, with NENT, ELEM or COUNT set. -/
theorem test_resolve_bits_legality (w : Word)
    (h : w ∈ [0x000000C0#32, 0x000000C5#32, 0x000008C1#32, 0x001000C1#32, 0x00000001#32, 0x000004C1#32, 0x000010C1#32, 0x000100C1#32,
      0x010000C1#32]) : resolve [(0, w)] 0 = none := by
  fin_cases h <;> rfl

/-- Rules R93, R94, R151: SPLIT with NENT = 9 and with D set, an entry with a reserved bit, a nested entry with a reserved bit or with its own
handle; VEC with NENT set and with its own handle as the element. -/
theorem test_resolve_composite_legality (ws : List Word)
    (h : ws ∈ [[0x00009002#32], [0x00000012#32], [0x00001002#32, 0x00010000#32], [0x00001002#32, 0x80000010#32],
      [0x00001002#32, 0x80000001#32], [0x01001003#32], [0x01010003#32]]) : resolve ((0, 0x000000C1#32) :: Memory.cells 9 ws) 1 = none := by
  fin_cases h <;> rfl

/-- The legal bounds: BITS of width 31, a SPLIT of no entries. -/
theorem test_resolve_legal : resolve [(0, 0x000001F1)] 0 = some (.bits 31 .ident) ∧ resolve [(9, 0x00000002)] 1 = some (.split .nil) :=
  ⟨rfl, rfl⟩

/-- The three kinds of descriptor, a header in no case, and the entries of a SPLIT. -/
theorem wit_ResolveUnfoldsOneDescriptor :
    (Memory.read descs (9 * 0)).toNat % 4 = 1 ∧ (Memory.read descs (9 * 1)).toNat % 4 = 2 ∧ (Memory.read descs (9 * 2)).toNat % 4 = 3 ∧
    (Memory.read descs (9 * 15)).toNat % 4 = 0 ∧ (Memory.read descs (9 * 1)).toNat / 2 ^ 12 % 16 = 2 ∧
    (Memory.read descs (9 * 1 + (1 + 0))).toNat / 2 ^ 31 = 0 ∧ (Memory.read descs (9 * 1 + (1 + 1))).toNat / 2 ^ 31 = 1 := by decide

theorem wit_ResolveReadsNoHigherHandle :
    ∀ g k, g ≤ 1 → k < 9 → Memory.read descs (9 * g + k) = Memory.read (descs.take 4) (9 * g + k) := by
  intro g k hg hk
  have h : ∀ g < 2, ∀ k < 9, Memory.read descs (9 * g + k) = Memory.read (descs.take 4) (9 * g + k) := by decide
  exact h g (by omega) k hk

theorem wit_ClenReportsTheLength : resolve (coderState 0 0 0).desc 1 = some splitCoder ∧ resolve (coderState 0 0 0).desc 15 = none := by
  constructor <;> rfl

/-- A CENTERED leaf inside a VEC of count 0 counts (rule R157). -/
theorem wit_centered_in_empty_vec : HasCenteredLeaf (.vec (.split (.raw 3 (.nested (.bits 12 .centered) .nil))) 0) :=
  .element 0 (.entry (c := .bits 12 .centered) (by simp [Entries.toList]) (.leaf 12))

theorem splitCoder_plain : ¬ HasCenteredLeaf splitCoder := fun h => by
  rw [← Coder.hasCentered_iff] at h
  exact absurd h (by decide)

theorem wit_EncWritesTheEncodedString :
    resolve (coderState 64 416 0).desc 1 = some splitCoder ∧ (HasCenteredLeaf splitCoder → ModulusLegal (coderState 64 416 0)) ∧
    (coderState 64 416 0).x1.toInt = splitCoder.blen ∧ RequiredVlen splitCoder 0 ∧ RequiredVlen (.vec splitCoder 2) 2 ∧
    InBytes (coderState 64 416 0).x0.toInt splitCoder.blen ∧ InBytes (coderState 64 416 0).x2.toInt splitCoder.nraw ∧
    ¬ RangesMeet (coderState 64 416 0).x0.toInt splitCoder.blen (coderState 64 416 0).x2.toInt splitCoder.nraw ∧
    31 + splitCoder.npoly ≤ 32 := by
  exact ⟨rfl, fun h => absurd h splitCoder_plain, by decide, rfl, rfl, by decide⟩

theorem wit_DecWritesTheDecodedValue :
    resolve (coderState 7776 416 7744).desc 1 = some splitCoder ∧ (coderState 7776 416 7744).x1.toInt = splitCoder.blen ∧
    (HasCenteredLeaf splitCoder → ModulusLegal (coderState 7776 416 7744)) ∧
    InBytes (coderState 7776 416 7744).x0.toInt splitCoder.blen ∧ InBytes (coderState 7776 416 7744).x2.toInt splitCoder.nraw ∧
    ¬ RangesMeet (coderState 7776 416 7744).x0.toInt splitCoder.blen (coderState 7776 416 7744).x2.toInt splitCoder.nraw := by
  exact ⟨rfl, by decide, fun h => absurd h splitCoder_plain, by decide⟩

/-- One state for each check: a handle that is not valid; a CENTERED leaf without a legal Q; a length that is one short; a VLEN for a coder
that is no VEC; a string that ends one byte beyond BYTES. -/
theorem wit_CoderCommandsFaultInOrder :
    resolve (coderState 0 0 0).desc 3 = none ∧
    (HasCenteredLeaf (.bits 12 .centered) ∧ ¬ ModulusLegal State.reset) ∧
    (coderState 0 415 0).x1.toInt ≠ splitCoder.blen ∧ ¬ RequiredVlen splitCoder 1 ∧ ¬ RequiredVlen (.vec splitCoder 2) 0 ∧
    ((coderState 7777 416 0).x1.toInt = splitCoder.blen ∧ ¬ InBytes (coderState 7777 416 0).x0.toInt splitCoder.blen) := by
  exact ⟨rfl, ⟨.leaf 12, by decide⟩, by decide, by simp [RequiredVlen, splitCoder], by simp [RequiredVlen], by decide⟩

theorem wit_BitsEncodeIsThePackedSum : (1 ≤ 1 ∧ 1 ≤ 31) ∧ (1 ≤ 31 ∧ 31 ≤ 31) ∧ (List.replicate 256 (-1 : Int)).length = 256 :=
  ⟨by decide, by decide, List.length_replicate⟩
/-- Under IDENT with Q = 0, under CENTERED with the least Q. -/
theorem wit_BitsDecodeReadsThePackedSum : (CMode.ident = .centered → (1 : Int) ≤ 0) ∧ (CMode.centered = .centered → (1 : Int) ≤ 1) ∧ ∀ d : Nat, (List.replicate (32 * d) (255#8)).length = 32 * d :=
  ⟨by decide, by decide, fun _ => List.length_replicate⟩
theorem wit_BitsCoderRoundTrip :
    (CMode.ident = .centered → (1 : Int) ≤ 0) ∧ CoefInDomain 31 .ident 0 2147483647 ∧ CoefInDomain 12 .centered 3329 (-1664) ∧ CoefInDomain 12 .centered 3329 1664 ∧ CoefInDomain 1 .centered 2 1 ∧
    CoefInDomain 31 .ident 1 2147483647 ∧ CoefInDomain 1 .ident 1 0 := by simp only [CoefInDomain]; decide

theorem wit_legal_coders : splitCoder.Legal ∧ (Coder.vec splitCoder 2).Legal ∧ (Coder.split .nil).Legal ∧ (Coder.vec splitCoder 0).Legal := by
  simp [splitCoder, Coder.Legal, Entries.Legal, Entries.count, Coder.blen, Entries.blen]

/-- Both entries of a SPLIT and the last element of a VEC, with values and strings of their exact sizes. -/
theorem wit_CompositePartsLieInOrder :
    splitCoder.Legal ∧ (Coder.vec splitCoder 2).Legal ∧ (1 < 2) ∧
    (Entries.raw 32 (.nested (.bits 12 .ident) .nil)).toList[0]? = some (.raw 32) ∧
    (Entries.raw 32 (.nested (.bits 12 .ident) .nil)).toList[1]? = some (.nested (.bits 12 .ident)) ∧
    2 * splitCoder.npoly ≤ (List.replicate 2 (List.replicate 256 (1 : Int))).length ∧
    (∀ p ∈ List.replicate 2 (List.replicate 256 (1 : Int)), p.length = 256) ∧
    2 * splitCoder.nraw ≤ (List.replicate 64 (0#8)).length ∧ (List.replicate 832 (0#8)).length = 2 * splitCoder.blen := by
  refine ⟨wit_legal_coders.1, wit_legal_coders.2.1, by decide, rfl, rfl, by decide, fun p hp => ?_, by decide, by decide +kernel⟩
  rw [List.eq_of_mem_replicate hp]
  exact List.length_replicate

/-- Rule R188, the layout of ENC h2: element 1 has its raw part at 416 and its polynomial after it. -/
theorem test_enc_vec_layout :
    Memory.readRange (next (exec (.enc 2 4 2)
      { coderState 1000 832 0 with
        poly := writeBank (writeBank [] 4 [1]) 5 [2], bytes := [(0, 0xA0), (32, 0xB0)] })).bytes 1416 33 =
      0xB0 :: (List.replicate 31 0 ++ [2]) := by decide +kernel

theorem wit_CoderRoundTrip :
    splitCoder.Legal ∧ ([List.replicate 256 4095] : List (List Int)).length = splitCoder.npoly ∧
    (List.replicate 32 (0xA0#8)).length = splitCoder.nraw ∧ splitCoder.InDomain 3329 [List.replicate 256 4095] := by
  refine ⟨wit_legal_coders.1, rfl, rfl, ⟨List.length_replicate, fun x hx => ?_⟩, trivial⟩
  rw [List.eq_of_mem_replicate hx]
  simp only [CoefInDomain]
  decide

theorem wit_EncThenDecReproducesTheValue :
    resolve (coderState 64 416 0).desc 1 = some splitCoder ∧
    exec (.enc 1 0 0) (coderState 64 416 0) = .next (next (exec (.enc 1 0 0) (coderState 64 416 0))) ∧
    (next (exec (.enc 1 0 0) (coderState 64 416 0))).err = 0 ∧
    InBytes (BitVec.toInt (512#64)) splitCoder.nraw ∧
    ¬ RangesMeet (coderState 64 416 0).x0.toInt splitCoder.blen (BitVec.toInt (512#64)) splitCoder.nraw ∧
    1 + splitCoder.npoly ≤ 32 ∧
    splitCoder.InDomain 0 ((List.range splitCoder.npoly).map fun n => (List.range 256).map (coef (coderState 64 416 0) (0 + n))) := by
  have h : ∀ j, j < 256 → 0 ≤ coef (coderState 64 416 0) 0 j ∧ coef (coderState 64 416 0) 0 j < 2 ^ 12 := by decide +kernel
  refine ⟨rfl, exec_next _ _, by decide +kernel, by decide, by decide, by decide, ⟨by simp [splitCoder, Coder.npoly, Entries.npoly], ?_⟩, trivial⟩
  intro x hx
  simp only [splitCoder, Coder.npoly, Entries.npoly] at hx
  obtain ⟨j, hj, rfl⟩ := List.mem_map.1 (show x ∈ (List.range 256).map (coef (coderState 64 416 0) 0) from hx)
  exact h j (List.mem_range.1 hj)

theorem wit_CmpbComparesTheBuffers :
    InBytes (cmpState 0 4 16 3).x0.toInt (cmpState 0 4 16 3).x1.toInt ∧ InBytes (cmpState 0 4 16 3).x2.toInt (cmpState 0 4 16 3).x3.toInt ∧
    InBytes (cmpState 8192 0 0 0).x0.toInt (cmpState 8192 0 0 0).x1.toInt ∧
    ¬ InBytes (cmpState 8190 4 16 3).x0.toInt (cmpState 8190 4 16 3).x1.toInt := by decide

end Sys2Proof.Tests
end

section
/-! The statement of 00_scope.md: how every command ends (rules R10, R220, R224). -/

namespace Sys2Proof.Machine

/-- Settles O12, by the two ways a command's rule can answer: completion clears ERR (rule R225), fault entry puts the raised code there
(rule R226), and the codes a rule can raise are those of rule R224 (`resultOf_error_allowed`). -/
theorem everyCommandEndsWithAnAllowedCode : Obligations.EveryCommandEndsWithAnAllowedCode := by
  intro i s
  cases hr : resultOf i s with
  | ok u => exact ⟨u.complete, exec_of_ok hr, .inl u.complete_err⟩
  | error c => exact ⟨s.raiseFault c (encode i), exec_of_error hr, .inr (resultOf_error_allowed hr)⟩

end Sys2Proof.Machine
end

section
/-! What the rule of each command writes, and what the execution of a command word ends in. -/

namespace Sys2Proof.Machine

/-- ZGEN has passed both checks of rule R122, and has written the table. -/
theorem zgenResult_ok {s u : State} (hu : zgenResult s = .ok u) :
    QLegal s ∧ BrvLegal s ∧
      u = (s.setZeta (Memory.writeRange s.zeta 0 (zetaTable s.root.toNat s.brv.toNat s.modulus))).setZvalid true := by
  unfold zgenResult at hu
  split at hu
  · rename_i hq
    split at hu
    · rename_i hb
      exact ⟨hq, hb, (Except.ok.inj hu).symm⟩
    · cases hu
  · cases hu

/-- The places each command's rule writes (rules R31 to R34, R122, R131, R133, R155, R157, R162, R200, R211), the values left open. -/
def OwnWrites (s u : State) : Instr → Prop
  | .nop => u = s
  | .clrerr => u = s.setSticky false
  | .mod | .modM | .smod | .smodM | .clen _ | .cmpb => ∃ v, u = s.setRes v
  | .zgen => ∃ m, u = (s.setZeta m).setZvalid true
  | .nttFwd _ | .nttInv _ => ∃ m, u = s.setPoly m
  | .enc _ _ _ => ∃ m v, u = (s.setBytes m).setRes v
  | .dec _ _ => ∃ p m v, u = ((s.setPoly p).setBytes m).setRes v

theorem resultOf_ok_ownWrites {i : Instr} {s u : State} (hu : resultOf i s = .ok u) : OwnWrites s u i := by
  cases i with
  | nop => cases hu; rfl
  | clrerr => cases hu; rfl
  | mod => simp only [resultOf, modResult] at hu; split at hu <;> cases hu; exact ⟨_, rfl⟩
  | modM => simp only [resultOf, modMResult] at hu; split at hu <;> cases hu; exact ⟨_, rfl⟩
  | smod => simp only [resultOf, smodResult] at hu; split at hu <;> cases hu; exact ⟨_, rfl⟩
  | smodM => simp only [resultOf, smodMResult] at hu; split at hu <;> cases hu; exact ⟨_, rfl⟩
  | zgen => obtain ⟨-, -, rfl⟩ := zgenResult_ok hu; exact ⟨_, rfl⟩
  | nttFwd pb => simp only [resultOf, nttFwdResult] at hu; split at hu <;> cases hu; exact ⟨_, rfl⟩
  | nttInv pb => simp only [resultOf, nttInvResult] at hu; split at hu <;> cases hu; exact ⟨_, rfl⟩
  | clen h => simp only [resultOf, clenResult] at hu; split at hu <;> cases hu; exact ⟨_, rfl⟩
  | enc h pb vlen => obtain ⟨c, -, -, -, -, -, rfl⟩ := encResult_ok hu; exact ⟨_, _, rfl⟩
  | dec h pb => obtain ⟨c, -, -, -, -, rfl⟩ := decResult_ok hu; exact ⟨_, _, _, rfl⟩
  | cmpb => simp only [resultOf, cmpbResult] at hu; split at hu <;> cases hu; exact ⟨_, rfl⟩

theorem resultOf_ok_ecmd {i : Instr} {s u : State} (hu : resultOf i s = .ok u) : u.ecmd = s.ecmd := by
  rw [resultOf_ok_shape hu]

/-- A word that decodes is the word of its command: the opcode and the fields are all its bits (rules R80, R82). -/
theorem encode_of_decode {w : Word} {i : Instr} (h : decode w = .ok i) : encode i = w := by
  apply word_eq_of_toNat
  rw [encode_toNat (wellFormed_of_decode h)]
  obtain ⟨hopc, hf⟩ := decode_ok_cases h
  have hw := w.isLt
  cases i <;> simp only [FieldsRead, Instr.opcode, Instr.fields, bits_eq] at hopc hf ⊢ <;> omega

/-- The execution of a word completes its command, or enters a fault with that word, which is not the word 0: that is NOP, which
never faults. -/
theorem issue_completes_or_faults {w : Word} {s t : State} (h : issue w s = .next t) :
    (∃ i u, decode w = .ok i ∧ resultOf i s = .ok u ∧ t = u.complete) ∨ (∃ c, w ≠ 0 ∧ t = s.raiseFault c w) := by
  rcases issue_next_cases h with ⟨i, hd, he⟩ | ⟨⟨e, hd⟩, rfl⟩
  · rcases exec_next_cases he with ⟨u, hu, rfl⟩ | ⟨c, hc, rfl⟩
    · exact .inl ⟨i, u, hd, hu, rfl⟩
    · rw [encode_of_decode hd]
      refine .inr ⟨c, ?_, rfl⟩
      rintro rfl
      obtain rfl : Instr.nop = i := Except.ok.inj ((show decode 0 = .ok .nop by decide).symm.trans hd)
      cases hc
  · refine .inr ⟨.badCmd, ?_, rfl⟩
    rintro rfl
    cases (show decode 0 = .ok .nop by decide).symm.trans hd

end Sys2Proof.Machine
end

section
/-! The invariants of 10_state.md. What every step keeps is reduced, once, to what reset, the environment, a host write, a completion and a
fault entry do. -/

namespace Sys2Proof.Machine

/-- What makes a predicate hold after reset and over every step. -/
structure StepInvariant (P : State → Prop) : Prop where
  reset : P State.reset
  environment : ∀ s es v, P s → P ((s.setPending es).setReadValue v)
  hostWrite : ∀ s tgt v, tgt.inSpace = true → P s → P (hostWrite s tgt v)
  complete : ∀ i s u, i.wellFormed = true → resultOf i s = .ok u → P s → P u.complete
  fault : ∀ s c w, w ≠ 0 → P s → P (s.raiseFault c w)

theorem StepInvariant.step_keeps {P : State → Prop} (h : StepInvariant P) {s t : State} (hst : step s = .next t) (hs : P s) :
    P t := by
  have taken : ∀ rest, P (s.setPending rest) := fun rest => h.environment s rest s.readValue hs
  rcases step_next_cases hst with ⟨-, rfl⟩ | ⟨tgt, v, rest, -, -, rfl⟩ | ⟨tgt, v, rest, -, hin, -, -, rfl⟩ |
    ⟨v, rest, -, -, hi⟩ | ⟨rest, -, rfl⟩
  · exact hs
  · exact h.environment s rest (some v) hs
  · exact h.hostWrite _ tgt v hin (taken rest)
  · rcases issue_completes_or_faults hi with ⟨i, u, hd, hu, rfl⟩ | ⟨c, hw, rfl⟩
    · exact h.complete i _ u (wellFormed_of_decode hd) hu (taken rest)
    · exact h.fault _ c _ hw (taken rest)
  · exact h.environment State.reset _ _ h.reset

theorem memoriesCanonical_invariant : StepInvariant MemoriesCanonical where
  reset := ⟨Memory.nil_wf _, Memory.nil_wf _, Memory.nil_wf _, Memory.nil_wf _⟩
  environment _ _ _ h := h
  hostWrite _ _ _ hin h := hostWrite_memories hin h
  complete _ _ u hi hu h := show MemoriesCanonical u from resultOf_memories hi hu h
  fault _ _ _ _ h := h

/-- Settles O20: the commands and the host's writes stay inside the spaces (`resultOf_memories`, `hostWrite_memories`), and nothing else
writes a memory. -/
theorem stepKeepsMemoriesCanonical : Obligations.StepKeepsMemoriesCanonical :=
  fun _ _ hst hs => memoriesCanonical_invariant.step_keeps hst hs

/-- `TableValid` reads ZVALID, Q, BRV, ROOT and ZETA alone. -/
theorem TableValid.of_eq {s t : State} (h : TableValid s) (hv : t.zvalid = s.zvalid) (hq : t.q = s.q) (hb : t.brv = s.brv)
    (hr : t.root = s.root) (hz : t.zeta = s.zeta) : TableValid t := by
  simpa only [TableValid, ModulusLegal, hv, hq, hb, hr, hz] using h

/-- A host write clears ZVALID wherever it changes what the table is computed from (rule R43). -/
theorem TableValid.hostWrite {s : State} (h : TableValid s) (tgt : Target) (v : Int) : TableValid (hostWrite s tgt v) := by
  rcases hostWrite_table s tgt v with hv | ⟨hv, hq, hr, -, hb⟩
  · exact fun hv' => absurd (hv.symm.trans hv') (by decide)
  · exact h.of_eq hv hq hb hr (hostWrite_zeta s tgt v)

/-- ZGEN writes the table it then declares valid (rules R122, R125). -/
theorem tableValid_of_zgenResult {s u : State} (hu : zgenResult s = .ok u) : TableValid u := by
  obtain ⟨hq, hb, rfl⟩ := zgenResult_ok hu
  exact fun _ => ⟨hq, hb, fun i hi => zgen_read hq s.root.toNat s.brv.toNat s.zeta hi⟩

/-- The own writes of a command keep rule R39: ZGEN makes the table, and no other command writes what it is made of. -/
theorem resultOf_tableValid {i : Instr} {s u : State} (hu : resultOf i s = .ok u) (h : TableValid s) : TableValid u := by
  by_cases hi : i = .zgen
  · subst hi
    exact tableValid_of_zgenResult hu
  · obtain ⟨-, hv, hz⟩ := resultOf_ok_flags hu
    rw [if_neg hi] at hv
    have hs := resultOf_ok_shape hu
    exact h.of_eq hv (by rw [hs]) (by rw [hs]) (by rw [hs]) (hz hi)

theorem tableValid_invariant : StepInvariant TableValid where
  reset := fun h => absurd h (by decide)
  environment _ _ _ h := h
  hostWrite _ tgt v _ h := h.hostWrite tgt v
  complete _ _ u _ hu h := show TableValid u from resultOf_tableValid hu h
  fault _ _ _ _ h := h

/-- Settles O22: only ZGEN sets ZVALID, and it writes the table first (`resultOf_tableValid`); a host write of Q, ROOT or CTRL clears
ZVALID (`TableValid.hostWrite`). -/
theorem stepKeepsTheTableValid : Obligations.StepKeepsTheTableValid :=
  fun _ _ hst hs => tableValid_invariant.step_keeps hst hs

theorem transientsZero_invariant : StepInvariant TransientsZero where
  reset := ⟨rfl, rfl, rfl⟩
  environment _ _ _ h := h
  hostWrite _ _ _ _ h := by simpa [TransientsZero] using h
  complete _ _ _ _ _ _ := ⟨rfl, rfl, rfl⟩
  fault _ _ _ _ _ := ⟨rfl, rfl, rfl⟩

/-- Settles O21: every command ends with the transients cleared, on both paths (rule R184), and no host write reaches them. -/
theorem stepKeepsTransientsZero : Obligations.StepKeepsTransientsZero :=
  fun _ _ hst hs => transientsZero_invariant.step_keeps hst hs

/-- Every code the hardware raises is in the table of rule R222. -/
theorem errLegal_of_err_eq_code {s : State} {c : FaultCode} (h : s.err = c.code) : ErrLegal s := by
  unfold ErrLegal
  rw [h]
  cases c <;> decide

/-- A completion clears ERR, keeps ECMD and sets STICKY in no case. -/
theorem FaultRecorded.complete {i : Instr} {s u : State} (hu : resultOf i s = .ok u) (h : FaultRecorded s) :
    FaultRecorded u.complete := by
  refine ⟨fun he => absurd rfl he, fun hst => ?_⟩
  have hs : s.sticky = true := by
    have hf := (resultOf_ok_flags hu).1.symm.trans hst
    split at hf
    · cases hf
    · exact hf
  simpa only [State.complete_ecmd, resultOf_ok_ecmd hu] using h.2 hs

theorem faultRecord_invariant : StepInvariant fun s => ErrLegal s ∧ FaultRecorded s where
  reset := ⟨.inl rfl, fun h => absurd rfl h, fun h => absurd h (by decide)⟩
  environment _ _ _ h := h
  hostWrite _ _ _ _ h := by simpa [ErrLegal, FaultRecorded] using h
  complete _ _ _ _ hu h := ⟨.inl rfl, h.2.complete hu⟩
  fault _ _ _ hw _ := ⟨errLegal_of_err_eq_code rfl, fun _ => rfl, fun _ => hw⟩

/-- Settles O23: fault entry writes ERR, STICKY and ECMD together, with a word that is not 0 (`issue_completes_or_faults`); a completion
clears ERR and keeps ECMD. -/
theorem stepKeepsTheFaultRecord : Obligations.StepKeepsTheFaultRecord :=
  fun _ _ hst hs => faultRecord_invariant.step_keeps hst hs

/-- Settles O24: reset is one of the cases of each invariant. -/
theorem resetMeetsTheInvariants : Obligations.ResetMeetsTheInvariants :=
  ⟨memoriesCanonical_invariant.reset, transientsZero_invariant.reset, tableValid_invariant.reset, faultRecord_invariant.reset⟩

end Sys2Proof.Machine
end

section
/-! Flags and frames of the commands (rules R22 to R35, R225). -/

namespace Sys2Proof.Machine

/-- Settles O14: a next state with ERR = 0 comes from a completion, because no fault code is 0; the flags a completion leaves are those
of `resultOf_ok_flags`. -/
theorem successLeavesStickyAndEcmd : Obligations.SuccessLeavesStickyAndEcmd := by
  intro i s t ht he
  rcases exec_next_cases ht with ⟨u, hu, rfl⟩ | ⟨c, -, rfl⟩
  · obtain ⟨hst, hzv, -⟩ := resultOf_ok_flags hu
    refine ⟨by rw [State.complete_ecmd, resultOf_ok_ecmd hu], fun hi => ?_, fun hi => ?_, fun hi => ?_, fun hi => ?_⟩
    · rwa [if_neg hi] at hst
    · rwa [if_pos hi] at hst
    · rwa [if_neg hi] at hzv
    · rwa [if_pos hi] at hzv
  · exact absurd he c.code_ne_zero

/-- Settles O18: the parts a completion (`resultOf_ok_shape`) and a fault entry write are none of these. -/
theorem commandsNeverWriteHostOwnedState : Obligations.CommandsNeverWriteHostOwnedState := by
  intro i s t ht
  rcases exec_next_cases ht with ⟨u, hu, rfl⟩ | ⟨c, -, rfl⟩
  · rw [resultOf_ok_shape hu]
    exact ⟨rfl, rfl, rfl, rfl, rfl, rfl, rfl, rfl, rfl, rfl, rfl, rfl⟩
  · exact ⟨rfl, rfl, rfl, rfl, rfl, rfl, rfl, rfl, rfl, rfl, rfl, rfl⟩

/-- RES is left by NOP, CLRERR, ZGEN and the transforms (rule R31). -/
theorem OwnWrites.res_eq {i : Instr} {s u : State} (h : OwnWrites s u i)
    (hi : i ∈ [Instr.nop, .clrerr, .zgen] ∨ (∃ b, i = .nttFwd b ∨ i = .nttInv b)) : u.res = s.res := by
  rcases hi with hi | ⟨b, rfl | rfl⟩
  · simp only [List.mem_cons, List.not_mem_nil, or_false] at hi
    rcases hi with rfl | rfl | rfl
    · rw [show u = s from h]
    · rw [show u = s.setSticky false from h, State.setSticky_res]
    · obtain ⟨m, rfl⟩ := h; rfl
  · obtain ⟨m, rfl⟩ := h; rfl
  · obtain ⟨m, rfl⟩ := h; rfl

/-- POLY is written by the transforms and DEC alone (rule R33). -/
theorem OwnWrites.poly_eq {i : Instr} {s u : State} (h : OwnWrites s u i) (hn : ¬ ∃ b, i = .nttFwd b ∨ i = .nttInv b)
    (hd : ¬ ∃ k b, i = .dec k b) : u.poly = s.poly := by
  cases i with
  | nop => rw [show u = s from h]
  | clrerr => rw [show u = s.setSticky false from h, State.setSticky_poly]
  | mod | modM | smod | smodM | clen | cmpb => obtain ⟨v, rfl⟩ := h; rfl
  | zgen => obtain ⟨m, rfl⟩ := h; rfl
  | nttFwd b => exact absurd ⟨b, .inl rfl⟩ hn
  | nttInv b => exact absurd ⟨b, .inr rfl⟩ hn
  | enc => obtain ⟨m, v, rfl⟩ := h; rfl
  | dec k b => exact absurd ⟨k, b, rfl⟩ hd

/-- BYTES is written by ENC and DEC alone (rule R34). -/
theorem OwnWrites.bytes_eq {i : Instr} {s u : State} (h : OwnWrites s u i) (he : ¬ ∃ k b v, i = .enc k b v)
    (hd : ¬ ∃ k b, i = .dec k b) : u.bytes = s.bytes := by
  cases i with
  | nop => rw [show u = s from h]
  | clrerr => rw [show u = s.setSticky false from h, State.setSticky_bytes]
  | mod | modM | smod | smodM | clen | cmpb => obtain ⟨v, rfl⟩ := h; rfl
  | zgen | nttFwd | nttInv => obtain ⟨m, rfl⟩ := h; rfl
  | enc k b v => exact absurd ⟨k, b, v, rfl⟩ he
  | dec k b => exact absurd ⟨k, b, rfl⟩ hd

/-- Settles O19: a fault writes no memory, and a completion writes what `OwnWrites` lists for its command. -/
theorem onlyTheNamedCommandsWriteAMemory : Obligations.OnlyTheNamedCommandsWriteAMemory := by
  intro i s t ht
  rcases exec_next_cases ht with ⟨u, hu, rfl⟩ | ⟨c, -, rfl⟩
  · have hw := resultOf_ok_ownWrites hu
    obtain ⟨-, -, hzeta⟩ := resultOf_ok_flags hu
    exact ⟨hw.res_eq, hzeta, hw.poly_eq, hw.bytes_eq⟩
  · exact ⟨fun _ => rfl, fun _ => rfl, fun _ _ => rfl, fun _ _ => rfl⟩

end Sys2Proof.Machine
end

section
/-! Registers as the host sees them: their numbers, and what a write of one does to the reading of each (rules R25, R27, R40, R43). -/

namespace Sys2Proof.Machine

/-- The number of a register in the table of rule R40. -/
def Reg.number : Reg → Nat
  | .q => 0x00
  | .f => 0x01
  | .root => 0x02
  | .ctrl => 0x03
  | .ndeg => 0x04
  | .status => 0x08
  | .ecmd => 0x09
  | .cmd => 0x0C
  | .x0 => 0x10
  | .x1 => 0x11
  | .x2 => 0x12
  | .x3 => 0x13
  | .res => 0x18

@[simp] theorem regOfNumber_number (r : Reg) : regOfNumber r.number = some r := by cases r <;> rfl

theorem number_of_regOfNumber {n : Nat} {r : Reg} (h : regOfNumber n = some r) : n = r.number := by
  unfold regOfNumber at h
  split at h <;> cases h <;> rfl

theorem regOfNumber_isSome_iff (n : Nat) : (regOfNumber n).isSome = true ↔ ∃ r : Reg, n = r.number := by
  constructor
  · intro h
    obtain ⟨r, hr⟩ := Option.isSome_iff_exists.1 h
    exact ⟨r, number_of_regOfNumber hr⟩
  · rintro ⟨r, rfl⟩
    rw [regOfNumber_number]; rfl

/-- The CTRL word has INC in bit 0 and BRV in bits 7:4 (rule R25). -/
theorem uval_ctrl (s : State) : uval s.ctrl = (if s.inc then 1 else 0) + 16 * s.brv.toNat := by
  have := s.brv.isLt
  simp only [uval, State.ctrl, flagBit, BitVec.toNat_ofNat]
  split <;> omega

/-- The STATUS word has ERR in bits 7:0, STICKY in bit 8, ZVALID in bit 9 (rule R27). -/
theorem uval_status (s : State) :
    uval s.status = s.err.toNat + (if s.sticky then 256 else 0) + (if s.zvalid then 512 else 0) := by
  have := s.err.isLt
  simp only [uval, State.status, flagBit, BitVec.toNat_ofNat]
  split <;> split <;> omega

/-- A register write, as one update: each field gets the value if the register is its own, and ZVALID is cleared by Q, ROOT and CTRL
(rules R40, R43). -/
theorem writeReg_eq (s : State) (r : Reg) (v : Int) :
    writeReg s r v = { s with
      q := if r = .q then BitVec.ofInt 32 v else s.q
      f := if r = .f then BitVec.ofInt 32 v else s.f
      root := if r = .root then BitVec.ofInt 32 v else s.root
      inc := if r = .ctrl then ctrlInc v.toNat else s.inc
      brv := if r = .ctrl then ctrlBrv v.toNat else s.brv
      x0 := if r = .x0 then BitVec.ofInt 64 v else s.x0
      x1 := if r = .x1 then BitVec.ofInt 64 v else s.x1
      x2 := if r = .x2 then BitVec.ofInt 64 v else s.x2
      x3 := if r = .x3 then BitVec.ofInt 64 v else s.x3
      zvalid := if r ∈ [Reg.q, .root, .ctrl] then false else s.zvalid } := by
  cases r <;> rfl

theorem readReg_writeReg_other (s : State) {r r' : Reg} (v : Int) (h : r ≠ r') (hst : r' ≠ .status) :
    readReg (writeReg s r v) r' = readReg s r' := by
  rw [writeReg_eq]
  cases r' <;> simp_all [readReg, State.ctrl]

/-- A writable register other than CTRL reads as the value written to it. -/
theorem readReg_writeReg_same (s : State) {r : Reg} {v : Int} (hr : r ∈ [Reg.q, .f, .root, .x0, .x1, .x2, .x3]) (hv : FitsReg r v) :
    readReg (writeReg s r v) r = v := by
  simp only [List.mem_cons, List.not_mem_nil, or_false] at hr
  rcases hr with rfl | rfl | rfl | rfl | rfl | rfl | rfl
  case inl | inr.inl | inr.inr.inl => exact uval_ofInt hv.1 hv.2
  all_goals exact toInt_ofInt_64 hv.1 hv.2

/-- CTRL keeps the bits of its two fields (rule R25). -/
theorem readReg_writeReg_ctrl (s : State) {v : Int} (hv : 0 ≤ v) :
    readReg (writeReg s .ctrl v) .ctrl = v % 2 + 16 * (v / 16 % 16) := by
  obtain ⟨n, rfl⟩ := Int.eq_ofNat_of_zero_le hv
  show uval (State.ctrl _) = _
  rw [uval_ctrl]
  simp only [writeReg, State.setZvalid_inc, State.setZvalid_brv, State.setCtrl_inc, State.setCtrl_brv, ctrlInc, ctrlBrv,
    Int.toNat_natCast, BitVec.toNat_ofNat, decide_eq_true_eq]
  split <;> omega

end Sys2Proof.Machine
end

section
/-! The host's accesses: what a step on each event gives, and what a host write does to every reading (rules R40, R43, R61, R64, R70). -/

namespace Sys2Proof.Machine

/-! ### Steps on each event -/

theorem step_cons {s : State} {e : HostEvent} {rest : List HostEvent} (hp : s.pending = e :: rest) :
    step s = perform e (s.setPending rest) := by
  rw [step, hp]

theorem step_read {s : State} {t : Target} {v : Int} {rest : List HostEvent} (hp : s.pending = .read t :: rest)
    (hv : hostRead s t = some v) : step s = .next ((s.setPending rest).setReadValue (some v)) := by
  have hv' : hostRead (s.setPending rest) t = some v := hv
  rw [step_cons hp, perform, hv']

theorem step_write {s : State} {t : Target} {v : Int} {rest : List HostEvent} (hp : s.pending = .write t v :: rest)
    (hin : t.inSpace = true) (hfit : t.fits v = true) (hne : t ≠ .reg 0x0C) :
    step s = .next (hostWrite (s.setPending rest) t v) := by
  rw [step_cons hp, perform, if_pos hin, if_pos hfit, if_neg hne]

theorem step_issue {s : State} {v : Int} {rest : List HostEvent} (hp : s.pending = .write (.reg 0x0C) v :: rest)
    (hfit : (Target.reg 0x0C).fits v = true) : step s = issue (BitVec.ofInt 32 v) (s.setPending rest) := by
  rw [step_cons hp, perform, if_pos (by decide), if_pos hfit, if_pos rfl]

theorem hostRead_eq_none {s : State} {t : Target} (ht : t.inSpace = false) : hostRead s t = none := by
  unfold hostRead
  rw [if_neg (by rw [ht]; decide)]

/-! ### Elements by register -/

theorem inSpace_reg_iff (n : Nat) : (Target.reg n).inSpace = true ↔ ∃ r : Reg, n = r.number := regOfNumber_isSome_iff n

theorem fits_reg_number (r : Reg) (v : Int) : (Target.reg r.number).fits v = true ↔ FitsReg r v := by
  simp only [Target.fits, regOfNumber_number, decide_eq_true_eq]

@[simp] theorem hostRead_reg_number (s : State) (r : Reg) : hostRead s (.reg r.number) = some (readReg s r) := by
  rw [hostRead, if_pos ((inSpace_reg_iff _).2 ⟨r, rfl⟩)]
  simp only [regOfNumber_number, Option.map_some]

@[simp] theorem hostWrite_reg_number (s : State) (r : Reg) (v : Int) : hostWrite s (.reg r.number) v = writeReg s r v := by
  simp only [hostWrite, regOfNumber_number]

/-- The register numbers of rule R40, as the host lists them. -/
theorem inSpace_reg_iff_mem (n : Nat) : (Target.reg n).inSpace = true ↔
    n ∈ [0x00, 0x01, 0x02, 0x03, 0x04, 0x08, 0x09, 0x0C, 0x10, 0x11, 0x12, 0x13, 0x18] := by
  rw [inSpace_reg_iff]
  constructor
  · rintro ⟨r, rfl⟩
    cases r <;> decide
  · intro hn
    obtain ⟨r, -, hr⟩ := (List.mem_map (f := Reg.number)
      (l := [.q, .f, .root, .ctrl, .ndeg, .status, .ecmd, .cmd, .x0, .x1, .x2, .x3, .res])).1 hn
    exact ⟨r, hr.symm⟩

/-- Settles O6: a command word fits CMD, is the word the step issues, and its issue is exec of the command it decodes to. -/
theorem stepRunsTheDecodedCommand : Obligations.StepRunsTheDecodedCommand := by
  refine ⟨fun s w i rest hp hd => ?_, fun s hp => by rw [step, hp]⟩
  have hfit : (Target.reg 0x0C).fits (w.toNat : Int) = true := by
    have := w.isLt
    exact (fits_reg_number .cmd _).2 ⟨by omega, by omega⟩
  have hw : BitVec.ofInt 32 (w.toNat : Int) = w := by simp
  rw [step_issue hp hfit, hw, issue, hd]
  rfl

/-- Settles O8: a step refuses an access by the first test it fails, and the tests are those of the register table and of the sizes of
the spaces and elements. -/
theorem accessOutsideTheInterfaceIsRefused : Obligations.AccessOutsideTheInterfaceIsRefused := by
  refine ⟨fun s t v rest => ⟨fun hp ht => ?_, fun hp ht => ?_, fun hp ht hv => ?_⟩,
    fun n b i o h k => ⟨inSpace_reg_iff_mem n, ?_, ?_, ?_, ?_⟩, fun v n b i o h k => ⟨fun hn => ?_, fun hn => ?_, ?_, ?_, ?_, ?_⟩⟩
  · rw [step_cons hp, perform, hostRead_eq_none ht]
  · rw [step_cons hp, perform, ht]; rfl
  · rw [step_cons hp, perform, if_pos ht, hv]; rfl
  · simp only [Target.inSpace, ndeg, decide_eq_true_eq]; omega
  · simp only [Target.inSpace, ndeg, npolyMax, Bool.and_eq_true, decide_eq_true_eq]; omega
  · simp only [Target.inSpace, bytesSz, decide_eq_true_eq]; omega
  · simp only [Target.inSpace, ncoder, descWords, Bool.and_eq_true, decide_eq_true_eq]; omega
  · obtain ⟨r, hr, rfl⟩ := (List.mem_map (f := Reg.number) (l := [.q, .f, .root, .ctrl, .ndeg, .status, .ecmd, .cmd])).1 hn
    rw [fits_reg_number]
    fin_cases hr <;> exact Iff.rfl
  · obtain ⟨r, hr, rfl⟩ := (List.mem_map (f := Reg.number) (l := [.x0, .x1, .x2, .x3, .res])).1 hn
    rw [fits_reg_number]
    fin_cases hr <;> exact Iff.rfl
  all_goals simp only [Target.fits, decide_eq_true_eq]

/-- Settles O7: `hostRead` answers for every element of a space, with the value the clause for that element names. -/
theorem hostReadHasNoSideEffect : Obligations.HostReadHasNoSideEffect := by
  intro s t rest hp ht
  obtain ⟨v, hv⟩ : ∃ v, hostRead s t = some v := by
    cases t with
    | reg n => obtain ⟨r, rfl⟩ := (inSpace_reg_iff n).1 ht; exact ⟨_, hostRead_reg_number s r⟩
    | zeta | poly | bytes | desc => exact ⟨_, if_pos ht⟩
  have reg : ∀ r : Reg, t = .reg r.number → v = readReg s r := by
    rintro r rfl
    exact Option.some.inj (hv.symm.trans (hostRead_reg_number s r))
  refine ⟨v, hv, step_read hp hv, reg .q, reg .f, reg .root, fun h => (reg .ctrl h).trans (uval_ctrl s), reg .ndeg,
    fun h => (reg .status h).trans (uval_status s), reg .ecmd, reg .cmd, reg .x0, reg .x1, reg .x2, reg .x3, reg .res, ?_, ?_, ?_, ?_⟩
  all_goals
    intros
    subst t
    exact Option.some.inj (hv.symm.trans (if_pos ht))

/-! ### A host write, and every reading after it -/

/-- A host write changes the reading of its own element alone, and of STATUS (rule R43). -/
theorem hostRead_hostWrite_other (s : State) {t t' : Target} (v : Int) (ht : t.inSpace = true) (hne : t' ≠ t) (hst : t' ≠ .reg 8) :
    hostRead (hostWrite s t v) t' = hostRead s t' := by
  cases ht' : t'.inSpace with
  | false => rw [hostRead_eq_none ht', hostRead_eq_none ht']
  | true =>
    cases t with
    | reg n =>
      obtain ⟨r, rfl⟩ := (inSpace_reg_iff n).1 ht
      rw [hostWrite_reg_number]
      cases t' with
      | reg n' =>
        obtain ⟨r', rfl⟩ := (inSpace_reg_iff n').1 ht'
        rw [hostRead_reg_number, hostRead_reg_number,
          readReg_writeReg_other s v (fun h => hne (by rw [h])) (fun h => hst (by rw [h]; rfl))]
      | zeta | poly | bytes | desc => rw [writeReg_eq]; rfl
    | zeta i => rfl
    | poly b i =>
      cases t' with
      | poly b' i' =>
        simp only [Target.inSpace, ndeg, npolyMax, Bool.and_eq_true, decide_eq_true_eq] at ht ht'
        simp only [ne_eq, Target.poly.injEq] at hne
        have hidx : polyIndex b' i' ≠ polyIndex b i := by simp only [polyIndex, ndeg]; omega
        simp only [hostRead, hostWrite, State.setPoly_poly, Memory.read_write_other _ _ hidx]
      | reg | zeta | bytes | desc => rfl
    | bytes o =>
      cases t' with
      | bytes o' =>
        have ho : o' ≠ o := fun h => hne (by rw [h])
        simp only [hostRead, hostWrite, State.setBytes_bytes, Memory.read_write_other _ _ ho]
      | reg | zeta | poly | desc => rfl
    | desc h k =>
      cases t' with
      | desc h' k' =>
        simp only [Target.inSpace, ncoder, descWords, Bool.and_eq_true, decide_eq_true_eq] at ht ht'
        simp only [ne_eq, Target.desc.injEq] at hne
        have hidx : descIndex h' k' ≠ descIndex h k := by simp only [descIndex, descWords]; omega
        simp only [hostRead, hostWrite, State.setDesc_desc, Memory.read_write_other _ _ hidx]
      | reg | zeta | poly | bytes => rfl

/-- A writable element other than CTRL reads as the value written to it (rule R61). -/
theorem hostRead_hostWrite_same (s : State) {t : Target} {v : Int} (ht : t.inSpace = true) (hfit : t.fits v = true)
    (hw : t ∈ [Target.reg 0, .reg 1, .reg 2, .reg 0x10, .reg 0x11, .reg 0x12, .reg 0x13] ∨
      (∃ b i, t = .poly b i) ∨ (∃ o, t = .bytes o) ∨ (∃ h k, t = .desc h k)) : hostRead (hostWrite s t v) t = some v := by
  rcases hw with hr | ⟨b, i, rfl⟩ | ⟨o, rfl⟩ | ⟨h, k, rfl⟩
  · obtain ⟨r, hm, rfl⟩ := (List.mem_map (f := fun r : Reg => Target.reg r.number) (l := [.q, .f, .root, .x0, .x1, .x2, .x3])).1 hr
    rw [hostWrite_reg_number, hostRead_reg_number, readReg_writeReg_same s hm ((fits_reg_number r v).1 hfit)]
  · obtain ⟨h0, h1⟩ : FitsS 31 v := of_decide_eq_true hfit
    rw [hostRead, if_pos ht]
    simp only [hostWrite, State.setPoly_poly, Memory.read_write_same]
    rw [toInt_ofInt_32 h0 h1]
  · obtain ⟨h0, h1⟩ : FitsU 8 v := of_decide_eq_true hfit
    rw [hostRead, if_pos ht]
    simp only [hostWrite, State.setBytes_bytes, Memory.read_write_same]
    rw [uval_ofInt h0 h1]
  · obtain ⟨h0, h1⟩ : FitsU 32 v := of_decide_eq_true hfit
    rw [hostRead, if_pos ht]
    simp only [hostWrite, State.setDesc_desc, Memory.read_write_same]
    rw [uval_ofInt h0 h1]

/-- A write to a read-only element is ignored (rules R32, R40). -/
theorem hostWrite_readOnly (s : State) {t : Target} (v : Int)
    (hr : t ∈ [Target.reg 4, .reg 8, .reg 9, .reg 0x18] ∨ (∃ i, t = .zeta i)) : hostWrite s t v = s := by
  rcases hr with hr | ⟨i, rfl⟩
  · obtain ⟨r, hm, rfl⟩ := (List.mem_map (f := fun r : Reg => Target.reg r.number) (l := [.ndeg, .status, .ecmd, .res])).1 hr
    rw [hostWrite_reg_number]
    fin_cases hm <;> rfl
  · rfl

/-- A host write clears ZVALID if it goes to Q, ROOT or CTRL, and leaves it otherwise (rule R43). -/
theorem hostWrite_zvalid (s : State) {t : Target} (v : Int) (ht : t.inSpace = true) :
    (hostWrite s t v).zvalid = if t ∈ [Target.reg 0, .reg 2, .reg 3] then false else s.zvalid := by
  cases t with
  | reg n =>
    obtain ⟨r, rfl⟩ := (inSpace_reg_iff n).1 ht
    rw [hostWrite_reg_number]
    cases r <;> rfl
  | zeta | poly | bytes | desc => rw [if_neg (by simp)]; rfl

/-- Settles O9: the reading after a write is that of `hostRead_hostWrite_same` at its own element and of `hostRead_hostWrite_other`
elsewhere; a read-only element ignores the write. -/
theorem hostReadSeesTheLatestWrite : Obligations.HostReadSeesTheLatestWrite := by
  intro s t v rest hp ht hfit
  have others : ∀ t', t' ≠ t → t' ≠ .reg 8 → hostRead (hostWrite (s.setPending rest) t v) t' = hostRead s t' :=
    fun t' hne hst => hostRead_hostWrite_other (s.setPending rest) v ht hne hst
  refine ⟨fun hw => ?_, ?_, fun hr => ?_⟩
  · have hne : t ≠ .reg 0x0C := by rintro rfl; simp at hw
    have hv := hostRead_hostWrite_same (s.setPending rest) ht hfit hw
    refine ⟨_, step_write hp ht hfit hne, hostWrite_pending _ _ _, hv, others, fun rest' hrest => ?_⟩
    exact step_read ((hostWrite_pending _ _ _).trans hrest) hv
  · rintro rfl
    have hv : FitsU 32 v := (fits_reg_number .ctrl v).1 hfit
    refine ⟨_, step_write hp ht hfit (by decide), hostWrite_pending _ _ _, ?_, others⟩
    exact congrArg some (readReg_writeReg_ctrl (s.setPending rest) hv.1)
  · have hne : t ≠ .reg 0x0C := by rintro rfl; simp at hr
    rw [step_write hp ht hfit hne, hostWrite_readOnly _ v hr]
    rfl

/-- Settles O10: the write to CMD is a command issue; every other write leaves what `hostWrite_frame` and `hostRead_hostWrite_other` say,
and ZVALID as `hostWrite_zvalid` says. -/
theorem configurationWriteClearsZvalid : Obligations.ConfigurationWriteClearsZvalid := by
  intro s t v rest hp ht hfit
  constructor
  · rintro rfl
    exact step_issue hp hfit
  · intro hne
    have hz := hostWrite_zvalid (s.setPending rest) v ht
    refine ⟨_, step_write hp ht hfit hne, hostWrite_pending _ _ _, hostWrite_readValue _ _ _, hostWrite_zeta _ _ _, hostWrite_err _ _ _,
      hostWrite_sticky _ _ _, fun h => transientsZero_invariant.hostWrite (s.setPending rest) t v ht h, fun hc => ?_, fun hc => ?_,
      fun t' h1 h2 => hostRead_hostWrite_other _ v ht h1 h2⟩
    · rwa [if_pos hc] at hz
    · rwa [if_neg hc] at hz

end Sys2Proof.Machine
end

section
/-! STICKY, ECMD and ZVALID over every step (rules R27, R28, R125). -/

namespace Sys2Proof.Machine

/-- The value the host wrote to CMD is the word of the command it decodes to. -/
theorem value_of_decode {v : Int} {i : Instr} (hv : 0 ≤ v ∧ v < 2 ^ 32) (hd : decode (BitVec.ofInt 32 v) = .ok i) :
    v = uval (encode i) := by
  rw [encode_of_decode hd, uval_ofInt hv.1 hv.2]

/-- A step leaves STICKY and ECMD as they are, or issues a command word, or is a reset: the host's accesses do not reach them. -/
theorem step_keeps_record_cases {s t : State} (hst : step s = .next t) :
    (t.sticky = s.sticky ∧ t.ecmd = s.ecmd) ∨
    (∃ v rest, s.pending = .write (.reg 0x0C) v :: rest ∧ (0 ≤ v ∧ v < 2 ^ 32) ∧
      issue (BitVec.ofInt 32 v) (s.setPending rest) = .next t) ∨
    (∃ rest, s.pending = .reset :: rest ∧ t = (s.setPending rest).afterReset) := by
  rcases step_next_cases hst with ⟨-, rfl⟩ | ⟨tgt, v, rest, -, -, rfl⟩ | ⟨tgt, v, rest, -, -, -, -, rfl⟩ | hi | hr
  · exact .inl ⟨rfl, rfl⟩
  · exact .inl ⟨rfl, rfl⟩
  · exact .inl ⟨hostWrite_sticky _ tgt v, hostWrite_ecmd _ tgt v⟩
  · exact .inr (.inl hi)
  · exact .inr (.inr hr)

/-- Settles O15: a completion clears STICKY only as CLRERR, and keeps ECMD; a fault entry sets STICKY and puts its word in ECMD; a host
access writes neither. -/
theorem stickyAndEcmdChangeOnlyAsTheRulesSay : Obligations.StickyAndEcmdChangeOnlyAsTheRulesSay := by
  intro s t hst
  rcases step_keeps_record_cases hst with ⟨hs, he⟩ | ⟨v, rest, hp, hv, hi⟩ | ⟨rest, hp, rfl⟩
  · exact ⟨fun h1 h2 => absurd (h1.symm.trans (hs.symm.trans h2)) (by decide), fun hne => absurd he hne⟩
  · rcases issue_completes_or_faults hi with ⟨i, u, hd, hu, rfl⟩ | ⟨c, -, rfl⟩
    · refine ⟨fun h1 h2 => .inl ?_, fun he => absurd (resultOf_ok_ecmd hu) he⟩
      have hc : i = .clrerr := by
        by_contra hne
        have hs := (resultOf_ok_flags hu).1
        rw [if_neg hne] at hs
        exact absurd (h1.symm.trans (hs.symm.trans h2)) (by decide)
      subst hc
      rw [hp, value_of_decode hv hd]
      rfl
    · exact ⟨fun _ h2 => (by cases h2), fun _ => .inl ⟨v, congrArg List.head? hp, c.code_ne_zero, rfl⟩⟩
  · exact ⟨fun _ _ => .inr (congrArg List.head? hp), fun _ => .inr ⟨congrArg List.head? hp, rfl⟩⟩

/-- Settles O16: a completion sets ZVALID only as ZGEN, a fault entry leaves it, and a host write clears it only at Q, ROOT or CTRL
(`hostWrite_zvalid`). -/
theorem zvalidChangesOnlyAsTheRulesSay : Obligations.ZvalidChangesOnlyAsTheRulesSay := by
  intro s t hst hz
  rcases step_next_cases hst with ⟨-, rfl⟩ | ⟨tgt, v, rest, -, -, rfl⟩ | ⟨tgt, v, rest, hp, hin, -, -, rfl⟩ | ⟨v, rest, hp, hv, hi⟩ |
    ⟨rest, hp, rfl⟩
  · exact absurd rfl hz
  · exact absurd rfl hz
  · have hw := hostWrite_zvalid (s.setPending rest) v hin
    by_cases hc : tgt ∈ [Target.reg 0, .reg 2, .reg 3]
    · rw [if_pos hc] at hw
      obtain ⟨n, hn, rfl⟩ := (List.mem_map (f := Target.reg) (l := [0, 2, 3])).1 hc
      exact .inr ⟨hw, .inr ⟨n, v, hn, congrArg List.head? hp⟩⟩
    · rw [if_neg hc] at hw
      exact absurd hw hz
  · rcases issue_completes_or_faults hi with ⟨i, u, hd, hu, rfl⟩ | ⟨c, -, rfl⟩
    · have hs := (resultOf_ok_flags hu).2.1
      by_cases hc : i = .zgen
      · subst hc
        refine .inl ⟨hs, ?_⟩
        rw [hp, value_of_decode hv hd]
        rfl
      · rw [if_neg hc] at hs
        exact absurd hs hz
    · exact absurd rfl hz
  · exact .inr ⟨rfl, .inl (congrArg List.head? hp)⟩

end Sys2Proof.Machine
end

section
/-! Reset, and what an unconfigured block answers (rules R41, R250, R252); the STATUS word after NOP and CLRERR (rules R210, R211). -/

namespace Sys2Proof.Machine

/-- Without a legal Q the commands that reduce by Q, and ZGEN, are BAD_PARAM (rules R22, R112, R114, R122). -/
theorem resultOf_of_not_qLegal {i : Instr} {s : State} (hq : ¬ QLegal s) (hi : i ∈ [Instr.mod, .smod, .zgen]) :
    resultOf i s = .error .badParam := by
  simp only [List.mem_cons, List.not_mem_nil, or_false] at hi
  rcases hi with rfl | rfl | rfl <;> exact if_neg hq

/-- The header of an unwritten descriptor is the word 0, of no kind (rules R92, R151). -/
theorem resolve_nil (h : Nat) : resolve [] h = none := rfl

/-- Settles O11: reset answers the reset state with the environment's fields; on it Q is illegal, ZVALID is 0 and no descriptor
resolves. -/
theorem resetClearsEverything : Obligations.ResetClearsEverything := by
  intro s rest hp
  have hq : ¬ QLegal (s.setPending rest).afterReset := fun h => absurd h.1 (by decide : ¬ 1 ≤ (0 : Word).toNat)
  refine ⟨(s.setPending rest).afterReset, step_cons hp, rfl, rfl, rfl, rfl, rfl, rfl, rfl, rfl, rfl, rfl, rfl, rfl, rfl, rfl, rfl, rfl,
    ⟨rfl, rfl, rfl⟩, fun _ => rfl, fun _ => rfl, fun _ => rfl, fun _ => rfl, rfl, rfl, fun i hi => ?_, fun pb => ⟨?_, ?_⟩,
    fun h pb vlen => ⟨?_, ?_, ?_⟩⟩
  · exact exec_of_error (resultOf_of_not_qLegal hq hi)
  · exact exec_of_error (c := .notReady) rfl
  · exact exec_of_error (c := .notReady) rfl
  · exact exec_of_error (c := .badDesc) (by rw [resultOf, clenResult, show State.desc _ = [] from rfl, resolve_nil])
  · exact exec_of_error (c := .badDesc) (by rw [resultOf, encResult, show State.desc _ = [] from rfl, resolve_nil])
  · exact exec_of_error (c := .badDesc) (by rw [resultOf, decResult, show State.desc _ = [] from rfl, resolve_nil])

/-- Settles O26: both commands complete, so the word is that of `uval_status` with ERR = 0, and after CLRERR with STICKY = 0. -/
theorem statusWordAfterHousekeeping : Obligations.StatusWordAfterHousekeeping := by
  intro s t u ht hu
  obtain rfl : s.complete = t := Host.Outcome.next.inj ht
  obtain rfl : (s.setSticky false).complete = u := Host.Outcome.next.inj hu
  have read : ∀ s' : State, hostRead s' (.reg 8) = some (uval s'.status) := fun s' => hostRead_reg_number s' .status
  constructor
  · rw [read, uval_status, State.complete_err, State.complete_sticky, State.complete_zvalid]
    simp
  · rw [read, uval_status, State.complete_err, State.complete_sticky, State.complete_zvalid, State.setSticky_sticky,
      State.setSticky_zvalid]
    simp

end Sys2Proof.Machine
end

section
/-! What `resolve` reads (rules R73, R95). -/

namespace Sys2Proof.Machine

/-- Settles O48: the bounds on the depth are equal, both above h, and each level reads its own descriptor and goes to smaller handles
only (`resolveFuel_congr`). -/
theorem resolveReadsNoHigherHandle : Obligations.ResolveReadsNoHigherHandle := by
  intro desc desc' h hread
  have same : ∀ g, g ≤ h → SameDescriptor desc desc' g := fun g hg k hk => hread g k hg hk
  exact resolveFuel_congr (h + 1) (h + 1) h (Nat.lt_succ_self h) (Nat.lt_succ_self h) same

end Sys2Proof.Machine
end

section
/-! The rows of the opcode table, and the decoder and the encoder against them (rules R80 to R89). -/

namespace Sys2Proof

/-- The number of low bits a command's format gives to fields; the bits from there to bit 23 are reserved (rule R80). -/
def Instr.fieldBits : Instr → Nat
  | .nop | .clrerr | .mod | .modM | .smod | .smodM | .zgen | .cmpb => 0
  | .nttFwd _ | .nttInv _ => 5
  | .clen _ => 4
  | .enc _ _ _ => 17
  | .dec _ _ => 9

/-- The row of rule R88 a command belongs to, computed from its opcode and its format. -/
def Instr.row (i : Instr) : OpcodeRow :=
  ⟨i.mnemonic, BitVec.ofNat 32 (16777216 * i.opcode), BitVec.ofNat 32 ((2 ^ (32 - i.fieldBits) - 1) * 2 ^ i.fieldBits)⟩

/-- The command of the same row whose fields are the bits of `w` (rule R80). -/
def Instr.withFieldsOf (w : Word) : Instr → Instr
  | .nttFwd _ => .nttFwd (bits w 4 0)
  | .nttInv _ => .nttInv (bits w 4 0)
  | .clen _ => .clen (bits w 3 0)
  | .enc _ _ _ => .enc (bits w 3 0) (bits w 8 4) (bits w 16 9)
  | .dec _ _ => .dec (bits w 3 0) (bits w 8 4)
  | i => i

/-- One command for each row, in the order of the table. -/
def rowCommands : List Instr :=
  [.nop, .clrerr, .mod, .modM, .smod, .smodM, .zgen, .nttFwd 0, .nttInv 0, .clen 0, .enc 0 0 0, .dec 0 0, .cmpb]

@[simp] theorem Instr.row_withFieldsOf (w : Word) (i : Instr) : (i.withFieldsOf w).row = i.row := by cases i <;> rfl

@[simp] theorem Instr.withFieldsOf_withFieldsOf (w : Word) (i : Instr) : (i.withFieldsOf w).withFieldsOf w = i.withFieldsOf w := by
  cases i <;> rfl

theorem Instr.withFieldsOf_zero_mem_rowCommands (i : Instr) : i.withFieldsOf 0 ∈ rowCommands := by
  cases i <;> simp [Instr.withFieldsOf, rowCommands, bits]

theorem opcodeTable_eq_map_row : opcodeTable = rowCommands.map Instr.row := by decide

/-- The rows of the table are those of the commands. -/
theorem mem_opcodeTable_iff {row : OpcodeRow} : row ∈ opcodeTable ↔ ∃ i : Instr, i.row = row := by
  rw [opcodeTable_eq_map_row, List.mem_map]
  constructor
  · rintro ⟨i, -, hi⟩
    exact ⟨i, hi⟩
  · rintro ⟨i, rfl⟩
    exact ⟨i.withFieldsOf 0, i.withFieldsOf_zero_mem_rowCommands, i.row_withFieldsOf 0⟩

/-- A mnemonic names one row. -/
theorem Instr.row_eq_of_mnemonic_eq {i j : Instr} (h : i.mnemonic = j.mnemonic) : i.row = j.row :=
  (by decide : ∀ r ∈ opcodeTable, ∀ r' ∈ opcodeTable, r.mnemonic = r'.mnemonic → r = r')
    i.row (mem_opcodeTable_iff.2 ⟨i, rfl⟩) j.row (mem_opcodeTable_iff.2 ⟨j, rfl⟩) h

/-- The test of rule R88 against a row says that the opcode is the row's and that the reserved bits are 0. -/
theorem matches_row_iff (w : Word) (i : Instr) :
    w &&& i.row.mask = i.row.matchWord ↔ bits w 31 24 = i.opcode ∧ bits w 23 i.fieldBits = 0 := by
  have hk : i.fieldBits ≤ 32 := by cases i <;> simp [Instr.fieldBits]
  have hw := w.isLt
  have hm : i.row.matchWord.toNat = 16777216 * i.opcode := by
    have := i.opcode_lt
    rw [Instr.row, BitVec.toNat_ofNat]
    omega
  rw [show i.row.mask = BitVec.ofNat 32 ((2 ^ (32 - i.fieldBits) - 1) * 2 ^ i.fieldBits) from rfl, and_mask_eq_iff w _ hk rfl, hm,
    bits_eq, bits_eq]
  cases i <;> simp only [Instr.fieldBits, Instr.opcode] <;> omega

theorem fieldsRead_iff {w : Word} {i : Instr} : FieldsRead w i ↔ bits w 23 i.fieldBits = 0 ∧ i = i.withFieldsOf w := by
  cases i <;> simp [FieldsRead, Instr.fieldBits, Instr.withFieldsOf]

/-- The decoder against the table of rule R88: a word is a command exactly when it matches the command's row and has its fields. -/
theorem decode_ok_iff_matches_row {w : Word} {i : Instr} :
    decode w = .ok i ↔ w &&& i.row.mask = i.row.matchWord ∧ i = i.withFieldsOf w := by
  rw [decode_ok_iff, fieldsRead_iff, matches_row_iff, and_assoc]

/-- A word that matches a row is the command of that row with the word's fields. -/
theorem decode_of_matches_row {w : Word} {i : Instr} (h : w &&& i.row.mask = i.row.matchWord) :
    decode w = .ok (i.withFieldsOf w) :=
  decode_ok_iff_matches_row.2 ⟨by rwa [i.row_withFieldsOf w], (i.withFieldsOf_withFieldsOf w).symm⟩

/-- The fields of a command, within their bits, as one number: what a word with reserved bits 0 has below its opcode (rules R80, R81). -/
theorem wellFormed_and_fields_of_fieldsRead {w : Word} {i : Instr} (h : FieldsRead w i) :
    i.wellFormed = true ∧ i.fields = w.toNat % 2 ^ 24 := by
  cases i <;> simp only [FieldsRead, bits_eq, pow_zero, Nat.div_one] at h <;>
    simp only [Instr.wellFormed, Instr.fields, Bool.and_eq_true, decide_eq_true_eq, true_and] <;> omega

/-- Rules R80, R81: the word of a well-formed command has its opcode, its fields and reserved bits 0 (`Laws.EncodeFields`). -/
theorem fieldsRead_encode : ∀ i : Instr, Laws.EncodeFields.Statement i
  | .nop => Laws.EncodeFields.nop
  | .clrerr => Laws.EncodeFields.clrerr
  | .mod => Laws.EncodeFields.mod
  | .modM => Laws.EncodeFields.modM
  | .smod => Laws.EncodeFields.smod
  | .smodM => Laws.EncodeFields.smodM
  | .zgen => Laws.EncodeFields.zgen
  | .nttFwd pb => Laws.EncodeFields.nttFwd pb
  | .nttInv pb => Laws.EncodeFields.nttInv pb
  | .clen k => Laws.EncodeFields.clen k
  | .enc k pb vlen => Laws.EncodeFields.enc k pb vlen
  | .dec k pb => Laws.EncodeFields.dec k pb
  | .cmpb => Laws.EncodeFields.cmpb

/-- A word that matches no command's row is illegal: its issue is the fault entry with BAD_CMD (rules R82, R89). -/
theorem issue_of_decode_ne_ok {w : Word} (h : ∀ i, decode w ≠ .ok i) (s : Machine.State) :
    Machine.issue w s = .next (Machine.afterFault s 4 w) := by
  unfold Machine.issue
  cases hd : decode w with
  | ok i => exact absurd hd (h i)
  | error e => rfl

/-- The thirteen opcodes of rule R88. -/
theorem Instr.opcode_mem (i : Instr) :
    i.opcode ∈ [0x00, 0x01, 0x10, 0x11, 0x12, 0x13, 0x20, 0x30, 0x31, 0x40, 0x41, 0x42, 0x50] := by
  cases i <;> simp [Instr.opcode]

theorem Instr.eq_dec_of_opcode {i : Instr} (h : i.opcode = 0x42) : ∃ k pb, i = .dec k pb := by
  cases i with
  | dec k pb => exact ⟨k, pb, rfl⟩
  | _ => simp [Instr.opcode] at h

theorem bits_opcode (w : Word) : bits w 31 24 = w.toNat / 2 ^ 24 := by
  have := w.isLt
  rw [bits_eq]
  omega

/-- Settles O1: the word of a well-formed command has the command's opcode and fields, and the decoder reads just these. -/
theorem decodeOfEncodeIsTheCommand : Obligations.DecodeOfEncodeIsTheCommand := by
  intro i hwf
  exact decode_ok_iff.2 (fieldsRead_encode i hwf)

/-- Settles O2: the opcode and the fields of the command are the upper 8 and the lower 24 bits of the word. -/
theorem encodeOfDecodeIsTheWord : Obligations.EncodeOfDecodeIsTheWord := by
  intro w i hd
  obtain ⟨hopc, hread⟩ := decode_ok_cases hd
  obtain ⟨hwf, hfields⟩ := wellFormed_and_fields_of_fieldsRead hread
  refine ⟨hwf, word_eq_of_toNat ?_⟩
  calc (encode i).toNat = 16777216 * i.opcode + i.fields := encode_toNat hwf
    _ = 2 ^ 24 * (w.toNat / 2 ^ 24) + w.toNat % 2 ^ 24 := by rw [← hopc, hfields, bits_opcode, show 16777216 = 2 ^ 24 from rfl]
    _ = w.toNat := Nat.div_add_mod _ _

/-- Settles O3: every row is that of a command; a word that matches it is the command of that row with the word's fields. -/
theorem decodeFollowsMatchAndMask : Obligations.DecodeFollowsMatchAndMask := by
  intro w row hrow
  obtain ⟨j, rfl⟩ := mem_opcodeTable_iff.1 hrow
  constructor
  · rintro ⟨i, hd, hname⟩
    rw [← Instr.row_eq_of_mnemonic_eq hname]
    exact (decode_ok_iff_matches_row.1 hd).1
  · intro hmatch
    exact ⟨j.withFieldsOf w, decode_of_matches_row hmatch, congrArg OpcodeRow.mnemonic (j.row_withFieldsOf w)⟩

/-- Settles O4: a word that decodes matches a row, has one of the thirteen opcodes, and as a DEC word has VLEN = 0; every other word is
issued as a fault entry. An ENC word has its reserved bits from bit 17 on, above VLEN. -/
theorem illegalWordFaultsWithBadCmd : Obligations.IllegalWordFaultsWithBadCmd := by
  intro w s
  refine ⟨fun hrows => issue_of_decode_ne_ok (fun i hd => ?_) s, fun hopc => issue_of_decode_ne_ok (fun i hd => ?_) s,
    fun hopc hvlen => issue_of_decode_ne_ok (fun i hd => ?_) s, fun henc => ?_⟩
  · exact hrows i.row (mem_opcodeTable_iff.2 ⟨i, rfl⟩) (decode_ok_iff_matches_row.1 hd).1
  · obtain ⟨hi, -⟩ := decode_ok_cases hd
    rw [← bits_opcode, hi] at hopc
    exact hopc i.opcode_mem
  · obtain ⟨hi, hread⟩ := decode_ok_cases hd
    obtain ⟨k, pb, rfl⟩ := Instr.eq_dec_of_opcode (hi.symm.trans ((bits_opcode w).trans hopc))
    obtain ⟨hreserved, -⟩ := hread
    rw [bits_eq] at hreserved
    omega
  · have hrow : (Instr.enc 0 0 0).row = ⟨"ENC", 0x41000000, 0xFFFE0000⟩ := by decide
    have hd := decode_of_matches_row (w := w) (i := .enc 0 0 0) (by rw [hrow]; exact henc)
    exact ⟨bits w 3 0, bits w 8 4, bits w 16 9, hd, bits_eq w 16 9⟩

/-- Settles O5: the decoder runs on each word. -/
theorem sampleWordsDecode : Obligations.SampleWordsDecode := by
  unfold Obligations.SampleWordsDecode
  decide

end Sys2Proof
end

section
/-! `resolve` over the descriptor words as numbers, and the trees it gives (rules R92 to R94, R150 to R152, R156). -/

namespace Sys2Proof.Machine

theorem sized_eq_some_iff {c c' : Coder} : sized c = some c' ↔ c'.blen ≤ 8192 ∧ c' = c := by
  constructor
  · intro h
    obtain ⟨rfl, hb⟩ := sized_some h
    exact ⟨hb, rfl⟩
  · rintro ⟨hb, rfl⟩
    exact if_pos hb

/-- What a word-legal header `w` makes of a descriptor (rule R151): the tree of its kind, over the entries and the handles below. -/
def HeaderReads (desc : Memory 32) (sub : Nat → Option Coder) (h : Nat) (w : Word) (c : Coder) : Prop :=
  (hdrKind w = 1 ∧ hdrBitsLegal w = true ∧ c = .bits (hdrD w) (cmodeOf (hdrCmode w))) ∨
  (hdrKind w = 2 ∧ hdrSplitLegal w = true ∧ ∃ es, c = .split es ∧ resolveEntries desc sub h (hdrNent w) 0 = some es) ∨
  (hdrKind w = 3 ∧ hdrVecLegal w = true ∧ hdrElem w < h ∧ ∃ e, sub (hdrElem w) = some e ∧ c = .vec e (hdrCount w))

/-- One level of `resolve`, said once: the tree of the header's kind, when it has at most 8192 bytes. -/
theorem resolveLevel_eq_some_iff {desc : Memory 32} {sub : Nat → Option Coder} {h : Nat} {c : Coder} :
    resolveLevel desc sub h = some c ↔ c.blen ≤ 8192 ∧ HeaderReads desc sub h (descWord desc h 0) c := by
  simp only [resolveLevel, HeaderReads]
  generalize descWord desc h 0 = w
  split
  case h_1 hk => simp [hk, sized_eq_some_iff, and_left_comm]
  case h_2 hk => cases resolveEntries desc sub h (hdrNent w) 0 <;> simp [hk, sized_eq_some_iff, and_left_comm]
  case h_3 hk => cases sub (hdrElem w) <;> simp [hk, sized_eq_some_iff, and_left_comm]
  case h_4 h1 h2 h3 => simp [show hdrKind w ≠ 1 from h1, show hdrKind w ≠ 2 from h2, show hdrKind w ≠ 3 from h3]

/-- An entry of a list is what its word says: the word-legal entry words, with the entry each gives (rules R93, R94). -/
theorem exists_entryReads_iff {sub : Nat → Option Coder} {h : Nat} {w : Word} {o : Option Entry} :
    (∃ e, o = some e ∧ EntryReads sub h w e) ↔
      w.toNat / 2 ^ 16 % 2 ^ 15 = 0 ∧
        ((w.toNat / 2 ^ 31 = 0 ∧ o = some (.raw (w.toNat % 2 ^ 16))) ∨
          (w.toNat / 2 ^ 31 = 1 ∧ w.toNat / 2 ^ 4 % 2 ^ 12 = 0 ∧ w.toNat % 16 < h ∧
            ∃ c, sub (w.toNat % 16) = some c ∧ o = some (.nested c))) := by
  constructor
  · rintro ⟨e, rfl, hreserved, ⟨hraw, rfl⟩ | ⟨hnested, hzero, hlt, c, hc, rfl⟩⟩
    · exact ⟨hreserved, .inl ⟨hraw, rfl⟩⟩
    · exact ⟨hreserved, .inr ⟨hnested, hzero, hlt, c, hc, rfl⟩⟩
  · rintro ⟨hreserved, ⟨hraw, rfl⟩ | ⟨hnested, hzero, hlt, c, hc, rfl⟩⟩
    · exact ⟨_, rfl, hreserved, .inl ⟨hraw, rfl⟩⟩
    · exact ⟨_, rfl, hreserved, .inr ⟨hnested, hzero, hlt, c, hc, rfl⟩⟩

/-- The header fields of rule R92 as numbers. -/
theorem hdrFields_eq (w : Word) :
    hdrKind w = w.toNat % 4 ∧ hdrD w = w.toNat / 2 ^ 4 % 32 ∧ hdrCmode w = w.toNat / 2 ^ 9 % 4 ∧
      hdrNent w = w.toNat / 2 ^ 12 % 16 ∧ hdrElem w = w.toNat / 2 ^ 16 % 16 ∧ hdrCount w = w.toNat / 2 ^ 24 % 256 := by
  simp [hdrKind, hdrD, hdrCmode, hdrNent, hdrElem, hdrCount, bits_eq]

/-- Settles O46: one level of `resolve` (`resolve_eq_level`, `resolveLevel_eq_some_iff`), with the header's tests and fields
(`hdrBitsLegal_iff`, `hdrFields_eq`) and the entry words (`resolveEntries_eq_some_iff`) as numbers. -/
theorem resolveUnfoldsOneDescriptor : Obligations.ResolveUnfoldsOneDescriptor := by
  intro desc h c w v
  obtain ⟨hkind, hd, hcmode, hnent, helem, hcount⟩ := hdrFields_eq (descWord desc h 0)
  have hw : (descWord desc h 0).toNat = w := rfl
  have hv : ∀ k, (descWord desc h (1 + (0 + k))).toNat = v k := fun k => by rw [Nat.zero_add]; rfl
  rw [resolve_eq_level, resolveLevel_eq_some_iff, HeaderReads, hdrBitsLegal_iff, hdrSplitLegal_iff, hdrVecLegal_iff, hkind, hd, hcmode,
    hnent, helem, hcount, hw]
  simp only [resolveEntries_eq_some_iff, exists_entryReads_iff, hv, cmodeOf]
  constructor
  · rintro ⟨hb, ⟨hk, ⟨hres, hD, hM, hN, hE, hC⟩, hc⟩ | ⟨hk, ⟨hres, hN, hD, hM, hE, hC⟩, htree⟩ |
      ⟨hk, ⟨hres, hD, hM, hN⟩, helem, hsub⟩⟩
    · exact ⟨hres, hb, .inl ⟨hk, hD, hM, hN, hE, hC, hc⟩⟩
    · exact ⟨hres, hb, .inr (.inl ⟨hk, hN, hD, hM, hE, hC, htree⟩)⟩
    · exact ⟨hres, hb, .inr (.inr ⟨hk, hD, hM, hN, helem, hsub⟩)⟩
  · rintro ⟨hres, hb, ⟨hk, hD, hM, hN, hE, hC, hc⟩ | ⟨hk, hN, hD, hM, hE, hC, htree⟩ | ⟨hk, hD, hM, hN, helem, hsub⟩⟩
    · exact ⟨hb, .inl ⟨hk, ⟨hres, hD, hM, hN, hE, hC⟩, hc⟩⟩
    · exact ⟨hb, .inr (.inl ⟨hk, ⟨hres, hN, hD, hM, hE, hC⟩, htree⟩)⟩
    · exact ⟨hb, .inr (.inr ⟨hk, ⟨hres, hD, hM, hN⟩, helem, hsub⟩)⟩

/-- Settles O47: every level of `resolve` gives a legal tree of at most 8192 bytes (`resolve_legal`), and a legal tree's raw bytes and
polynomials fill disjoint parts of its length (`Coder.sizes`). -/
theorem resolvedTreesAreLegal : Obligations.ResolvedTreesAreLegal := by
  intro desc h c hc
  obtain ⟨hlegal, hblen⟩ := resolve_legal hc
  have hsizes := c.sizes hlegal
  exact ⟨hlegal, hblen, by omega, by omega⟩

end Sys2Proof.Machine
end

section
/-! The two reductions as functions on integers: the forms of rules R110 and R111, and the laws of rule R116. -/

namespace Sys2Proof.Machine

/-- The truncating division of rule R110, its remainder moved up by m where it is negative. -/
theorem mod_eq_tmod {m : Int} (hm : 1 ≤ m) (a : Int) : mod a m = if a.tmod m < 0 then a.tmod m + m else a.tmod m := by
  have hlow := Int.lt_tmod_of_pos a (b := m) (by omega)
  have hhigh := Int.tmod_lt_of_pos a (b := m) (by omega)
  have hdvd : m ∣ a - a.tmod m := Int.dvd_self_sub_tmod
  split
  · refine (mod_unique (by omega) (by omega) ?_).symm
    rw [← sub_sub]
    exact dvd_sub hdvd dvd_rfl
  · exact (mod_unique (by omega) hhigh hdvd).symm

theorem mod_eq_sub_mul_fdiv {m : Int} (hm : 1 ≤ m) (a : Int) : mod a m = a - m * a.fdiv m := by
  rw [Int.fdiv_eq_ediv_of_nonneg a (by omega)]
  exact Int.emod_def a m

theorem mod_eq_self_iff {m : Int} (hm : 1 ≤ m) (a : Int) : mod a m = a ↔ 0 ≤ a ∧ a < m := by
  constructor
  · intro h
    rw [← h]
    exact ⟨mod_nonneg hm a, mod_lt hm a⟩
  · rintro ⟨h0, h1⟩
    exact mod_of_range h0 h1

theorem mod_add_mul (a k m : Int) : mod (a + k * m) m = mod a m :=
  (mod_eq_mod_iff _ _ _).2 (by simp)

theorem mod_neg {m : Int} (hm : 1 ≤ m) (a : Int) : mod (-a) m = if mod a m = 0 then 0 else m - mod a m := by
  have h0 := mod_nonneg hm a
  have h1 := mod_lt hm a
  have hdvd : m ∣ -(a - mod a m) := (dvd_neg).2 (dvd_sub_mod a m)
  split
  · rename_i hz
    exact (mod_unique le_rfl (by omega) (by simpa [hz] using hdvd)).symm
  · refine (mod_unique (by omega) (by omega) ?_).symm
    rw [show -a - (m - mod a m) = -(a - mod a m) - m by ring]
    exact dvd_sub hdvd dvd_rfl

theorem smod_eq_self_iff {m : Int} (hm : 1 ≤ m) (a : Int) : smod a m = a ↔ -m < 2 * a ∧ 2 * a ≤ m := by
  constructor
  · intro h
    rw [← h]
    exact smod_bounds hm a
  · rintro ⟨h0, h1⟩
    exact (smod_unique h0 h1 (by simp)).symm

theorem mod_smod (a m : Int) : mod (smod a m) m = mod a m :=
  ((mod_eq_mod_iff a (smod a m) m).2 (dvd_sub_smod a m)).symm

/-- `smod` is a function of the residue alone. -/
theorem smod_mod (a m : Int) : smod (mod a m) m = smod a m := by
  unfold smod
  rw [mod_mod]

/-- Settles O27, by the uniqueness of the residue in [0, m) (`mod_unique`): both divisions give one. -/
theorem modIsTheCanonicalResidue : Obligations.ModIsTheCanonicalResidue := by
  intro a m hm
  exact ⟨mod_nonneg hm a, mod_lt hm a, dvd_sub_mod a m, fun r h0 h1 h => mod_unique h0 h1 h, mod_eq_tmod hm a, mod_eq_sub_mul_fdiv hm a⟩

/-- Settles O28: the bounds 2 · smod in (−m, m] are, for odd and for even m, those of the statement in whole numbers, and leave 0 alone
for m = 1. -/
theorem smodIsTheCenteredResidue : Obligations.SmodIsTheCenteredResidue := by
  intro a m hm
  obtain ⟨hlow, hhigh⟩ := smod_bounds hm a
  refine ⟨rfl, ?_, ?_, fun hodd => ⟨?_, ?_⟩, fun heven => ⟨?_, ?_⟩, dvd_sub_smod a m, hlow, hhigh, fun r h0 h1 h => smod_unique h0 h1 h⟩
  · rw [Int.fdiv_eq_ediv_of_nonneg m (by decide)]
    omega
  · have hone := smod_bounds le_rfl a
    omega
  all_goals omega

/-- Settles O29: one lemma for each law. -/
theorem reductionLaws : Obligations.ReductionLaws := by
  intro a b k m hm
  exact ⟨mod_eq_self_iff hm a, mod_add_mul a k m, mod_add_mod a b m, mod_sub_mod a b m, mod_mul_mod a b m, mod_neg hm a,
    smod_eq_self_iff hm a, mod_smod a m, smod_mod a m⟩

end Sys2Proof.Machine
end

section
/-! The commands MOD, MOD.M, SMOD, SMOD.M: the value each leaves in RES (rules R112 to R115), and the words of their rows with a reserved
bit set. -/

namespace Sys2Proof.Machine

/-- A command without fields decodes from one word of its opcode; any other has a reserved bit set and is BAD_CMD (rules R80, R82). -/
theorem issue_of_reservedBit {i : Instr} (hi : i.fieldBits = 0) {w : Word} (hopc : w.toNat / 2 ^ 24 = i.opcode) (hw : w ≠ encode i)
    (s : State) : issue w s = .next (afterFault s 4 w) := by
  refine issue_of_decode_ne_ok (fun j hd => hw ?_) s
  have hformat : decodeAs i.opcode w = formatZ w i := by
    cases i with
    | nttFwd | nttInv | clen | enc | dec => cases hi
    | _ => rfl
  have hj : i = j := by
    rw [decode, bits_opcode, hopc, hformat, formatZ] at hd
    split at hd <;> cases hd
    rfl
  rw [hj, encode_of_decode hd]

/-- A command whose rule writes to RES a value of 64 signed bits completes with that value there, and writes nothing else (rules R38,
R225). -/
theorem exec_setRes {i : Instr} {s : State} {v : Int} (h : resultOf i s = .ok (s.setRes v)) (hv : FitsS 63 v) :
    ∃ r : Long, exec i s = .next (afterSuccess { s with res := r }) ∧ r.toInt = v :=
  ⟨BitVec.ofInt 64 v, exec_of_ok h, toInt_ofInt_64 (by omega) (by omega)⟩

section
variable {i : Instr} {s : State} {m : Int} (h1 : 1 ≤ m) (hm : FitsS 63 m)
include h1 hm

/-- A command whose rule writes mod(x[0], m) to RES leaves there the residue of x[0] in [0, m). -/
theorem exec_setRes_mod (h : resultOf i s = .ok (s.setRes (mod s.x0.toInt m))) :
    ∃ r : Long, exec i s = .next (afterSuccess { s with res := r }) ∧ 0 ≤ r.toInt ∧ r.toInt < m ∧ m ∣ s.x0.toInt - r.toInt := by
  have hlow := mod_nonneg h1 s.x0.toInt
  have hhigh := mod_lt h1 s.x0.toInt
  obtain ⟨r, he, hr⟩ := exec_setRes h (by omega)
  rw [← hr] at hlow hhigh
  exact ⟨r, he, hlow, hhigh, hr ▸ dvd_sub_mod s.x0.toInt m⟩

/-- A command whose rule writes smod(x[0], m) to RES leaves there the residue of x[0] in (−m/2, m/2]. -/
theorem exec_setRes_smod (h : resultOf i s = .ok (s.setRes (smod s.x0.toInt m))) :
    ∃ r : Long, exec i s = .next (afterSuccess { s with res := r }) ∧
      -m < 2 * r.toInt ∧ 2 * r.toInt ≤ m ∧ m ∣ s.x0.toInt - r.toInt := by
  obtain ⟨hlow, hhigh⟩ := smod_bounds h1 s.x0.toInt
  obtain ⟨r, he, hr⟩ := exec_setRes h (by omega)
  rw [← hr] at hlow hhigh
  exact ⟨r, he, hlow, hhigh, hr ▸ dvd_sub_smod s.x0.toInt m⟩

end

/-- A legal Q is a modulus of at least 1 within 64 signed bits (rules R22, R38). -/
theorem QLegal.modulus_fits {s : State} (hq : QLegal s) : 1 ≤ s.modulus ∧ FitsS 63 s.modulus := by
  obtain ⟨h0, h1⟩ := hq
  simp only [State.modulus, uval]
  omega

/-- Settles O30: with a legal Q the rule writes mod(x[0], Q), with any other it is BAD_PARAM. -/
theorem modReducesByQ : Obligations.ModReducesByQ := by
  intro s
  refine ⟨fun hq => ?_, fun hq => exec_of_error (resultOf_of_not_qLegal hq (by decide)), by decide,
    fun w hopc hw => issue_of_reservedBit (i := .mod) rfl hopc hw s⟩
  obtain ⟨h1, hm⟩ := QLegal.modulus_fits hq
  exact exec_setRes_mod h1 hm (if_pos hq)

/-- Settles O31: x[1] is a modulus of at least 1, or the rule is BAD_PARAM. -/
theorem modMReducesByX1 : Obligations.ModMReducesByX1 := by
  intro s
  refine ⟨fun hpos => ?_, fun hneg => exec_of_error (c := .badParam) (if_pos hneg), by decide,
    fun w hopc hw => issue_of_reservedBit (i := .modM) rfl hopc hw s⟩
  exact exec_setRes_mod hpos (toInt_bounds_64 s.x1) (if_neg (by omega))

/-- Settles O32: with a legal Q the rule writes smod(x[0], Q), with any other it is BAD_PARAM. -/
theorem smodCentersByQ : Obligations.SmodCentersByQ := by
  intro s
  refine ⟨fun hq => ?_, fun hq => exec_of_error (resultOf_of_not_qLegal hq (by decide)), by decide,
    fun w hopc hw => issue_of_reservedBit (i := .smod) rfl hopc hw s⟩
  obtain ⟨h1, hm⟩ := QLegal.modulus_fits hq
  exact exec_setRes_smod h1 hm (if_pos hq)

/-- Settles O33: x[1] is a modulus of at least 1, or the rule is BAD_PARAM. -/
theorem smodMCentersByX1 : Obligations.SmodMCentersByX1 := by
  intro s
  refine ⟨fun hpos => ?_, fun hneg => exec_of_error (c := .badParam) (if_pos hneg), by decide,
    fun w hopc hw => issue_of_reservedBit (i := .smodM) rfl hopc hw s⟩
  exact exec_setRes_smod hpos (toInt_bounds_64 s.x1) (if_neg (by omega))

end Sys2Proof.Machine
end

section
/-! The zeta table: bit reversal as the sum of rule R120, and what ZGEN completes and faults with (rules R121 to R124). -/

namespace Sys2Proof.Machine

theorem bitOf_eq_testBit (i k : Nat) : bitOf i k = if i.testBit k then 1 else 0 := by
  rw [bitOf, Nat.testBit_eq_decide_div_mod_eq]
  rcases Nat.mod_two_eq_zero_or_one (i / 2 ^ k) with h | h <;> simp [h]

/-- Rule R120, with the bits of i read by `Nat.testBit`. -/
theorem bitrev_eq_sum_testBit (i w : Nat) :
    bitrev i w = ((List.range w).map fun k => (if i.testBit k then 1 else 0) * 2 ^ (w - 1 - k)).sum := by
  simp only [bitrev, bitOf_eq_testBit]

@[simp] theorem bitrev_zero_left (w : Nat) : bitrev 0 w = 0 := by
  induction w with
  | zero => rfl
  | succ w ih => rw [bitrev_succ, Nat.zero_div, ih, Nat.zero_mod, Nat.zero_mul]

theorem bitrev_one_succ (w : Nat) : bitrev 1 (w + 1) = 2 ^ w := by
  rw [bitrev_succ, show 1 / 2 = 0 from rfl, bitrev_zero_left, Nat.one_mod, Nat.one_mul, Nat.add_zero]

theorem bitrev_ones (w : Nat) : bitrev (2 ^ w - 1) w = 2 ^ w - 1 := by
  induction w with
  | zero => rfl
  | succ w ih =>
    have hpos : 0 < 2 ^ w := Nat.two_pow_pos w
    rw [bitrev_succ, show (2 ^ (w + 1) - 1) / 2 = 2 ^ w - 1 by omega, ih, show (2 ^ (w + 1) - 1) % 2 = 1 by omega]
    omega

/-- Settles O34: the corner values by recursion on w (`bitrev_succ`), the rest by the laws of `bitrev`. -/
theorem bitrevIsTheStandardReversal : Obligations.BitrevIsTheStandardReversal := by
  intro i w hw
  obtain ⟨v, rfl⟩ : ∃ v, w = v + 1 := ⟨w - 1, by omega⟩
  exact ⟨bitrev_eq_sum_testBit i _, bitrev_zero_left _, bitrev_one_succ v, bitrev_ones _, bitrev_lt i _,
    fun k hk => testBit_bitrev i _ k hk, bitrev_bitrev i _, (bitrev_mod i _).symm⟩

/-- ZGEN on a legal Q and BRV passes both checks of rule R122; its rule then gives a state with its own writes. -/
theorem zgenResult_ok_of_legal {s : State} (hq : QLegal s) (hb : BrvLegal s) :
    zgenResult s =
      .ok ((s.setZeta (Memory.writeRange s.zeta 0 (zetaTable s.root.toNat s.brv.toNat s.modulus))).setZvalid true) := by
  rw [zgenResult, if_pos hq, if_pos hb]

theorem zgenResult_error_of_not_legal {s : State} (h : ¬ (QLegal s ∧ BrvLegal s)) : zgenResult s = .error .badParam := by
  by_cases hq : QLegal s
  · rw [zgenResult, if_pos hq, if_neg fun hb => h ⟨hq, hb⟩]
  · exact resultOf_of_not_qLegal (i := .zgen) hq (by decide)

/-- Settles O35: past both checks the rule writes the table (`zgen_read`) and ZVALID; short of one it is BAD_PARAM. -/
theorem zgenBuildsTheTable : Obligations.ZgenBuildsTheTable := by
  intro s
  exact ⟨fun hq hb => ⟨_, exec_of_ok (i := .zgen) (zgenResult_ok_of_legal hq hb), fun i hi => zgen_read hq _ _ _ hi⟩,
    fun h => exec_of_error (i := .zgen) (zgenResult_error_of_not_legal h), by decide,
    fun w hopc hw => issue_of_reservedBit (i := .zgen) rfl hopc hw s⟩

/-- ZGEN that ends with ERR = 0 has completed, and ZETA then holds the table of rule R122. -/
theorem zeta_of_exec_zgen {s t : State} (h : exec .zgen s = .next t) (herr : t.err = 0) :
    QLegal s ∧ BrvLegal s ∧
      ∀ i, i < 256 → uval (Memory.read t.zeta i) = zetaValue s.root.toNat s.brv.toNat s.modulus i := by
  rcases exec_next_cases h with ⟨u, hu, rfl⟩ | ⟨c, -, rfl⟩
  · obtain ⟨hq, hb, rfl⟩ := zgenResult_ok hu
    exact ⟨hq, hb, fun i hi => zgen_read hq _ _ _ hi⟩
  · exact absurd herr c.code_ne_zero

/-- The table repeats with period 2^BRV (rules R121, R124). -/
theorem zetaValue_mod (root w : Nat) (q : Int) (i : Nat) : zetaValue root w q (i % 2 ^ w) = zetaValue root w q i := by
  rw [zetaValue, bitrev_mod, zetaValue]

/-- The exponents of the two entries add to 2^w (`bitrev_pair`), so their product is ROOT^(2^w), which is −1 modulo Q (rule R124). -/
theorem zetaValue_pair {root w e j : Nat} {q : Int} (hroot : ((root ^ 2 ^ w + 1 : Nat) : Int) % q = 0) (he : e < w)
    (hj : j < 2 ^ e) : (zetaValue root w q (2 ^ e + j) * zetaValue root w q (2 * 2 ^ e - 1 - j) + 1) % q = 0 := by
  have hprod : mod (zetaValue root w q (2 ^ e + j) * zetaValue root w q (2 * 2 ^ e - 1 - j)) q = mod ((root ^ 2 ^ w : Nat) : Int) q := by
    rw [zetaValue, zetaValue, mod_mul_mod, ← Int.natCast_mul, ← pow_add, bitrev_pair he hj]
  calc (zetaValue root w q (2 ^ e + j) * zetaValue root w q (2 * 2 ^ e - 1 - j) + 1) % q
      = mod (mod ((root ^ 2 ^ w : Nat) : Int) q + 1) q := by rw [← hprod, mod_add_left, mod]
    _ = ((root ^ 2 ^ w + 1 : Nat) : Int) % q := by rw [mod_add_left, mod, Int.natCast_add, Int.natCast_one]
    _ = 0 := hroot

/-- Settles O36: each element is a `zetaValue` (`zeta_of_exec_zgen`), a residue in [0, Q) with period 2^BRV (`zetaValue_mod`) and the
pairing of `zetaValue_pair`. -/
theorem zgenTableProperties : Obligations.ZgenTableProperties := by
  intro s t h herr
  obtain ⟨hq, hb, hz⟩ := zeta_of_exec_zgen h herr
  refine ⟨fun i hi => ?_, fun hbrv j hj => word_eq_of_toNat (Int.natCast_inj.1 ?_), fun hroot e he j hj => ?_⟩
  · rw [hz i hi]
    exact mod_lt hq.modulus_fits.1 _
  · calc uval (Memory.read t.zeta (128 + j))
        = zetaValue s.root.toNat s.brv.toNat s.modulus (128 + j) := hz _ (by omega)
      _ = zetaValue s.root.toNat s.brv.toNat s.modulus j := by
          rw [← zetaValue_mod, hbrv, show (128 + j) % 2 ^ 7 = j by omega]
      _ = uval (Memory.read t.zeta j) := (hz _ (by omega)).symm
  · have hpow : 2 ^ (e + 1) ≤ 2 ^ 8 := Nat.pow_le_pow_right (by decide) (by omega)
    rw [hz _ (by omega), hz _ (by omega)]
    exact zetaValue_pair hroot he hj

end Sys2Proof.Machine
end

section
/-! The transforms as commands: what NTT.FWD and NTT.INV leave in a bank, said once for both, and the statements that follow from it
(rules R130 to R142). -/

namespace Sys2Proof.Machine

/-! ### A bank as its coefficients -/

theorem readBank_getD (s : State) (b : Nat) {j : Nat} (hj : j < 256) : (readBank s.poly b).getD j 0 = coef s b j := by
  rw [List.getD_eq_getElem _ _ (by rwa [readBank_length]), readBank_getElem, coef]

theorem readBank_eq_map_coef (s : State) (b : Nat) : readBank s.poly b = (List.range 256).map (coef s b) := by
  refine List.ext_getElem (by simp) fun j hj _ => ?_
  rw [readBank_getElem, List.getElem_map, List.getElem_range, coef]

/-! ### Both transforms at once -/

/-- What the rule of a transform makes of the working copy `r` of its bank (rules R131, R133). The other commands have none. -/
def transformBy (i : Instr) (s : State) (r : List Int) : List Int :=
  match i with
  | .nttFwd _ => nttFwd s.modulus (zetaAt s.zeta) s.inc r
  | .nttInv _ => nttInv s.modulus (uval s.f) (zetaAt s.zeta) s.inc r
  | _ => r

/-- A transform reads the registers Q, F, CTRL.INC and the memory ZETA beside its bank (rule R130). -/
theorem transformBy_congr (i : Instr) {s t : State} (hq : t.q = s.q) (hf : t.f = s.f) (hz : t.zeta = s.zeta) (hinc : t.inc = s.inc) :
    transformBy i t = transformBy i s := by
  funext r
  unfold transformBy State.modulus
  rw [hq, hf, hz, hinc]

section
variable {i : Instr} {s t : State} {pb : Nat} (hi : i = .nttFwd pb ∨ i = .nttInv pb)
include hi

theorem transformBy_length {r : List Int} (h : r.length = 256) : (transformBy i s r).length = 256 := by
  rcases hi with rfl | rfl
  · exact nttFwd_length _ _ _ h
  · exact nttInv_length _ _ _ _ h

/-- With a legal Q every coefficient a transform gives is in [0, Q) (rules R131, R134). -/
theorem transformBy_range (hq : ModulusLegal s) {r : List Int} (h : r.length = 256) :
    ∀ x ∈ transformBy i s r, 0 ≤ x ∧ x < s.modulus := by
  obtain ⟨h1, -⟩ := QLegal.modulus_fits hq
  rcases hi with rfl | rfl
  · exact nttFwd_range h1 _ _ h
  · exact nttInv_range h1 _ _ _ r

/-- A transform sees the residues of its bank only (rules R131, R133). -/
theorem transformBy_residues {r : List Int} (h : r.length = 256) : transformBy i s (scale s.modulus 1 r) = transformBy i s r := by
  rcases hi with rfl | rfl
  · exact nttFwd_residues _ _ _ h
  · exact nttInv_residues _ _ _ _ h

/-- With ZVALID = 1 a transform completes, and its own write is that of its bank. -/
theorem exec_transform (hv : s.zvalid = true) :
    exec i s = .next (afterSuccess { s with poly := writeBank s.poly pb (transformBy i s (readBank s.poly pb)) }) := by
  rcases hi with rfl | rfl
  · exact exec_of_ok (i := .nttFwd pb) (if_pos hv)
  · exact exec_of_ok (i := .nttInv pb) (if_pos hv)

theorem eq_of_exec_transform (hv : s.zvalid = true) (h : exec i s = .next t) :
    t = afterSuccess { s with poly := writeBank s.poly pb (transformBy i s (readBank s.poly pb)) } := by
  rw [exec_transform hi hv] at h
  injection h with h
  exact h.symm

/-- The bank after a transform holds the transformed coefficients themselves: they fit (rule R38). -/
theorem readBank_of_exec_transform (hv : s.zvalid = true) (hq : ModulusLegal s) (h : exec i s = .next t) :
    readBank t.poly pb = transformBy i s (readBank s.poly pb) := by
  obtain rfl := eq_of_exec_transform hi hv h
  have hbank := readBank_length s.poly pb
  refine readBank_writeBank_same _ _ (transformBy_length hi hbank) fun x hx => ?_
  have hx' := transformBy_range hi hq hbank x hx
  have hmax := hq.2
  simp only [State.modulus, uval] at hx'
  omega

theorem coef_of_exec_transform (hv : s.zvalid = true) (hq : ModulusLegal s) (h : exec i s = .next t) {j : Nat} (hj : j < 256) :
    coef t pb j = (transformBy i s (readBank s.poly pb)).getD j 0 := by
  rw [← readBank_getD t pb hj, readBank_of_exec_transform hi hv hq h]

theorem coef_range_of_exec_transform (hv : s.zvalid = true) (hq : ModulusLegal s) (h : exec i s = .next t) {j : Nat} (hj : j < 256) :
    0 ≤ coef t pb j ∧ coef t pb j < s.q.toNat := by
  have hlen := transformBy_length (s := s) hi (readBank_length s.poly pb)
  rw [coef_of_exec_transform hi hv hq h hj, List.getD_eq_getElem _ _ (by omega)]
  exact transformBy_range hi hq (readBank_length s.poly pb) _ (List.getElem_mem _)

/-- The residue of a transformed coefficient determines it. -/
theorem coef_eq_mod_of_dvd (hv : s.zvalid = true) (hq : ModulusLegal s) (h : exec i s = .next t) {j : Nat} (hj : j < 256) {v : Int}
    (hdvd : s.modulus ∣ (transformBy i s (readBank s.poly pb)).getD j 0 - v) : coef t pb j = mod v s.q.toNat := by
  obtain ⟨h0, h1⟩ := coef_range_of_exec_transform hi hv hq h hj
  rw [← coef_of_exec_transform hi hv hq h hj] at hdvd
  exact mod_unique h0 h1 (dvd_sub_comm.1 hdvd)

end

/-- Settles O37: `exec_transform` is the completion and the frame of the state, a bank's write leaves the rest of POLY, and the coefficients
are in range by `coef_range_of_exec_transform`. -/
theorem transformsCompleteOnOneBank : Obligations.TransformsCompleteOnOneBank := by
  intro s pb i _ hi hv hq
  have hlen := transformBy_length (s := s) hi (readBank_length s.poly pb)
  have hexec := exec_transform hi hv
  exact ⟨_, hexec, fun a ha => read_writeBank_outside _ _ hlen ha, fun j hj => coef_range_of_exec_transform hi hv hq hexec hj⟩

/-- Settles O38: without a table the rule of either transform is NOT_READY. -/
theorem transformsWithoutTableAreNotReady : Obligations.TransformsWithoutTableAreNotReady := by
  intro s pb _ hv
  have hn : ¬ s.zvalid = true := by rw [hv]; decide
  exact ⟨exec_of_error (i := .nttFwd pb) (c := .notReady) (if_neg hn), exec_of_error (i := .nttInv pb) (c := .notReady) (if_neg hn)⟩

/-- Settles O39, by `nttFwd_eq_loop`. -/
theorem forwardTransformIsTheInPlaceLoop : Obligations.ForwardTransformIsTheInPlaceLoop := by
  intro s t pb _ hv hq h j hj
  rw [coef_of_exec_transform (.inl rfl) hv hq h hj, ← readBank_eq_map_coef]
  exact congrArg (·.getD j 0) (nttFwd_eq_loop s.modulus (zetaAt s.zeta) s.inc (readBank_length s.poly pb))

/-- Settles O40: the layers are the loop (`invLayers_eq_loopInv`), and the pass by F goes over each coefficient of what they give. -/
theorem inverseTransformIsTheInPlaceLoop : Obligations.InverseTransformIsTheInPlaceLoop := by
  intro s t pb _ hv hq h j hj
  have hbank := readBank_length s.poly pb
  have hlen := invLayers_length s.modulus (zetaAt s.zeta) (widthsOk_reverse (widthsOk_layerWidths s.inc)) (invStart s.inc) hbank
  rw [coef_of_exec_transform (.inr rfl) hv hq h hj, ← readBank_eq_map_coef, transformBy, nttInv,
    List.getD_eq_getElem _ _ (by rw [List.length_map]; omega), List.getElem_map, ← List.getD_eq_getElem _ 0,
    invLayers_eq_loopInv _ _ _ hbank]
  rfl

/-! ### Round trip -/

/-- Two transforms of one bank that undo each other on its working copy undo each other as commands. -/
theorem roundTrip_of_transformBy {i i' : Instr} {s : State} {pb : Nat} (hi : i = .nttFwd pb ∨ i = .nttInv pb)
    (hi' : i' = .nttFwd pb ∨ i' = .nttInv pb) (hv : s.zvalid = true) (hq : ModulusLegal s)
    (hround : transformBy i' s (transformBy i s (readBank s.poly pb)) = (readBank s.poly pb).map fun x => mod x s.modulus) :
    ∃ t u, exec i s = .next t ∧ exec i' t = .next u ∧
      (∀ j, j < 256 → coef u pb j = mod (coef s pb j) s.q.toNat) ∧
      ((∀ j, j < 256 → coef u pb j = coef s pb j) ↔ ∀ j, j < 256 → 0 ≤ coef s pb j ∧ coef s pb j < s.q.toNat) := by
  obtain ⟨t, ht⟩ : ∃ t, exec i s = .next t := ⟨_, exec_transform hi hv⟩
  have hts := eq_of_exec_transform hi hv ht
  have hvt : t.zvalid = true := by rw [hts]; exact hv
  have hqt : ModulusLegal t := by rw [hts]; exact hq
  have hby : transformBy i' t = transformBy i' s :=
    transformBy_congr i' (by rw [hts]; rfl) (by rw [hts]; rfl) (by rw [hts]; rfl) (by rw [hts]; rfl)
  obtain ⟨u, hu⟩ : ∃ u, exec i' t = .next u := ⟨_, exec_transform hi' hvt⟩
  have hcoef : ∀ j, j < 256 → coef u pb j = mod (coef s pb j) s.q.toNat := by
    intro j hj
    have hj' : j < (readBank s.poly pb).length := by rwa [readBank_length]
    rw [coef_of_exec_transform hi' hvt hqt hu hj, hby, readBank_of_exec_transform hi hv hq ht, hround,
      List.getD_eq_getElem _ _ (by rwa [List.length_map]), List.getElem_map, ← List.getD_eq_getElem _ 0 hj', readBank_getD s pb hj]
  refine ⟨t, u, ht, hu, hcoef, forall₂_congr fun j hj => ?_⟩
  rw [hcoef j hj]
  exact mod_eq_self_iff (QLegal.modulus_fits hq).1 _

/-- Settles O41: the conditions of rule R138 are those of `nttInv_nttFwd` and `nttFwd_nttInv`. -/
theorem transformsUndoEachOther : Obligations.TransformsUndoEachOther := by
  intro s pb _ hv hq hpairs hscale
  have hbank := readBank_length s.poly pb
  have hp : PairsFrom s.modulus (zetaAt s.zeta) (layerWidths s.inc) 1 := pairsFrom_layerWidths s.inc hpairs
  have hf : mod (uval s.f * 2 ^ (layerWidths s.inc).length - 1) s.modulus = 0 := by rw [layerWidths_length]; exact hscale
  exact ⟨roundTrip_of_transformBy (.inl rfl) (.inr rfl) hv hq (nttInv_nttFwd hp hf hbank),
    roundTrip_of_transformBy (.inr rfl) (.inl rfl) hv hq (nttFwd_nttInv hp hf hbank)⟩

/-! ### Evaluation -/

/-- Settles O42: `nttFwd_complete_eval` and `nttFwd_incomplete_eval` give the residue, which determines the
coefficient (`coef_eq_mod_of_dvd`). -/
theorem forwardTransformEvaluatesThePolynomial : Obligations.ForwardTransformEvaluatesThePolynomial := by
  intro s t pb _ hv htable hroot h
  obtain ⟨hq, -, hzeta⟩ := htable hv
  have hbank := readBank_length s.poly pb
  have hr : s.modulus ∣ (s.root.toNat : Int) ^ 2 ^ s.brv.toNat + 1 := by
    simpa only [Nat.cast_add, Nat.cast_pow, Nat.cast_one] using Int.dvd_of_emod_eq_zero hroot
  have hz : ∀ k, k < 256 → s.modulus ∣ zetaAt s.zeta k - (s.root.toNat : Int) ^ bitrev k s.brv.toNat := by
    intro k hk
    rw [zetaAt, hzeta k hk, Nat.cast_pow]
    exact dvd_sub_comm.1 (dvd_sub_mod _ _)
  constructor
  · intro hinc hbrv i hi
    rw [hbrv] at hr hz
    refine coef_eq_mod_of_dvd (.inl rfl) hv hq h hi ?_
    rw [transformBy, hinc]
    convert nttFwd_complete_eval hr hz hbank hi using 3 with j hj
    rw [pow_mul, readBank_getD s pb (Finset.mem_range.1 hj)]
  · intro hinc hbrv i hi c hc
    rw [hbrv] at hr hz
    refine coef_eq_mod_of_dvd (.inl rfl) hv hq h (by omega) ?_
    rw [transformBy, hinc]
    convert nttFwd_incomplete_eval hr hz hbank hi hc using 3 with j hj
    have hj' := Finset.mem_range.1 hj
    rw [pow_mul, readBank_getD s pb (by omega)]

/-! ### What the transforms depend on -/

/-- Settles O43: banks with the same residues reduce to one working copy. -/
theorem transformsDependOnlyOnResidues : Obligations.TransformsDependOnlyOnResidues := by
  rintro s s' t t' pb i _ hi hv hq ⟨p, rfl⟩ hres ht ht' j hj
  have hscale : scale s.modulus 1 (readBank s.poly pb) = scale s.modulus 1 (readBank p pb) := by
    rw [readBank_eq_map_coef s, readBank_eq_map_coef { s with poly := p }, scale, scale, List.map_map, List.map_map]
    refine List.map_congr_left fun k hk => ?_
    simpa using hres k (List.mem_range.1 hk)
  have hby : transformBy i { s with poly := p } = transformBy i s := transformBy_congr i rfl rfl rfl rfl
  rw [coef_of_exec_transform hi hv hq ht hj, coef_of_exec_transform (s := { s with poly := p }) hi hv hq ht' hj, hby,
    ← transformBy_residues hi (readBank_length s.poly pb), hscale, transformBy_residues hi (readBank_length p pb)]

theorem totalBlocks_layerWidths (inc : Bool) : 1 + totalBlocks (layerWidths inc) = if inc then 128 else 256 := by cases inc <;> rfl

/-- The zetas a transform reads are those of the indices 1 to 255, with INC = 1 those up to 127 (rules R132, R135). -/
theorem transformBy_zeta_congr {i : Instr} {pb : Nat} (hi : i = .nttFwd pb ∨ i = .nttInv pb) {s : State} {z : Memory 32}
    (hz : ∀ k, 1 ≤ k → k < (if s.inc then 128 else 256) → Memory.read z k = Memory.read s.zeta k) (r : List Int) :
    transformBy i { s with zeta := z } r = transformBy i s r := by
  rw [← totalBlocks_layerWidths] at hz
  have hzeta : ∀ k, 1 ≤ k → k < 1 + totalBlocks (layerWidths s.inc) → zetaAt z k = zetaAt s.zeta k :=
    fun k h1 h2 => congrArg uval (hz k h1 h2)
  rcases hi with rfl | rfl
  · exact fwdLayers_congr hzeta r
  · have hblocks : totalBlocks (layerWidths s.inc).reverse = invStart s.inc := by rw [totalBlocks_reverse, invStart_eq]; omega
    rw [← totalBlocks_reverse, hblocks] at hzeta
    exact congrArg (List.map _) (invLayers_congr hblocks.le (fun k h1 h2 => hzeta k (by omega) (by omega)) r)

/-- Settles O44: the same result on the other table, by `transformBy_zeta_congr`. -/
theorem transformsReadOnlyTheirZetas : Obligations.TransformsReadOnlyTheirZetas := by
  intro s t pb z hv hz
  have hboth : ∀ i : Instr, i = .nttFwd pb ∨ i = .nttInv pb → exec i s = .next t →
      exec i { s with zeta := z } = .next { t with zeta := z } := by
    intro i hi h
    obtain rfl := eq_of_exec_transform hi hv h
    rw [exec_transform (s := { s with zeta := z }) hi hv, transformBy_zeta_congr hi hz]
    rfl
  exact ⟨hboth _ (.inl rfl), hboth _ (.inr rfl)⟩

/-! ### Constant banks -/

/-- A working copy that holds c at every multiple of d and 0 elsewhere: what the forward layers make of a constant polynomial
(rule R140). -/
def ConstantAt (d : Nat) (c : Int) (r : List Int) : Prop :=
  r.length = 256 ∧ ∀ j, j < 256 → r.getD j 0 = if j % d = 0 then c else 0

/-- In each block of a forward layer the first coefficient is copied to the middle, its partner being 0, and the others stay 0. -/
theorem ConstantAt.fwdLayer_pair {q c : Int} (hc : mod c q = c) (z : Nat → Int) {len : Nat} (hw : blocksOf len * (2 * len) = 256)
    (k : Nat) {r : List Int} (h : ConstantAt (2 * len) c r) {s o : Nat} (hs : s < blocksOf len) (ho : o < len) :
    (fwdLayer q z len (blocksOf len) k r).getD (2 * len * s + o) 0 = (if o = 0 then c else 0) ∧
    (fwdLayer q z len (blocksOf len) k r).getD (2 * len * s + len + o) 0 = (if o = 0 then c else 0) := by
  obtain ⟨hlen, hr⟩ := h
  have hend : 2 * len * s + 2 * len ≤ 256 := by
    rw [← hw, Nat.mul_comm (blocksOf len)]
    exact Nat.mul_le_mul_left (2 * len) hs
  have hlow : r.getD (2 * len * s + o) 0 = if o = 0 then c else 0 := by
    rw [hr _ (by omega), Nat.mul_add_mod, Nat.mod_eq_of_lt (by omega)]
  have hhigh : r.getD (2 * len * s + len + o) 0 = 0 := by
    rw [hr _ (by omega), Nat.add_assoc, Nat.mul_add_mod, Nat.mod_eq_of_lt (by omega), if_neg (by omega)]
  have hkeep : mod (if o = 0 then c else 0) q = if o = 0 then c else 0 := by
    split
    · exact hc
    · exact mod_zero q
  obtain ⟨h1, h2⟩ := fwdLayer_getD q z len (blocksOf len) k (hlen.trans hw.symm) hs ho
  rw [hlow, hhigh, Int.mul_zero, mod_zero] at h1 h2
  rw [Int.add_zero, hkeep] at h1
  rw [Int.sub_zero, hkeep] at h2
  exact ⟨h1, h2⟩

/-- A forward layer halves the distance of the copies. -/
theorem ConstantAt.fwdLayer {q c : Int} (hc : mod c q = c) (z : Nat → Int) {len : Nat} (hw : blocksOf len * (2 * len) = 256) (k : Nat)
    {r : List Int} (h : ConstantAt (2 * len) c r) : ConstantAt len c (fwdLayer q z len (blocksOf len) k r) := by
  refine ⟨(fwdLayer_length q z len _ k (h.1.trans hw.symm)).trans h.1, fun j hj => ?_⟩
  have hpos : 0 < len := Nat.pos_of_ne_zero fun h0 => by simp [h0] at hw
  have hs : j / (2 * len) < blocksOf len := (Nat.div_lt_iff_lt_mul (by omega)).2 (by rwa [hw])
  have hdiv := Nat.div_add_mod j (2 * len)
  have hlt := Nat.mod_lt j (show 0 < 2 * len by omega)
  have hmod : j % len = j % (2 * len) % len := (Nat.mod_mod_of_dvd j ⟨2, by ring⟩).symm
  by_cases ho : j % (2 * len) < len
  · obtain ⟨hlow, -⟩ := h.fwdLayer_pair hc z hw k hs ho
    rwa [hdiv, ← Nat.mod_eq_of_lt ho, ← hmod] at hlow
  · obtain ⟨-, hhigh⟩ := h.fwdLayer_pair hc z hw k hs (o := j % (2 * len) - len) (by omega)
    rw [show 2 * len * (j / (2 * len)) + len + (j % (2 * len) - len) = j by omega] at hhigh
    rw [hhigh, hmod, Nat.mod_eq_sub_mod (Nat.le_of_not_lt ho), Nat.mod_eq_of_lt (a := j % (2 * len) - len) (by omega)]

/-- All the layers of a chain of widths that each halve the block, which starts at the width `d` of the blocks before the first. -/
theorem ConstantAt.fwdLayers {q c : Int} (hc : mod c q = c) (z : Nat → Int) {ws : List Nat} (hw : WidthsOk ws) {d : Nat}
    (hchain : (d :: ws).IsChain (fun a b => a = 2 * b)) (k : Nat) {r : List Int} (h : ConstantAt d c r) :
    ConstantAt (ws.getLastD d) c (fwdLayers q z ws k r) := by
  induction ws generalizing d k r with
  | nil => exact h
  | cons len ws ih =>
    obtain ⟨rfl, htail⟩ := List.isChain_cons_cons.1 hchain
    rw [List.getLastD_cons]
    exact ih hw.tail htail _ (h.fwdLayer hc z (hw len (by simp)) k)

theorem layerWidths_isChain (inc : Bool) : (256 :: layerWidths inc).IsChain (fun a b => a = 2 * b) := by
  cases inc <;> simp [layerWidths]

theorem layerWidths_getLastD (inc : Bool) : (layerWidths inc).getLastD 256 = if inc then 2 else 1 := by cases inc <;> rfl

/-- Rule R140: the constant polynomial c becomes mod(c, Q) at every index, or at every even one. -/
theorem ConstantAt.nttFwd {q c : Int} (z : Nat → Int) (inc : Bool) {r : List Int} (h : ConstantAt 256 c r) :
    ConstantAt (if inc then 2 else 1) (mod c q) (nttFwd q z inc r) := by
  obtain ⟨hlen, hr⟩ := h
  have hred : ConstantAt 256 (mod c q) (scale q 1 r) := by
    refine ⟨by rw [scale_length, hlen], fun j hj => ?_⟩
    rw [List.getD_eq_getElem _ _ (by rwa [scale_length, hlen])]
    simp only [scale, List.getElem_map, Int.one_mul, ← List.getD_eq_getElem r 0, hr j hj]
    split
    · rfl
    · exact mod_zero q
  rw [← nttFwd_residues q z inc hlen, ← layerWidths_getLastD]
  exact hred.fwdLayers (mod_mod c q) z (widthsOk_layerWidths inc) (layerWidths_isChain inc) 1

theorem scale_zero_getD (q : Int) (r : List Int) (j : Nat) : (scale q 0 r).getD j 0 = 0 := by
  simp [scale, mod_zero, List.getD]

/-- The inverse transform is the inverse layers scaled by F (rule R134). -/
theorem nttInv_eq_scale (q f : Int) (z : Nat → Int) (inc : Bool) (r : List Int) :
    nttInv q f z inc r = scale q f (invLayers q z (layerWidths inc).reverse (invStart inc) r) := rfl

/-- The inverse transform takes multiples to multiples, because its layers do. -/
theorem nttInv_scale (q f c : Int) (z : Nat → Int) (inc : Bool) {r : List Int} (h : r.length = 256) :
    nttInv q f z inc (scale q c r) = scale q c (nttInv q f z inc r) := by
  rw [nttInv_eq_scale, nttInv_eq_scale, invLayers_scale q c z (widthsOk_reverse (widthsOk_layerWidths inc)) _ h, scale_scale, scale_scale,
    Int.mul_comm]

/-- Settles O45: the constant bank by `ConstantAt.nttFwd`; the zero bank is 0 times itself, and F = 0 scales by 0. -/
theorem transformsOfConstantBanks : Obligations.TransformsOfConstantBanks := by
  intro s t u pb _ hv hq ht hu
  have hbank := readBank_length s.poly pb
  refine ⟨fun hconst j hj => ?_, fun hzero j hj => ?_, fun hf j hj => ?_⟩
  · have hc : ConstantAt 256 (coef s pb 0) (readBank s.poly pb) := by
      refine ⟨hbank, fun k hk => ?_⟩
      rw [readBank_getD s pb hk, Nat.mod_eq_of_lt hk]
      split
      · subst k; rfl
      · exact hconst k (by omega) hk
    rw [coef_of_exec_transform (.inl rfl) hv hq ht hj]
    have hout := (hc.nttFwd (q := s.modulus) (zetaAt s.zeta) s.inc).2 j hj
    refine hout.trans ?_
    cases s.inc with
    | false => simp [Nat.mod_one]
    | true => rcases Nat.mod_two_eq_zero_or_one j with hpar | hpar <;> simp [hpar]
  · have hz : readBank s.poly pb = scale s.modulus 0 (readBank s.poly pb) := by
      refine List.ext_getElem (scale_length _ _ _).symm fun k hk _ => ?_
      rw [hbank] at hk
      rw [← List.getD_eq_getElem _ 0, ← List.getD_eq_getElem _ 0, scale_zero_getD, readBank_getD s pb hk, hzero k hk]
    rw [coef_of_exec_transform (.inr rfl) hv hq hu hj, hz, transformBy, nttInv_scale _ _ _ _ _ hbank, scale_zero_getD]
  · rw [coef_of_exec_transform (.inr rfl) hv hq hu hj, transformBy, hf, nttInv_eq_scale]
    exact scale_zero_getD _ _ j

end Sys2Proof.Machine
end

section
/-! The bit packer in closed form: the bytes and the groups of d bits as digits of one number, and its round trips (rules R154, R158 to
R163). -/

namespace Sys2Proof.Machine

/-! ### Digits -/

/-- Bit j of digit i in base 2^w is bit i·w + j of the number. -/
theorem testBit_digit {w j : Nat} (hj : j < w) (N i : Nat) : (N / 2 ^ (i * w) % 2 ^ w).testBit j = N.testBit (i * w + j) := by
  rw [Nat.testBit_mod_two_pow, Nat.testBit_div_two_pow, Nat.add_comm j]
  simp [hj]

/-- Byte k of a string is digit k of its number in base 256. -/
theorem byte_eq_digit (bs : List Byte) (k : Nat) :
    (bs.getD k 0).toNat = packed 8 (bs.map BitVec.toNat) / 2 ^ (k * 8) % 2 ^ 8 := by
  rw [packed_digit (bytes_lt bs)]
  exact (List.getD_map bs (0 : Byte) BitVec.toNat).symm

theorem groups_lt (d : Nat) (cm : CMode) (q : Int) (p : List Int) : ∀ u ∈ p.map (groupOf d cm q), u < 2 ^ d := by
  intro u hu
  obtain ⟨x, -, rfl⟩ := List.mem_map.1 hu
  exact groupOf_lt d cm q x

/-- Group i of a string: (S >> i·d) & (2^d − 1) of rule R161. -/
def groupAt (d : Nat) (bs : List Byte) (i : Nat) : Nat := packed 8 (bs.map BitVec.toNat) / 2 ^ (i * d) % 2 ^ d

theorem groupAt_lt (d : Nat) (bs : List Byte) (i : Nat) : groupAt d bs i < 2 ^ d := Nat.mod_lt _ (by positivity)

/-- The groups of an encoded string are those of the coefficients (rule R159). -/
theorem groupAt_bitsEnc (d : Nat) (cm : CMode) (q : Int) {p : List Int} (hp : p.length = 256) {i : Nat} (hi : i < p.length) :
    groupAt d (bitsEnc d cm q p) i = groupOf d cm q p[i] := by
  rw [groupAt, (bitsEnc_spec d cm q hp).2.1, packed_digit (groups_lt d cm q p), List.getD_eq_getElem _ _ (by simpa using hi),
    List.getElem_map]

/-- The decoder maps the 256 groups of the string, and they are the whole string (rule R161). -/
theorem bitsDec_eq_map_groupAt {d : Nat} (hd : 1 ≤ d) (cm : CMode) (q : Int) {bs : List Byte} (hb : bs.length = 32 * d) :
    bitsDec d cm q bs = ((List.range 256).map (groupAt d bs)).map (cdec cm q) ∧
      packed d ((List.range 256).map (groupAt d bs)) = packed 8 (bs.map BitVec.toNat) ∧
      (decLoop d cm q bs ⟨0, 0⟩).2 = ⟨0, 0⟩ := by
  obtain ⟨us, hlen, hlt, hdec, hpacked, hdrained⟩ := bitsDec_spec hd cm q hb
  have hus : us = (List.range 256).map (groupAt d bs) := by
    refine List.ext_getElem (by simp [hlen]) fun i hi _ => ?_
    rw [List.getElem_map, List.getElem_range, groupAt, ← hpacked, packed_digit hlt, List.getD_eq_getElem _ _ hi]
  exact hus ▸ ⟨hdec, hpacked, hdrained⟩

/-! ### Closed forms -/

/-- Settles O53: the string's number is the packed sum of the groups (`bitsEnc_spec`), its bytes are that number's digits in base 256 and
the groups its digits in base 2^d, so a bit of a group is a bit of the number (`testBit_digit`) and a bit of a byte. -/
theorem bitsEncodeIsThePackedSum : Obligations.BitsEncodeIsThePackedSum := by
  intro d cm q p _ _ hp
  obtain ⟨hlen, hpacked, hdrained⟩ := bitsEnc_spec d cm q hp
  refine ⟨fun x => ⟨rfl, rfl⟩, hlen, fun k _ => ?_, fun i b hi hb => ?_, hdrained⟩
  · rw [byte_eq_digit, hpacked, Nat.mul_comm]
    rfl
  · have hgroup := groupAt_bitsEnc d cm q hp (hp ▸ hi)
    rw [byte_eq_digit, testBit_digit (Nat.mod_lt _ (by decide)), Nat.div_add_mod', ← testBit_digit hb, ← groupAt, hgroup,
      List.getD_eq_getElem _ _ (hp ▸ hi)]
    rfl

/-- What a coefficient map makes of a d-bit group is in the range of rule R154. -/
theorem cdec_range {d : Nat} {cm : CMode} {q : Int} (hq : cm = .centered → 1 ≤ q) {u : Nat} (hu : u < 2 ^ d) :
    (cm = .ident → 0 ≤ cdec cm q u ∧ cdec cm q u < 2 ^ d) ∧ (cm = .centered → -q < 2 * cdec cm q u ∧ 2 * cdec cm q u ≤ q) := by
  refine ⟨?_, ?_⟩
  · rintro rfl
    exact ⟨Int.natCast_nonneg u, show (u : Int) < 2 ^ d by exact_mod_cast hu⟩
  · rintro rfl
    exact smod_bounds (hq rfl) u

/-- Settles O54, by the list of the decoded groups (`bitsDec_eq_map_groupAt`) and the ranges of the maps (`cdec_range`). -/
theorem bitsDecodeReadsThePackedSum : Obligations.BitsDecodeReadsThePackedSum := by
  intro d cm q bs hd _ hq hb
  obtain ⟨hdec, -, hdrained⟩ := bitsDec_eq_map_groupAt hd cm q hb
  refine ⟨fun u => ⟨rfl, rfl⟩, by simp [hdec], fun i hi => ?_, fun x hx => ?_, hdrained⟩
  · rw [hdec, List.getD_eq_getElem _ _ (by simpa using hi)]
    simp [groupAt]
  · rw [hdec, List.map_map] at hx
    obtain ⟨i, -, rfl⟩ := List.mem_map.1 hx
    exact cdec_range hq (groupAt_lt d bs i)

/-! ### Round trips -/

/-- Decode after encode, for any coefficients: the map, cut to d bits, and its inverse (rule R163). -/
theorem bitsDec_bitsEnc_eq_map {d : Nat} (hd : 1 ≤ d) (cm : CMode) (q : Int) {p : List Int} (hp : p.length = 256) :
    bitsDec d cm q (bitsEnc d cm q p) = p.map fun x => cdec cm q (groupOf d cm q x) := by
  rw [(bitsDec_eq_map_groupAt hd cm q (bitsEnc_spec d cm q hp).1).1]
  refine List.ext_getElem (by simp [hp]) fun i _ hi => ?_
  simp [groupAt_bitsEnc d cm q hp (by simpa using hi)]

/-- Encode after decode gives the string back exactly where each of its 256 groups survives its map (rule R163). -/
theorem bitsEnc_bitsDec_iff_groupAt {d : Nat} (hd : 1 ≤ d) (cm : CMode) (q : Int) {bs : List Byte} (hb : bs.length = 32 * d) :
    bitsEnc d cm q (bitsDec d cm q bs) = bs ↔ ∀ i, i < 256 → groupOf d cm q (cdec cm q (groupAt d bs i)) = groupAt d bs i := by
  obtain ⟨hdec, hpacked, -⟩ := bitsDec_eq_map_groupAt hd cm q hb
  rw [bitsEnc_bitsDec_iff hb (by simp) (by simp [groupAt_lt]) hdec hpacked]
  simp

theorem groupOf_cdec_ident {d u : Nat} (q : Int) (hu : u < 2 ^ d) : groupOf d .ident q (cdec .ident q u) = u := by
  have h : ((lowBits d u : Nat) : Int) = u := lowBits_of_range (Int.natCast_nonneg u) (by exact_mod_cast hu)
  exact_mod_cast h

/-- Under CENTERED a group survives exactly where it is a residue of Q: any other is encoded again as its residue, which is smaller. -/
theorem groupOf_cdec_centered_iff {d u : Nat} {q : Int} (hq : 1 ≤ q) (hu : u < 2 ^ d) :
    groupOf d .centered q (cdec .centered q u) = u ↔ (u : Int) < q := by
  have hu' : (u : Int) < 2 ^ d := by exact_mod_cast hu
  have hlow := mod_nonneg hq u
  have hhigh := mod_lt hq u
  have hgroup : groupOf d .centered q (cdec .centered q u) = lowBits d (mod u q) := congrArg (lowBits d) (mod_smod u q)
  rw [hgroup]
  constructor
  · intro h
    by_contra hge
    have hres := lowBits_of_range (d := d) hlow (by omega)
    rw [h] at hres
    omega
  · intro hlt
    rw [mod_of_range (Int.natCast_nonneg u) hlt]
    exact_mod_cast lowBits_of_range (Int.natCast_nonneg u) hu'

/-- Settles O55: `bitsDec_bitsEnc` on the valid domain, `bitsDec_bitsEnc_eq_map` for any coefficients, and the two maps' survival of
a group for the strings. -/
theorem bitsCoderRoundTrip : Obligations.BitsCoderRoundTrip := by
  intro d q hd _
  refine ⟨fun cm p _ hp hx => bitsDec_bitsEnc hd hp hx, fun cm p _ hp => bitsDec_bitsEnc_eq_map hd cm q hp, fun bs hb => ?_,
    fun hq bs hb => ?_⟩
  · exact (bitsEnc_bitsDec_iff_groupAt hd .ident q hb).2 fun i _ => groupOf_cdec_ident q (groupAt_lt d bs i)
  · rw [bitsEnc_bitsDec_iff_groupAt hd .centered q hb]
    exact forall₂_congr fun i _ => groupOf_cdec_centered_iff hq (groupAt_lt d bs i)

end Sys2Proof.Machine
end

section
/-! Sizes and places of the parts of a coder's value and of its string (rules R152, R153, R164, R176 to R182). -/

namespace Sys2Proof.Machine

/-- Settles O56: the sizes of a SPLIT are sums over its entries (`Entries.sizes_eq_sum`), and `enc` and `dec` keep to the sizes
(`Coder.enc_exact`, `Coder.dec_exact`). -/
theorem coderLengthsAreExact : Obligations.CoderLengthsAreExact :=
  ⟨fun _ _ => ⟨rfl, rfl, rfl⟩, Entries.sizes_eq_sum, fun _ _ => ⟨rfl, rfl, rfl⟩, fun c q hc =>
    ⟨fun polys raws hpolys hfull hraws => c.enc_exact q polys raws ⟨hpolys, hfull, hraws⟩, c.dec_exact q hc⟩⟩

/-! ### Slices -/

section
variable {α : Type}

theorem slice_zero (l : List α) (n : Nat) : slice l 0 n = l.take n := rfl

/-- A slice past a first part of `k` elements is a slice of the rest. -/
theorem slice_drop (l : List α) (k off n : Nat) : slice (l.drop k) off n = slice l (k + off) n := by
  rw [slice, slice, List.drop_drop]

theorem slice_append_left {a : List α} {n : Nat} (h : a.length = n) (b : List α) : slice (a ++ b) 0 n = a := List.take_left' h

theorem slice_append_right {a : List α} {k : Nat} (h : a.length = k) (b : List α) (off n : Nat) :
    slice (a ++ b) (k + off) n = slice b off n := by
  rw [← slice_drop, List.drop_left' h]

end

/-! ### The parts of a SPLIT -/

/-- The tree of an entry is legal (rules R150, R156). -/
def Entry.Legal : Entry → Prop
  | .raw n => n ≤ 65535
  | .nested c => c.Legal

/-- Induction over the entries of a SPLIT, the two kinds of entry as one case. -/
theorem Entries.cons_induction {P : Entries → Prop} (nil : P .nil) (cons : ∀ e es, P es → P (Entries.cons e es)) : ∀ es, P es
  | .nil => nil
  | .raw n es => cons (.raw n) es (cons_induction nil cons es)
  | .nested c es => cons (.nested c) es (cons_induction nil cons es)

theorem Entries.legal_cons (e : Entry) (es : Entries) : (Entries.cons e es).Legal ↔ e.Legal ∧ es.Legal := by
  cases e <;> simp [Entries.cons, Entries.Legal, Entry.Legal]

theorem Entries.npoly_cons (e : Entry) (es : Entries) : (Entries.cons e es).npoly = e.npoly + es.npoly := by
  cases e <;> simp [Entries.cons, Entries.npoly, Entry.npoly]

theorem Entries.nraw_cons (e : Entry) (es : Entries) : (Entries.cons e es).nraw = e.nraw + es.nraw := by
  cases e <;> rfl

theorem Entries.blen_cons (e : Entry) (es : Entries) : (Entries.cons e es).blen = e.len + es.blen := by
  cases e <;> rfl

theorem Entries.before_cons_succ (size : Entry → Nat) (e : Entry) (es : Entries) (j : Nat) :
    (Entries.cons e es).before size (j + 1) = size e + es.before size j := by
  simp [Entries.before, Entries.toList_cons]

/-- The slice of an entry has the length of rule R176. -/
theorem Entry.encoded_length (q : Int) (e : Entry) {polys : List (List Int)} {raws : List Byte}
    (h : Enough e.npoly e.nraw polys raws) :
    (e.encoded q (polys.take e.npoly) (raws.take e.nraw)).length = e.len := by
  cases e with
  | raw n => exact List.length_take_of_le h.2.2
  | nested c => exact (c.enc_exact q _ _ (h.take le_rfl le_rfl)).1

/-- The first entry is encoded from the first polynomials and raw bytes alone, the others from what follows them (rule R176). -/
theorem Entries.enc_cons (q : Int) (e : Entry) (es : Entries) {polys : List (List Int)} {raws : List Byte}
    (h : Enough e.npoly e.nraw polys raws) :
    ((Entries.cons e es).enc q polys raws).1 =
      e.encoded q (polys.take e.npoly) (raws.take e.nraw) ++ (es.enc q (polys.drop e.npoly) (raws.drop e.nraw)).1 := by
  cases e with
  | raw n => rfl
  | nested c =>
    simp only [Entries.cons, Entries.enc, Entry.encoded, (c.enc_exact q polys raws h).2]
    exact congrArg (· ++ _) (c.enc_local q polys raws _ _ h le_rfl le_rfl).symm

/-- The first entry is decoded from the first bytes alone, the others from what follows them (rule R177). -/
theorem Entries.dec_cons (q : Int) (e : Entry) (es : Entries) (bs : List Byte) :
    (Entries.cons e es).dec q bs =
      ((e.decoded q (bs.take e.len)).1 ++ (es.dec q (bs.drop e.len)).1,
        (e.decoded q (bs.take e.len)).2 ++ (es.dec q (bs.drop e.len)).2) := by
  cases e <;> rfl

/-- What an entry decodes has the sizes of rule R152. -/
theorem Entry.decoded_sizes (q : Int) {e : Entry} (he : e.Legal) {bs : List Byte} (hb : e.len ≤ bs.length) :
    (e.decoded q (bs.take e.len)).1.length = e.npoly ∧ (e.decoded q (bs.take e.len)).2.length = e.nraw := by
  have hlen : (bs.take e.len).length = e.len := List.length_take_of_le hb
  cases e with
  | raw n => exact ⟨rfl, hlen⟩
  | nested c =>
    obtain ⟨h1, -, h2⟩ := c.dec_exact q he _ hlen
    exact ⟨h1, h2⟩

/-- The slice of entry j in the string of a SPLIT (rule R176). -/
theorem Entries.slice_enc (q : Int) (es : Entries) {j : Nat} {e : Entry} {polys : List (List Int)} {raws : List Byte}
    (he : es.toList[j]? = some e) (h : Enough es.npoly es.nraw polys raws) :
    slice (es.enc q polys raws).1 (es.before Entry.len j) e.len =
      e.encoded q (slice polys (es.before Entry.npoly j) e.npoly) (slice raws (es.before Entry.nraw j) e.nraw) := by
  induction es using Entries.cons_induction generalizing j polys raws with
  | nil => simp [Entries.toList] at he
  | cons e₀ es ih =>
    rw [Entries.npoly_cons, Entries.nraw_cons] at h
    rw [Entries.toList_cons] at he
    rw [Entries.enc_cons q e₀ es h.left]
    cases j with
    | zero =>
      obtain rfl : e₀ = e := by simpa using he
      exact slice_append_left (Entry.encoded_length q e₀ h.left) _
    | succ j =>
      simp only [Entries.before_cons_succ]
      rw [slice_append_right (Entry.encoded_length q e₀ h.left), ih (by simpa using he) h.right, slice_drop, slice_drop]

/-- The parts of the value of a SPLIT that entry j decodes (rule R177). -/
theorem Entries.slice_dec (q : Int) (es : Entries) {j : Nat} {e : Entry} {bs : List Byte} (hlegal : es.Legal)
    (he : es.toList[j]? = some e) (hb : es.blen ≤ bs.length) :
    (slice (es.dec q bs).1 (es.before Entry.npoly j) e.npoly, slice (es.dec q bs).2 (es.before Entry.nraw j) e.nraw) =
      e.decoded q (slice bs (es.before Entry.len j) e.len) := by
  induction es using Entries.cons_induction generalizing j bs with
  | nil => simp [Entries.toList] at he
  | cons e₀ es ih =>
    rw [Entries.legal_cons] at hlegal
    rw [Entries.blen_cons] at hb
    rw [Entries.toList_cons] at he
    obtain ⟨hpolys, hraws⟩ := Entry.decoded_sizes q hlegal.1 (bs := bs) (by omega)
    rw [Entries.dec_cons]
    cases j with
    | zero =>
      obtain rfl : e₀ = e := by simpa using he
      exact Prod.ext (slice_append_left hpolys _) (slice_append_left hraws _)
    | succ j =>
      simp only [Entries.before_cons_succ]
      rw [slice_append_right hpolys, slice_append_right hraws,
        ih hlegal.2 (by simpa using he) (by rw [List.length_drop]; omega), slice_drop]

/-! ### The elements of a VEC -/

/-- The slice of element i in the string of a VEC (rule R181). -/
theorem slice_encTimes {f : List (List Int) → List Byte → List Byte × List (List Int) × List Byte} {blen npoly nraw : Nat}
    (hexact : EncExact f blen npoly nraw) (hlocal : EncLocal f npoly nraw) (cnt : Nat)
    {i : Nat} {polys : List (List Int)} {raws : List Byte} (hi : i < cnt) (h : Enough (cnt * npoly) (cnt * nraw) polys raws) :
    slice (encTimes f cnt polys raws).1 (i * blen) blen = (f (slice polys (i * npoly) npoly) (slice raws (i * nraw) nraw)).1 := by
  induction cnt generalizing i polys raws with
  | zero => exact absurd hi (Nat.not_lt_zero i)
  | succ n ih =>
    rw [Nat.succ_mul, Nat.succ_mul, Nat.add_comm _ npoly, Nat.add_comm _ nraw] at h
    obtain ⟨hlen, hrest⟩ := hexact polys raws h.left
    simp only [encTimes, hrest]
    cases i with
    | zero =>
      simp only [Nat.zero_mul, slice_append_left hlen, slice_zero]
      exact (hlocal polys raws _ _ h.left le_rfl le_rfl).symm
    | succ i =>
      simp only [Nat.succ_mul, Nat.add_comm _ blen, Nat.add_comm _ npoly, Nat.add_comm _ nraw]
      rw [slice_append_right hlen, ih (by omega) h.right, slice_drop, slice_drop]

/-- The parts of the value of a VEC that element i decodes (rule R182). -/
theorem slice_decTimes {f : List Byte → List (List Int) × List Byte} {blen npoly nraw : Nat} (hexact : DecExact f blen npoly nraw)
    (cnt : Nat) {i : Nat} {bs : List Byte} (hi : i < cnt) (hb : cnt * blen ≤ bs.length) :
    (slice (decTimes blen f cnt bs).1 (i * npoly) npoly, slice (decTimes blen f cnt bs).2 (i * nraw) nraw) =
      f (slice bs (i * blen) blen) := by
  induction cnt generalizing i bs with
  | zero => exact absurd hi (Nat.not_lt_zero i)
  | succ n ih =>
    rw [Nat.succ_mul] at hb
    obtain ⟨hpolys, -, hraws⟩ := hexact (bs.take blen) (List.length_take_of_le (by omega))
    simp only [decTimes]
    cases i with
    | zero => simp only [Nat.zero_mul, slice_append_left hpolys, slice_append_left hraws, slice_zero]
    | succ i =>
      simp only [Nat.succ_mul, Nat.add_comm _ blen, Nat.add_comm _ npoly, Nat.add_comm _ nraw]
      rw [slice_append_right hpolys, slice_append_right hraws, ih (by omega) (by rw [List.length_drop]; omega), slice_drop]

/-- Settles O60: a leaf by definition, the entries of a SPLIT and the elements of a VEC one after the other (`Entries.slice_enc`,
`Entries.slice_dec`, `slice_encTimes`, `slice_decTimes`). -/
theorem compositePartsLieInOrder : Obligations.CompositePartsLieInOrder := by
  intro q
  refine ⟨fun d cm p polys raws bs => ⟨rfl, rfl⟩, fun es j e hlegal he => ⟨fun polys raws hpolys hfull hraws => ?_, fun bs hb => ?_⟩,
    fun e cnt i hlegal hi => ⟨fun polys raws hpolys hfull hraws => ?_, fun bs hb => ?_⟩⟩
  · exact es.slice_enc q he ⟨hpolys, hfull, hraws⟩
  · exact es.slice_dec q hlegal.1 he hb.ge
  · exact slice_encTimes (e.enc_exact q) (e.enc_local q) cnt hi ⟨hpolys, hfull, hraws⟩
  · exact slice_decTimes (e.dec_exact q hlegal.1) cnt hi hb.ge

end Sys2Proof.Machine
end

section
/-! The commands CLEN, ENC and DEC: what they write, their faults in order, and ENC then DEC (rules R155, R157, R162, R183, R185, R227). -/

namespace Sys2Proof.Machine

/-! ### CLEN -/

/-- The length of a resolved coder fits RES (rules R38, R156). -/
theorem blen_fits {desc : Memory 32} {h : Nat} {c : Coder} (hc : resolve desc h = some c) : FitsS 63 c.blen := by
  have hblen := (resolve_legal hc).2
  omega

/-- A word with the opcode of CLEN and a reserved bit set is no command (rules R80, R82). -/
theorem decode_ne_ok_of_clen_reservedBit {w : Word} (hopc : w.toNat / 2 ^ 24 = 0x40) (hw : 16 ≤ w.toNat % 2 ^ 24) (i : Instr) :
    decode w ≠ .ok i := by
  intro hd
  rw [decode, bits_opcode, hopc] at hd
  obtain ⟨hreserved, -⟩ := formatH_ok (mk := .clen) hd
  rw [bits_eq] at hreserved
  omega

/-- Settles O49: the rule writes the length, which fits RES (`exec_setRes`), or is BAD_DESC. -/
theorem clenReportsTheLength : Obligations.ClenReportsTheLength := by
  intro s h hh
  refine ⟨fun c hc => exec_setRes ?_ (blen_fits hc), fun hnone => ?_, ?_,
    fun w hopc hw => issue_of_decode_ne_ok (decode_ne_ok_of_clen_reservedBit hopc hw) s⟩
  · simp only [resultOf, clenResult, hc]
  · exact exec_of_error (i := .clen h) (c := .badDesc) (by simp only [resultOf, clenResult, hnone])
  · exact decodeOfEncodeIsTheCommand (.clen h) (by simpa [Instr.wellFormed] using hh)

/-! ### Completion of ENC and DEC -/

section
variable {s : State} {h pb vlen : Nat} {c : Coder} (hc : resolve s.desc h = some c)

/-- The BAD_PARAM check passes where a CENTERED leaf has a legal Q (rules R157, R162). -/
theorem centered_imp_iff : (c.hasCentered = true → QLegal s) ↔ (HasCenteredLeaf c → ModulusLegal s) := by
  rw [Coder.hasCentered_iff]

theorem paramCheck_of_centered_imp (hq : HasCenteredLeaf c → ModulusLegal s) : ¬ (c.hasCentered = true ∧ ¬ QLegal s) := by
  rintro ⟨hcent, hillegal⟩
  exact hillegal (centered_imp_iff.2 hq hcent)

include hc

/-- ENC whose checks all pass writes the encoded string and RES (rules R157, R225). -/
theorem exec_enc (hq : HasCenteredLeaf c → ModulusLegal s) (hlen : s.x1.toInt = c.blen) (hvlen : RequiredVlen c vlen)
    (hranges : CoderRangesOk c pb s) :
    exec (.enc h pb vlen) s = .next (afterSuccess { s with
      bytes := Memory.writeRange s.bytes s.x0.toInt.toNat (encodedString c pb s), res := BitVec.ofInt 64 c.blen }) :=
  exec_of_ok (i := .enc h pb vlen) (encResult_of_checks hc (centered_imp_iff.2 hq) hlen (c.vlenOk_iff vlen |>.2 hvlen) hranges)

/-- DEC whose checks all pass writes the decoded polynomials, the raw bytes and RES (rules R162, R225). -/
theorem exec_dec (hq : HasCenteredLeaf c → ModulusLegal s) (hlen : s.x1.toInt = c.blen) (hranges : CoderRangesOk c pb s) :
    exec (.dec h pb) s = .next (afterSuccess { s with
      poly := writeBanks s.poly pb (decodedValue c s).1
      bytes := Memory.writeRange s.bytes s.x2.toInt.toNat (decodedValue c s).2, res := BitVec.ofInt 64 c.blen }) :=
  exec_of_ok (i := .dec h pb) (decResult_of_checks hc (centered_imp_iff.2 hq) hlen hranges)

end

/-- The string ENC writes, over the coefficients and the raw bytes as the host reads them (rule R157). -/
theorem encodedString_eq (c : Coder) (pb : Nat) (s : State) :
    encodedString c pb s = (c.enc s.q.toNat ((List.range c.npoly).map fun n => (List.range 256).map (coef s (pb + n)))
      ((List.range c.nraw).map fun k => byteAt s (s.x2.toInt.toNat + k))).1 := by
  rw [encodedString, readBanks_eq, readBytes_eq]

/-- The value DEC writes, over the string as the host reads it (rule R162). -/
theorem decodedValue_eq (c : Coder) (s : State) :
    decodedValue c s = c.dec s.q.toNat ((List.range c.blen).map fun k => byteAt s (s.x0.toInt.toNat + k)) := by
  rw [decodedValue, readBytes_eq]

/-- A byte string just written reads back element by element. -/
theorem map_read_writeRange (m : Memory 8) (base : Nat) {bs : List Byte} {n : Nat} (hn : bs.length = n) :
    (List.range n).map (fun k => Memory.read (Memory.writeRange m base bs) (base + k)) = bs := by
  subst hn
  refine List.ext_getElem (by simp) fun i _ hi => ?_
  rw [List.getElem_map, List.getElem_range, Memory.read_writeRange_inside m base bs hi]

/-- A byte outside a range that starts at a register's value in BYTES reads as before. -/
theorem read_writeRange_of_outside (m : Memory 8) {base : Int} (h0 : 0 ≤ base) {bs : List Byte} {n : Nat} (hn : bs.length = n) {a : Nat}
    (ha : (a : Int) < base ∨ base + n ≤ a) : Memory.read (Memory.writeRange m base.toNat bs) a = Memory.read m a :=
  Memory.read_writeRange_outside m _ bs (by omega)

/-- Settles O50: ENC completes (`exec_enc`) with blen bytes written (`encodedString_length`), which read back as the string. -/
theorem encWritesTheEncodedString : Obligations.EncWritesTheEncodedString := by
  intro s h pb vlen c _ _ _ hc hq hlen hvlen hstr hraw hmeet hbanks
  have hfits := blen_fits hc
  have hsize := encodedString_length (c := c) pb s
  refine ⟨_, _, exec_enc hc hq hlen hvlen ⟨hstr, hraw, hmeet, hbanks⟩, toInt_ofInt_64 hfits.1 hfits.2, fun a ha => ?_, ?_⟩
  · exact read_writeRange_of_outside s.bytes hstr.2.1 hsize ha
  · rw [← encodedString_eq]
    exact map_read_writeRange s.bytes _ hsize

/-- The decoded coefficients fit the elements of POLY (rules R38, R162). -/
theorem decodedValue_fits {s : State} {h : Nat} {c : Coder} (hc : resolve s.desc h = some c) (hq : HasCenteredLeaf c → ModulusLegal s) :
    ∀ p ∈ (decodedValue c s).1, ∀ x ∈ p, CoefFits x := by
  refine c.dec_fits (resolve_legal hc).1 (fun hcent => ?_) _ (readBytes_length _ _ _)
  obtain ⟨h1, h2⟩ := hq (c.hasCentered_iff.1 hcent)
  simp only [State.modulus, uval]
  omega

/-- Settles O51: DEC completes (`exec_dec`) with npoly banks and nraw bytes written (`decodedValue_sizes`), which read back as the value,
since its coefficients fit (`decodedValue_fits`). -/
theorem decWritesTheDecodedValue : Obligations.DecWritesTheDecodedValue := by
  intro s h pb c _ _ hc hq hlen hstr hraw hmeet hbanks
  have hfits := blen_fits hc
  obtain ⟨hpolys, hfull, hraws⟩ := decodedValue_sizes (resolve_legal hc).1 s
  refine ⟨_, _, _, exec_dec hc hq hlen ⟨hstr, hraw, hmeet, hbanks⟩, toInt_ofInt_64 hfits.1 hfits.2, fun a ha => ?_, fun a ha => ?_, ?_⟩
  · exact read_writeRange_of_outside s.bytes hraw.2.1 hraws ha
  · exact read_writeBanks_outside s.poly pb hfull (hpolys ▸ ha)
  · rw [← decodedValue_eq]
    have hbanksRead := readBanks_writeBanks_same s.poly pb hfull (decodedValue_fits hc hq)
    rw [hpolys, readBanks_eq { s with poly := writeBanks s.poly pb (decodedValue c s).1 }] at hbanksRead
    exact Prod.ext hbanksRead (map_read_writeRange s.bytes _ hraws)

/-! ### The faults of ENC and DEC -/

theorem encode_enc (h pb vlen : Nat) : encode (.enc h pb vlen) = BitVec.ofNat 32 (0x41000000 + 512 * vlen + 16 * pb + h) := by
  simp only [encode, Instr.opcode, Instr.fields, Nat.add_assoc]

theorem encode_dec (h pb : Nat) : encode (.dec h pb) = BitVec.ofNat 32 (0x42000000 + 16 * pb + h) := by
  simp only [encode, Instr.opcode, Instr.fields, Nat.add_assoc]

theorem exec_enc_of_error {s : State} {h pb vlen : Nat} {code : FaultCode} (he : encResult h pb vlen s = .error code) :
    exec (.enc h pb vlen) s = .next (afterFault s code.code (BitVec.ofNat 32 (0x41000000 + 512 * vlen + 16 * pb + h))) := by
  rw [← encode_enc]
  exact exec_of_error (i := .enc h pb vlen) he

theorem exec_dec_of_error {s : State} {h pb : Nat} {code : FaultCode} (he : decResult h pb s = .error code) :
    exec (.dec h pb) s = .next (afterFault s code.code (BitVec.ofNat 32 (0x42000000 + 16 * pb + h))) := by
  rw [← encode_dec]
  exact exec_of_error (i := .dec h pb) he

section
variable {s : State} {h : Nat} {c : Coder} (hc : resolve s.desc h = some c) (pb vlen : Nat)
include hc

theorem encResult_badParam (hcent : HasCenteredLeaf c) (hq : ¬ ModulusLegal s) : encResult h pb vlen s = .error .badParam := by
  simp only [encResult, hc]
  exact if_pos ⟨c.hasCentered_iff.2 hcent, hq⟩

theorem decResult_badParam (hcent : HasCenteredLeaf c) (hq : ¬ ModulusLegal s) : decResult h pb s = .error .badParam := by
  simp only [decResult, hc]
  exact if_pos ⟨c.hasCentered_iff.2 hcent, hq⟩

variable (hq : HasCenteredLeaf c → ModulusLegal s)
include hq

/-- Past the modulus check, the length x[1] and then VLEN are checked (rules R157, R183). -/
theorem encResult_lenMismatch (hlen : s.x1.toInt ≠ c.blen ∨ ¬ RequiredVlen c vlen) :
    encResult h pb vlen s = .error .lenMismatch := by
  simp only [encResult, hc, if_neg (paramCheck_of_centered_imp hq)]
  by_cases hx : s.x1.toInt = c.blen
  · have hvlen : c.vlenOk vlen = false := by
      rw [← Bool.not_eq_true, c.vlenOk_iff]
      exact hlen.resolve_left (not_not.2 hx)
    rw [if_neg (not_not.2 hx), if_pos hvlen]
  · exact if_pos hx

theorem decResult_lenMismatch (hlen : s.x1.toInt ≠ c.blen) : decResult h pb s = .error .lenMismatch := by
  simp only [decResult, hc, if_neg (paramCheck_of_centered_imp hq)]
  exact if_pos hlen

variable (hlen : s.x1.toInt = c.blen) (hranges : ¬ CoderRangesOk c pb s)
include hlen hranges

theorem encResult_badRange (hvlen : RequiredVlen c vlen) : encResult h pb vlen s = .error .badRange := by
  have hvlenOk : ¬ c.vlenOk vlen = false := by simp [(c.vlenOk_iff vlen).2 hvlen]
  simp only [encResult, hc, if_neg (paramCheck_of_centered_imp hq), if_neg (not_not.2 hlen), if_neg hvlenOk]
  exact if_pos hranges

theorem decResult_badRange : decResult h pb s = .error .badRange := by
  simp only [decResult, hc, if_neg (paramCheck_of_centered_imp hq), if_neg (not_not.2 hlen)]
  exact if_pos hranges

end

/-- Settles O52: one lemma for each check, the checks before it passed, and the fault entry of R226 with the command's word. -/
theorem coderCommandsFaultInOrder : Obligations.CoderCommandsFaultInOrder := by
  intro s h pb vlen _ _ _
  refine ⟨fun hnone => ⟨exec_enc_of_error (code := .badDesc) ?_, exec_dec_of_error (code := .badDesc) ?_⟩, fun c hc =>
    ⟨fun hcent hq => ⟨?_, ?_⟩, fun hq => ⟨fun hlen => ?_, fun hlen => ?_, fun hlen hranges => ⟨fun hvlen => ?_, ?_⟩⟩⟩⟩
  · simp only [encResult, hnone]
  · simp only [decResult, hnone]
  · exact exec_enc_of_error (encResult_badParam hc pb vlen hcent hq)
  · exact exec_dec_of_error (decResult_badParam hc pb hcent hq)
  · exact exec_enc_of_error (encResult_lenMismatch hc pb vlen hq hlen)
  · exact exec_dec_of_error (decResult_lenMismatch hc pb hq hlen)
  · exact exec_enc_of_error (encResult_badRange hc pb vlen hq hlen hranges hvlen)
  · exact exec_dec_of_error (decResult_badRange hc pb hq hlen hranges)

/-! ### ENC, then DEC -/

/-- An ENC that ends without a code has passed its checks (rules R157, R225, R226). -/
theorem encChecks_of_exec {s t : State} {h pb vlen : Nat} {c : Coder} (hc : resolve s.desc h = some c)
    (he : exec (.enc h pb vlen) s = .next t) (herr : t.err = 0) :
    (HasCenteredLeaf c → ModulusLegal s) ∧ s.x1.toInt = c.blen ∧ RequiredVlen c vlen ∧ CoderRangesOk c pb s := by
  rcases exec_next_cases he with ⟨u, hu, rfl⟩ | ⟨code, -, rfl⟩
  · obtain ⟨c', hc', hq, hlen, hvlen, hranges, -⟩ := encResult_ok hu
    obtain rfl : c = c' := Option.some.inj (hc.symm.trans hc')
    exact ⟨centered_imp_iff.1 hq, hlen, (c.vlenOk_iff vlen).1 hvlen, hranges⟩
  · exact absurd herr code.code_ne_zero

/-- Settles O58: what ENC writes (`encWritesTheEncodedString`) is what DEC reads, so DEC writes (`decWritesTheDecodedValue`) the value
that was encoded (`Coder.roundTrip`). -/
theorem encThenDecReproducesTheValue : Obligations.EncThenDecReproducesTheValue := by
  intro s t h pb pb' vlen c rb hh hpb hpb' hvl hc he herr hdom hraw hmeet hbanks
  obtain ⟨hq, hlen, hvlen, hstr, hraw₀, hmeet₀, hbanks₀⟩ := encChecks_of_exec hc he herr
  obtain ⟨b, r, he', -, -, hstring⟩ := encWritesTheEncodedString s h pb vlen c hh hpb hvl hc hq hlen hvlen hstr hraw₀ hmeet₀ hbanks₀
  obtain rfl : t = _ := Host.Outcome.next.inj (he.symm.trans he')
  obtain ⟨p, b', r', hd, -, -, -, hvalue⟩ := decWritesTheDecodedValue { afterSuccess { s with bytes := b, res := r } with x2 := rb }
    h pb' c hh hpb' hc hq hlen hstr hraw hmeet hbanks
  have hround := c.roundTrip s.q.toNat (resolve_legal hc).1 ((List.range c.npoly).map fun n => (List.range 256).map (coef s (pb + n)))
    ((List.range c.nraw).map fun k => byteAt s (s.x2.toInt.toNat + k)) ⟨by simp, by simp [AllFull], by simp⟩
  simp only [List.take_of_length_le, List.length_map, List.length_range, le_refl] at hround
  obtain ⟨hpolys, hraws⟩ := Prod.ext_iff.1 (hvalue.trans ((congrArg _ hstring).trans (hround hdom)))
  refine ⟨_, hd, rfl, fun n j hn hj => ?_, fun k hk => ?_⟩
  · exact List.map_inj_left.1 (List.map_inj_left.1 hpolys n (List.mem_range.2 hn)) j (List.mem_range.2 hj)
  · exact List.map_inj_left.1 hraws k (List.mem_range.2 hk)

end Sys2Proof.Machine
end

section
/-! `dec` undoes `enc` on a whole value (rules R153, R185). -/

namespace Sys2Proof.Machine

/-- Where each of `cnt` parts of `n` polynomials is full, the whole is. -/
theorem AllFull.of_parts {n cnt : Nat} {polys : List (List Int)} (hlen : polys.length = cnt * n)
    (h : ∀ i, i < cnt → AllFull ((polys.drop (i * n)).take n)) : AllFull polys := by
  induction cnt generalizing polys with
  | zero => simp [AllFull, List.eq_nil_of_length_eq_zero (hlen.trans (Nat.zero_mul n))]
  | succ cnt ih =>
    have hfirst : AllFull (polys.take n) := by simpa using h 0 (Nat.succ_pos cnt)
    have hrest : AllFull (polys.drop n) := ih (by simp [hlen, Nat.succ_mul]) fun i hi => by
      simpa only [List.drop_drop, Nat.succ_mul, Nat.add_comm n] using h (i + 1) (Nat.succ_lt_succ hi)
    exact List.take_append_drop n polys ▸ hfirst.append hrest

mutual

/-- A value in the domain of its leaves has 256 coefficients in each polynomial. -/
theorem Coder.allFull_of_inDomain {q : Int} : ∀ (c : Coder) {polys : List (List Int)}, polys.length = c.npoly →
    c.InDomain q polys → AllFull polys
  | .bits _ _, _, hlen, hdom => by
    obtain ⟨p, rfl⟩ := List.length_eq_one_iff.1 hlen
    simpa [AllFull] using hdom.1
  | .split es, _, hlen, hdom => Entries.allFull_of_inDomain es hlen hdom
  | .vec e cnt, polys, hlen, hdom => .of_parts hlen fun i hi => by
    have hpart : ((polys.drop (i * e.npoly)).take e.npoly).length = e.npoly := by
      have := Nat.mul_le_mul_right e.npoly (Nat.succ_le_of_lt hi)
      simp only [Coder.npoly, Nat.succ_mul] at hlen this
      simp only [List.length_take, List.length_drop]
      omega
    exact Coder.allFull_of_inDomain e hpart (hdom i hi)

theorem Entries.allFull_of_inDomain {q : Int} : ∀ (es : Entries) {polys : List (List Int)}, polys.length = es.npoly →
    es.InDomain q polys → AllFull polys
  | .nil, _, hlen, _ => by simp [AllFull, List.eq_nil_of_length_eq_zero hlen]
  | .raw _ es, _, hlen, hdom => Entries.allFull_of_inDomain es hlen hdom
  | .nested c es, polys, hlen, hdom => by
    simp only [Entries.npoly] at hlen
    have hfirst : AllFull (polys.take c.npoly) := Coder.allFull_of_inDomain c (by simp [hlen]) hdom.1
    have hrest : AllFull (polys.drop c.npoly) := Entries.allFull_of_inDomain es (by simp [hlen]) hdom.2
    exact List.take_append_drop c.npoly polys ▸ hfirst.append hrest

end

/-- Settles O57: `Coder.roundTrip` for the whole of the value, whose polynomials are full because they lie in the domains of their
leaves. -/
theorem coderRoundTrip : Obligations.CoderRoundTrip := by
  intro c q polys raws hc hpolys hraws hdom
  have henough : Enough c.npoly c.nraw polys raws := ⟨hpolys.ge, c.allFull_of_inDomain hpolys hdom, hraws.ge⟩
  have hround := c.roundTrip q hc polys raws henough
  rw [List.take_of_length_le hpolys.le, List.take_of_length_le hraws.le] at hround
  exact hround hdom

end Sys2Proof.Machine
end

section
/-! The command CMPB: what it leaves in RES, and its faults (rules R200, R201). -/

namespace Sys2Proof.Machine

/-- Two ranges of BYTES read as the same buffer when their lengths and their bytes, place by place, agree. -/
theorem readBytes_eq_readBytes_iff (s : State) (base base' : Int) (n n' : Nat) :
    readBytes s.bytes base n = readBytes s.bytes base' n' ↔
      n = n' ∧ ∀ k < n, byteAt s (base.toNat + k) = byteAt s (base'.toNat + k) := by
  constructor
  · intro h
    obtain rfl : n = n' := by simpa using congrArg List.length h
    simpa [readBytes_eq] using h
  · rintro ⟨rfl, hbytes⟩
    simpa [readBytes_eq] using hbytes

theorem cmpBuffers_fits (a b : List Byte) : FitsS 63 (cmpBuffers a b) := by
  rw [cmpBuffers_eq]
  split <;> decide

/-- CMPB of two ranges inside BYTES completes with 1 in RES for equal buffers and 0 for different ones (rule R200). -/
theorem exec_cmpb {s : State} (h0 : RangeOk s.x0.toInt s.x1.toInt) (h2 : RangeOk s.x2.toInt s.x3.toInt) :
    ∃ r : Long, exec .cmpb s = .next (afterSuccess { s with res := r }) ∧ (r.toInt = 0 ∨ r.toInt = 1) ∧
      (r.toInt = 1 ↔ readBytes s.bytes s.x0.toInt s.x1.toInt.toNat = readBytes s.bytes s.x2.toInt s.x3.toInt.toNat) := by
  obtain ⟨r, he, hr⟩ := exec_setRes (i := .cmpb) (if_pos ⟨h0, h2⟩) (cmpBuffers_fits _ _)
  refine ⟨r, he, ?_⟩
  rw [hr, cmpBuffers_eq]
  split
  · next heq => simp [heq]
  · next hne => simp [hne]

/-- Settles O59: RES holds 1 for equal buffers (`exec_cmpb`), and these are the buffers of one length with equal bytes
(`readBytes_eq_readBytes_iff`). The ranges are the rule's only check. -/
theorem cmpbComparesTheBuffers : Obligations.CmpbComparesTheBuffers := by
  intro s
  refine ⟨fun h0 h2 => ?_, fun hranges => exec_of_error (i := .cmpb) (c := .badRange) (if_neg hranges), by decide,
    fun w hopc hw => issue_of_reservedBit (i := .cmpb) rfl hopc hw s⟩
  obtain ⟨r, he, hbit, hone⟩ := exec_cmpb h0 h2
  refine ⟨r, he, hbit, hone.trans ?_⟩
  have hlen : s.x1.toInt.toNat = s.x3.toInt.toNat ↔ s.x1.toInt = s.x3.toInt := by omega
  rw [readBytes_eq_readBytes_iff, hlen]
  simp only [Int.lt_toNat]

end Sys2Proof.Machine
end

section
/-! The housekeeping commands NOP and CLRERR: their whole effect, and the words of their rows with a reserved bit set (rules R210, R211). -/

namespace Sys2Proof.Machine

/-- NOP writes nothing of its own (rule R210). -/
theorem exec_nop (s : State) : exec .nop s = .next (afterSuccess s) := by
  rw [← complete_eq_afterSuccess]
  exact exec_of_ok (i := .nop) rfl

/-- CLRERR writes STICKY alone (rule R211). -/
theorem exec_clrerr (s : State) : exec .clrerr s = .next (afterSuccess { s with sticky := false }) := by
  rw [← complete_eq_afterSuccess]
  exact exec_of_ok (i := .clrerr) rfl

/-- Settles O25: the rule of neither command has a check, and each command has one word of its opcode (`issue_of_reservedBit`). -/
theorem housekeepingCommandsComplete : Obligations.HousekeepingCommandsComplete := by
  intro s
  refine ⟨exec_nop s, exec_clrerr s, by decide, by decide, fun w hopc hw => ?_, fun w hopc hw => ?_⟩
  · exact issue_of_reservedBit (i := .nop) rfl hopc hw s
  · exact issue_of_reservedBit (i := .clrerr) rfl hopc hw s

end Sys2Proof.Machine
end

section
/-! The statements of 60_exceptions.md: a fault is precise, and the command that faulted can be issued again (rules R226, R229, R230). -/

namespace Sys2Proof.Machine

/-- A code in ERR after a command says that its rule raised it: a completion clears ERR (rule R225). -/
theorem exec_faulted {i : Instr} {s t : State} (h : exec i s = .next t) (herr : t.err ≠ 0) :
    ∃ c, resultOf i s = .error c ∧ t = s.raiseFault c (encode i) := by
  rcases exec_next_cases h with ⟨u, -, rfl⟩ | hfault
  · exact absurd u.complete_err herr
  · exact hfault

/-- The word's own form of `exec_faulted`: an illegal word faults with its own value in ECMD, a legal one with its command's encoding,
which is the word. -/
theorem issue_faulted {w : Word} {s t : State} (h : issue w s = .next t) (herr : t.err ≠ 0) : ∃ c, t = s.raiseFault c w := by
  rcases issue_completes_or_faults h with ⟨-, u, -, -, rfl⟩ | ⟨c, -, hfault⟩
  · exact absurd u.complete_err herr
  · exact ⟨c, hfault⟩

/-- A fault entry overwrites all that the fault entry before it wrote. -/
theorem State.raiseFault_raiseFault (s : State) (c c' : FaultCode) (w w' : Word) :
    (s.raiseFault c w).raiseFault c' w' = s.raiseFault c' w' := rfl

/-- Settles O13: a command or a word with a code in ERR at its end took the fault entry from the state before it (`exec_faulted`,
`issue_faulted`), with none of its own writes (rule R226). -/
theorem faultChangesOnlyStatusAndEcmd : Obligations.FaultChangesOnlyStatusAndEcmd := by
  constructor
  · intro w s t h herr
    obtain ⟨c, rfl⟩ := issue_faulted h herr
    exact raiseFault_eq_afterFault s c w
  · intro i s t h herr
    obtain ⟨c, -, rfl⟩ := exec_faulted h herr
    exact raiseFault_eq_afterFault s c (encode i)

/-- Settles O17: no command's checks read what a fault entry writes, so the same code is raised again (`resultOf_error_again`), and the
second fault entry writes what the first one did. -/
theorem faultingCommandFaultsAgain : Obligations.FaultingCommandFaultsAgain := by
  intro i s t h herr
  obtain ⟨c, hc, rfl⟩ := exec_faulted h herr
  rw [exec_of_error (resultOf_error_again hc c (encode i)), State.raiseFault_raiseFault]

end Sys2Proof.Machine
end
